-- ==== Sys2Proof/Word.lean ====
section
/-! DEFINITION. The word types of BBE-CORE: a field element or byte, a 32-bit register, a 64-bit command word (rules R8, R90, R120). -/

namespace Sys2Proof

/-- A byte: a field element of GF(2^8), or one cell of `MAT` or `SHD` (rules R8, R66, R120). -/
abbrev Byte := BitVec 8

/-- A register of the `REG` space: 32 bits (rule R37). -/
abbrev Word := BitVec 32

/-- A command word `I[63:0]` (rule R90). -/
abbrev Cmd := BitVec 64

/-- A 9-bit count: the rows or columns of a matrix register, `K`, `M`, `N` (rules R25, R31). -/
abbrev Count := BitVec 9

end Sys2Proof
end

