-- ==== Sys2Proof/Syntax.lean ====
section
/-! DEFINITION. The thirteen commands of BBE-CORE as syntax, one constructor per row of the opcode table (rule R95). -/

namespace Sys2Proof

/-- The number of a matrix register `MR0` to `MR7`; every value of the 3-bit field is legal (rules R21, R94). -/
abbrev MReg := Fin 8

/-- The number of a shard slot, 0 to 255 (rules R28, R94). -/
abbrev Slot := Fin 256

/-- The commands, operands in the order of the assembler syntax (rules R95, R103). Field elements are bytes; counts,
coordinates and the exponent are numbers, whose field widths `Instr.WellFormed` checks. -/
inductive Instr where
  /-- `GFMUL a, b` (rule R130). -/
  | gfmul (a b : Byte)
  /-- `GFPOW a, n` (rule R131). -/
  | gfpow (a : Byte) (n : Nat)
  /-- `GFINV a` (rule R132). -/
  | gfinv (a : Byte)
  /-- `GFLOG a` (rule R134). -/
  | gflog (a : Byte)
  /-- `GFEXP i` (rule R133). -/
  | gfexp (i : Byte)
  /-- `VAND MRd, rows, cols` (rule R158). -/
  | vand (md : MReg) (rows cols : Nat)
  /-- `SUBM MRd, MRs, xmin, ymin, xmax, ymax` (rule R159). -/
  | subm (md ms : MReg) (xmin ymin xmax ymax : Nat)
  /-- `MINV MRd, MRs` (rule R161). -/
  | minv (md ms : MReg)
  /-- `MMUL MRd, MRa, MRb` (rule R162). -/
  | mmul (md ma mb : MReg)
  /-- `ADDSV sd, ss, c` (rule R181). -/
  | addsv (sd ss : Slot) (c : Byte)
  /-- `INIT k, m` (rule R193). -/
  | init (k m : Nat)
  /-- `ENCODE` (rule R195). -/
  | encode
  /-- `RECON` (rule R200). -/
  | recon
  deriving DecidableEq, Repr

end Sys2Proof
end

