-- ==== Sys2Proof/WellFormed.lean ====
section
/-! DEFINITION. Which command terms have a command word: every number fits its field (rules R92 to R94). -/

namespace Sys2Proof

/-- A number that a 9-bit parameter field can hold, 0 to 511 (rules R93, R94). -/
def fitsParam (n : Nat) : Bool := n < 512

/-- A number that the 32-bit word operand can hold (rules R92, R94). -/
def fitsWord (n : Nat) : Bool := n < 4294967296

/-- Every operand fits its field. Range checks on values (`rows ≤ 256`, `k ≥ 1`, ...) are not part of it: they belong
to each command and raise `BAD_PARAM` (rules R94, R102). -/
def Instr.WellFormed : Instr → Bool
  | .gfmul _ _ => true
  | .gfpow _ n => fitsWord n
  | .gfinv _ => true
  | .gflog _ => true
  | .gfexp _ => true
  | .vand _ rows cols => fitsParam rows && fitsParam cols
  | .subm _ _ xmin ymin xmax ymax => fitsParam xmin && fitsParam ymin && fitsParam xmax && fitsParam ymax
  | .minv _ _ => true
  | .mmul _ _ _ => true
  | .addsv _ _ _ => true
  | .init k m => fitsParam k && fitsParam m
  | .encode => true
  | .recon => true

end Sys2Proof
end

