-- ==== Sys2Proof/Decode.lean ====
section
/-! DEFINITION. From command words to commands and back (rules R90 to R102). -/

namespace Sys2Proof

/-! ### Fields of a command word -/

/-- `I[31:0]`, the value the host writes to `CMDL` (rule R91). -/
def cmdLo (I : Cmd) : Word := I.extractLsb' 0 32

/-- `I[63:32]`, the value the host writes to `CMDH` (rule R91). -/
def cmdHi (I : Cmd) : Word := I.extractLsb' 32 32

/-- `I = {CMDH, v}` (rule R91). -/
def cmdOf (hi lo : Word) : Cmd := hi ++ lo

/-- The opcode, bits [7:0] of every format (rule R90). -/
def fieldOp (I : Cmd) : Byte := I.extractLsb' 0 8

/-- Format B, first byte operand, bits [15:8] (rule R92). -/
def fieldB0 (I : Cmd) : Byte := I.extractLsb' 8 8

/-- Format B, second byte operand, bits [23:16] (rule R92). -/
def fieldB1 (I : Cmd) : Byte := I.extractLsb' 16 8

/-- Format B, third byte operand, bits [31:24] (rule R92). -/
def fieldB2 (I : Cmd) : Byte := I.extractLsb' 24 8

/-- Format B, the 32-bit word operand, bits [63:32] (rule R92). -/
def fieldW (I : Cmd) : Word := I.extractLsb' 32 32

/-- Format M, destination matrix register, bits [10:8] (rule R93). -/
def fieldMd (I : Cmd) : MReg := (I.extractLsb' 8 3).toFin

/-- Format M, first source matrix register, bits [13:11] (rule R93). -/
def fieldMa (I : Cmd) : MReg := (I.extractLsb' 11 3).toFin

/-- Format M, second source matrix register, bits [16:14] (rule R93). -/
def fieldMb (I : Cmd) : MReg := (I.extractLsb' 14 3).toFin

/-- Format M, first 9-bit parameter, bits [25:17] (rule R93). -/
def fieldP0 (I : Cmd) : Nat := (I.extractLsb' 17 9).toNat

/-- Format M, second 9-bit parameter, bits [40:32] (rule R93). -/
def fieldP1 (I : Cmd) : Nat := (I.extractLsb' 32 9).toNat

/-- Format M, third 9-bit parameter, bits [49:41] (rule R93). -/
def fieldP2 (I : Cmd) : Nat := (I.extractLsb' 41 9).toNat

/-- Format M, fourth 9-bit parameter, bits [58:50] (rule R93). -/
def fieldP3 (I : Cmd) : Nat := (I.extractLsb' 50 9).toNat

/-- A slot number carried in a byte operand (rule R94). -/
def slotOf (b : Byte) : Slot := b.toFin

/-! ### The opcode map -/

/-- The thirteen mnemonics of rule R95. -/
inductive Op where
  | gfmul | gfpow | gfinv | gflog | gfexp | vand | subm | minv | mmul | addsv | init | encode | recon
  deriving DecidableEq, Repr

/-- One row of rule R96: a word is the command exactly when `I & mask = pattern`. -/
structure OpRow where
  op : Op
  pattern : Cmd
  mask : Cmd
  deriving DecidableEq, Repr

/-- The match and mask table of rule R96. -/
def opRows : List OpRow :=
  [ ⟨.gfmul, 0x0000000000000010, 0xFFFFFFFFFF0000FF⟩,
    ⟨.gfpow, 0x0000000000000011, 0x00000000FFFF00FF⟩,
    ⟨.gfinv, 0x0000000000000012, 0xFFFFFFFFFFFF00FF⟩,
    ⟨.gflog, 0x0000000000000013, 0xFFFFFFFFFFFF00FF⟩,
    ⟨.gfexp, 0x0000000000000014, 0xFFFFFFFFFFFF00FF⟩,
    ⟨.vand, 0x0000000000000020, 0xFFFFFE00FC01F8FF⟩,
    ⟨.subm, 0x0000000000000021, 0xF8000000FC01C0FF⟩,
    ⟨.minv, 0x0000000000000022, 0xFFFFFFFFFFFFC0FF⟩,
    ⟨.mmul, 0x0000000000000023, 0xFFFFFFFFFFFE00FF⟩,
    ⟨.addsv, 0x0000000000000030, 0xFFFFFFFF000000FF⟩,
    ⟨.init, 0x0000000000000040, 0xFFFFFE00FC01FFFF⟩,
    ⟨.encode, 0x0000000000000041, 0xFFFFFFFFFFFFFFFF⟩,
    ⟨.recon, 0x0000000000000042, 0xFFFFFFFFFFFFFFFF⟩ ]

/-- The word matches the row (rule R96). -/
def OpRow.matches (r : OpRow) (I : Cmd) : Bool := (I &&& r.mask) == r.pattern

/-- The used fields of a command, as rule R95 lists them. -/
def instrOf (op : Op) (I : Cmd) : Instr :=
  match op with
  | .gfmul => .gfmul (fieldB0 I) (fieldB1 I)
  | .gfpow => .gfpow (fieldB0 I) (fieldW I).toNat
  | .gfinv => .gfinv (fieldB0 I)
  | .gflog => .gflog (fieldB0 I)
  | .gfexp => .gfexp (fieldB0 I)
  | .vand => .vand (fieldMd I) (fieldP0 I) (fieldP1 I)
  | .subm => .subm (fieldMd I) (fieldMa I) (fieldP0 I) (fieldP1 I) (fieldP2 I) (fieldP3 I)
  | .minv => .minv (fieldMd I) (fieldMa I)
  | .mmul => .mmul (fieldMd I) (fieldMa I) (fieldMb I)
  | .addsv => .addsv (slotOf (fieldB0 I)) (slotOf (fieldB1 I)) (fieldB2 I)
  | .init => .init (fieldP0 I) (fieldP1 I)
  | .encode => .encode
  | .recon => .recon

/-- Why a word is illegal; either way the fault is `ILLEGAL_COMMAND` (rule R97). -/
inductive DecodeError where
  /-- Rule R97 (a): no command has this opcode. -/
  | unknownOpcode (op : Byte)
  /-- Rule R97 (b), (c): a must-be-zero bit of the command with this opcode is set. -/
  | nonzeroField (op : Op)
  deriving DecidableEq, Repr

/-- Rule R102: the first row the word matches, with its used fields; every other word is illegal. -/
def decode (I : Cmd) : Except DecodeError Instr :=
  match opRows.find? (fun r => r.matches I) with
  | some r => .ok (instrOf r.op I)
  | none =>
    match opRows.find? (fun r => r.pattern.extractLsb' 0 8 == fieldOp I) with
    | some r => .error (.nonzeroField r.op)
    | none => .error (.unknownOpcode (fieldOp I))

/-- The command at `w`, a number whose bit 0 is bit 0 of the word (the opcode table's numbering); bits from `nbits` up
are 0. A command is one 64-bit word and has no layout in memory (rules R74, R90). -/
def decodeTableWord (nbits w : Nat) : Option Instr :=
  (decode (BitVec.ofNat 64 (w % 2 ^ nbits))).toOption

/-! ### Encoding -/

/-- A format B word (rule R92). -/
def formatB (op b0 b1 b2 : Byte) (w : Word) : Cmd := w ++ (b2 ++ (b1 ++ (b0 ++ op)))

/-- A format M word (rule R93); the two `zero` fields are 0. -/
def formatM (op : Byte) (md ma mb : BitVec 3) (p0 p1 p2 p3 : BitVec 9) : Cmd :=
  (0#5 ++ (p3 ++ (p2 ++ p1)) : BitVec 32) ++ (0#6 ++ (p0 ++ (mb ++ (ma ++ (md ++ op)))) : BitVec 32)

/-- A register number as a 3-bit field. -/
def regField (r : MReg) : BitVec 3 := BitVec.ofNat 3 r.val

/-- A slot number as a byte field. -/
def slotField (s : Slot) : Byte := BitVec.ofNat 8 s.val

/-- A number as a 9-bit parameter field. -/
def paramField (n : Nat) : BitVec 9 := BitVec.ofNat 9 n

/-- The word of a command: opcode and used fields of rule R95, every other field 0. -/
def encode : Instr → Cmd
  | .gfmul a b => formatB 0x10 a b 0 0
  | .gfpow a n => formatB 0x11 a 0 0 (BitVec.ofNat 32 n)
  | .gfinv a => formatB 0x12 a 0 0 0
  | .gflog a => formatB 0x13 a 0 0 0
  | .gfexp i => formatB 0x14 i 0 0 0
  | .vand md rows cols => formatM 0x20 (regField md) 0 0 (paramField rows) (paramField cols) 0 0
  | .subm md ms xmin ymin xmax ymax =>
      formatM 0x21 (regField md) (regField ms) 0 (paramField xmin) (paramField ymin) (paramField xmax) (paramField ymax)
  | .minv md ms => formatM 0x22 (regField md) (regField ms) 0 0 0 0 0
  | .mmul md ma mb => formatM 0x23 (regField md) (regField ma) (regField mb) 0 0 0 0
  | .addsv sd ss c => formatB 0x30 (slotField sd) (slotField ss) c 0
  | .init k m => formatM 0x40 0 0 0 (paramField k) (paramField m) 0 0
  | .encode => formatM 0x41 0 0 0 0 0 0 0
  | .recon => formatM 0x42 0 0 0 0 0 0 0

end Sys2Proof
end

