-- ==== Sys2Proof/Config.lean ====
section
/-! DEFINITION. What an implementation fixes (rule R6), and the free values the spec leaves open. -/

namespace Sys2Proof.Config

/-- `NSLOT`: the number of shard slots (rule R6). -/
abbrev nslot : Nat := 256

/-- `NMR`: the number of matrix registers (rule R6). -/
abbrev nmr : Nat := 8

/-- `MATBUF`: bytes in one matrix buffer (rule R6). -/
abbrev matBuf : Nat := 65536

/-- `DIMMAX`: the largest legal row or column count (rule R6). -/
abbrev dimMax : Nat := 256

/-- The size of the `MAT` space: eight matrix buffers and `GEN` (rule R62). -/
abbrev matSize : Nat := 9 * matBuf

/-- The `MAT` offset of `GEN` (rule R62). -/
abbrev genBase : Nat := 8 * matBuf

/-- The open parameter `LMAX` less one. No body: rule R6 leaves `LMAX` open (log entry 3). -/
opaque lmaxLessOne : Nat

/-- `LMAX`, bytes in one shard slot: OPEN, a natural number at least 1 (rule R6, D9; log entry 3). -/
def lmax : Nat := lmaxLessOne + 1

/-- The byte each `MAT` offset holds before anything has written it: an unconstrained initial memory (U7; log entry 2). -/
opaque powerOnMat : Nat → Byte

/-- The byte each `SHD` offset holds before anything has written it: an unconstrained initial memory (U7; log entry 2). -/
opaque powerOnShd : Nat → Byte

/-- `LOG[0]`, which has no defined value and which no rule reads (rule R124, U1; log entry 4). -/
opaque logZero : Byte

/-- `gf_inv(0)`, which has no value and is never evaluated (rule R128, U2; log entry 4). -/
opaque invZero : Byte

end Sys2Proof.Config
end

