-- ==== Sys2Proof/Machine/State.lean ====
section
/-! DEFINITION. The state of the block as plain data, its reset values, and the reasons a step can stop (rules R20 to R40, R270). -/

namespace Sys2Proof.Machine

/-- A memory space: the bytes written since reset, as (offset, byte) pairs with offsets strictly rising (`Memory.wf`).
An offset that is not listed holds no value of its own (U7; log entries 2 and 15). -/
abbrev Memory := List Host.Cell

/-- The counts beside a matrix buffer (rule R25). -/
structure Shape where
  rows : Count
  cols : Count
  deriving DecidableEq, Repr

/-- The accesses the host interface offers, offsets counted inside the space: whole 32-bit registers of `REG`, single
bytes of `MAT` and `SHD` (rules R61 to R63, R103; U9). -/
inductive HostAccess where
  /-- `WR`: write the register at `REG` offset `off`; at the offset of `CMDL` this issues a command (rule R91). -/
  | wrReg (off : Nat) (v : Word)
  /-- `RD`: read the register at `REG` offset `off`. -/
  | rdReg (off : Nat)
  /-- `WRB MAT[off], b`. -/
  | wrMat (off : Nat) (b : Byte)
  /-- `RDB MAT[off]`. -/
  | rdMat (off : Nat)
  /-- `WRB SHD[off], b`. -/
  | wrShd (off : Nat) (b : Byte)
  /-- `RDB SHD[off]`. -/
  | rdShd (off : Nat)
  deriving DecidableEq, Repr

/-- What a host read gave back. -/
inductive ReadData where
  /-- The host has read nothing yet. -/
  | none
  /-- The value of a register. -/
  | reg (v : Word)
  /-- A byte of `MAT` or `SHD`. -/
  | byte (b : Byte)
  deriving DecidableEq, Repr

/-- The fault codes of rule R231. These are the spec's faults, recorded in registers; none of them stops the machine. -/
inductive FaultCode where
  /-- Code 1, raised by RECON (rule R233). -/
  | insufficientShards
  /-- Code 2, raised by MINV, and on unreachable paths by INIT and RECON (rule R234). -/
  | singularMatrix
  /-- Code 3, raised by MMUL (rule R237). -/
  | dimensionMismatch
  /-- Code 4, reserved and never raised (rule R235). -/
  | shardLengthMismatch
  /-- Code 5, raised by decoding (rule R236). -/
  | illegalCommand
  /-- Code 6 (rule R238). -/
  | badParam
  /-- Code 7, raised by GFINV and GFLOG (rule R239). -/
  | zeroOperand
  /-- Code 8, raised by ENCODE and RECON (rule R239). -/
  | notConfigured
  deriving DecidableEq, Repr

/-- The state of the block. The last four fields are the model's own (log entries 1, 3, 7, 8). -/
structure State where
  /-- `CMDH` (rule R33). -/
  cmdh : Word
  /-- `STATUS.ERR`, bits [11:8] of `STATUS` (rule R34). -/
  err : BitVec 4
  /-- `ERRSTICKY` (rule R35). -/
  errsticky : Word
  /-- `ERRINFO0` (rule R36). -/
  errinfo0 : Word
  /-- `ERRINFO1` (rule R36). -/
  errinfo1 : Word
  /-- `RES` (rule R27). -/
  res : Byte
  /-- `SHLEN`, the shard length `L` (rule R30). -/
  shlen : Word
  /-- `CFGV`: a coder has been constructed (rule R31). -/
  cfgv : Bool
  /-- `K`, the number of data shards (rule R31). -/
  k : Count
  /-- `M`, the number of parity shards (rule R31). -/
  m : Count
  /-- `N = K + M` (rule R31). -/
  n : Count
  /-- `PRESENT[s]` is bit `s` (rule R29). -/
  present : BitVec 256
  /-- The counts of `MR0` to `MR7` (rules R25, R26). -/
  shapes : Vector Shape 8
  /-- The `MAT` space: the buffers of `MR0` to `MR7`, then `GEN` (rules R25, R32, R62). -/
  mat : Memory
  /-- The `SHD` space: the shard slots (rules R28, R63). -/
  shd : Memory
  /-- The index into the host's list of commands, which rule R22 calls a model's "pc" (log entry 8). -/
  pc : Nat
  /-- The parameter `LMAX` of this block, changed by nothing (rule R6; log entry 3). -/
  lmax : Nat
  /-- The accesses the host has yet to make, the next one first (rules R20, R22; log entry 1). -/
  host : List HostAccess
  /-- What the host's last read gave back (log entry 7). -/
  readData : ReadData
  deriving DecidableEq, Repr

/-- Why the machine stops. No command ends in one: a command's fault is a next state (rules R240, R243). -/
inductive Fault where
  /-- Raised by a host register access at an offset of 0x100 or more, which does not exist (rule R61, U9). Safe: the
  spec gives the access no meaning and no model may let a host make it (log entry 6). -/
  | regOutside (off : Nat)
  /-- Raised by a host access to `MAT` at an offset of 0x90000 or more (rule R62, U9). Safe (log entry 6). -/
  | matOutside (off : Nat)
  /-- Raised by a host access to `SHD` at an offset of `256 × LMAX` or more (rule R63, U9). Safe (log entry 6). -/
  | shdOutside (off : Nat)
  deriving DecidableEq, Repr

/-- Why a step has no meaning. -/
inductive Refusal where
  /-- Raised by a dispatch arm that has no meaning yet; no arm of this model does. Safe. -/
  | notModelled (mnemonic : String)
  /-- Raised by a host register access inside `REG` whose offset is no multiple of 4 (rules R61, R67, U9). Safe: the
  spec refuses the access and gives it no meaning (log entry 6). -/
  | regMisaligned (off : Nat)
  deriving DecidableEq, Repr

/-- What a step or a meaning answers. -/
abbrev Result := Host.Outcome State Fault Refusal

/-- The state right after reset (rule R270). The buffers are unspecified: nothing is listed (U7; log entry 2). The
model's own fields start with no host access to come, nothing read, and `LMAX` the open parameter (log entries 1, 3, 7). -/
def State.reset : State where
  cmdh := 0
  err := 0
  errsticky := 0
  errinfo0 := 0
  errinfo1 := 0
  res := 0
  shlen := 0
  cfgv := false
  k := 0
  m := 0
  n := 0
  present := 0
  shapes := Vector.replicate 8 ⟨0, 0⟩
  mat := []
  shd := []
  pc := 0
  lmax := Config.lmax
  host := []
  readData := .none

end Sys2Proof.Machine
end

