-- ==== Sys2Proof/Machine/Ops.lean ====
section
/-! DEFINITION. The named operations over memory and registers, the end of a command, and the one fault entry (rules R10 to R13, R240). -/

namespace Sys2Proof.Machine

/-! ### Loops -/

/-- `for i in [0, n)`: the body at 0, 1, ..., n-1 in that order (rule R13). -/
def forRange {σ : Type} : Nat → (Nat → σ → σ) → σ → σ
  | 0, _, s => s
  | n + 1, body, s => body n (forRange n body s)

/-! ### Memory spaces -/

/-- The canonical form: offsets strictly rising. Nothing listed equals what an unlisted offset holds, for that is no
value at all (U7; log entry 15). -/
abbrev Memory.wf (mem : Memory) : Prop := mem.Pairwise (fun x y => x.1 < y.1)

/-- The byte written at offset `a`, or `none` when nothing has written it since reset (U7). -/
def Memory.get? : Memory → Nat → Option Byte
  | [], _ => none
  | (x, b) :: mem, a => if x = a then some b else Memory.get? mem a

/-- The cells of a run of bytes from offset `base` up. -/
def Memory.run : Nat → List Byte → Memory
  | _, [] => []
  | base, b :: bs => (base, b) :: Memory.run (base + 1) bs

/-- `MemWrite` of a run of bytes at offsets `base`, `base + 1`, ... (rule R10). -/
def Memory.write (mem : Memory) (base : Nat) (bytes : List Byte) : Memory :=
  mem.filter (fun c => c.1 < base) ++
    (Memory.run base bytes ++ mem.filter (fun c => base + bytes.length ≤ c.1))

/-- `MemRead(MAT, a, 1)`: the byte written there, else the byte of the unconstrained initial memory (rule R10, U7). -/
def State.matByte (s : State) (a : Nat) : Byte := (Memory.get? s.mat a).getD (Config.powerOnMat a)

/-- `MemRead(SHD, a, 1)` (rule R10, U7). -/
def State.shdByte (s : State) (a : Nat) : Byte := (Memory.get? s.shd a).getD (Config.powerOnShd a)

/-- Writes a run of bytes into `MAT`. -/
def State.writeMat (s : State) (base : Nat) (bytes : List Byte) : State :=
  { s with mat := s.mat.write base bytes }

/-- Writes a run of bytes into `SHD`. -/
def State.writeShd (s : State) (base : Nat) (bytes : List Byte) : State :=
  { s with shd := s.shd.write base bytes }

/-! ### Registers -/

/-- `RES <- v` (rule R27). -/
def State.setRes (s : State) (v : Byte) : State := { s with res := v }

/-- `CMDH <- v` (rule R33). -/
def State.setCmdh (s : State) (v : Word) : State := { s with cmdh := v }

/-- `SHLEN <- v` (rule R30). -/
def State.setShlen (s : State) (v : Word) : State := { s with shlen := v }

/-- `MR[i].rows <- rows`, `MR[i].cols <- cols` (rule R25). -/
def State.setShape (s : State) (i : MReg) (sh : Shape) : State :=
  { s with shapes := s.shapes.set i.val sh }

/-- Replaces the `PRESENT` bits (rule R29). -/
def State.setPresent (s : State) (p : BitVec 256) : State := { s with present := p }

/-- `PRESENT[i] <- 1` (rule R206). -/
def State.markPresent (s : State) (i : Nat) : State := s.setPresent (s.present ||| BitVec.twoPow 256 i)

/-- `PRESENT[i]` (rule R29). -/
def State.isPresent (s : State) (i : Nat) : Bool := s.present.getLsbD i

/-- `K <- k`, `M <- m`, `N <- k + m`, `CFGV <- 1` (rule R193). -/
def State.setCoder (s : State) (k m : Nat) : State :=
  { s with k := BitVec.ofNat 9 k, m := BitVec.ofNat 9 m, n := BitVec.ofNat 9 (k + m), cfgv := true }

/-- The host's next accesses become `l` (log entry 1). -/
def State.setHost (s : State) (l : List HostAccess) : State := { s with host := l }

/-- The host has read `d` (log entry 7). -/
def State.setReadData (s : State) (d : ReadData) : State := { s with readData := d }

/-! ### The end of a command -/

/-- The number a fault code has in `STATUS.ERR` and among the bits of `ERRSTICKY` (rule R231). -/
def FaultCode.code : FaultCode → BitVec 4
  | .insufficientShards => 1
  | .singularMatrix => 2
  | .dimensionMismatch => 3
  | .shardLengthMismatch => 4
  | .illegalCommand => 5
  | .badParam => 6
  | .zeroOperand => 7
  | .notConfigured => 8

/-- The register changes of a normal end: `STATUS.ERR <- 0`, nothing else recorded (rule R240); the model's pc advances (rule R22). -/
def State.endNormal (s : State) : State := { s with err := 0, pc := s.pc + 1 }

/-- The register changes of fault entry: `STATUS.ERR <- c`, bit `c` of `ERRSTICKY` set, `ERRINFO0` and `ERRINFO1`
written (rule R240); the model's pc advances all the same (rule R22). -/
def State.endFault (s : State) (c : FaultCode) (info0 info1 : Word) : State :=
  { s with
    err := c.code
    errsticky := s.errsticky ||| BitVec.twoPow 32 c.code.toNat
    errinfo0 := info0
    errinfo1 := info1
    pc := s.pc + 1 }

/-- A command ends normally (rule R240). -/
def complete (s : State) : Result := .next s.endNormal

/-- TAKING A FAULT, the one operation every `raise` goes through (rules R11, R240). The block does not stop (rule R243). -/
def raise (c : FaultCode) (info0 info1 : Word) (s : State) : Result := .next (s.endFault c info0 info1)

/-- A `raise` whose context words are the two halves of the command word `I` (rule R232). -/
def raiseWord (c : FaultCode) (I : Cmd) (s : State) : Result := raise c (cmdLo I) (cmdHi I) s

/-- There is no return from a fault (rule R243). What the host does instead is acknowledge it: each bit of `ERRSTICKY`
written as 1 is cleared, each bit written as 0 keeps its value (rule R35). -/
def State.acknowledge (s : State) (v : Word) : State := { s with errsticky := s.errsticky &&& ~~~v }

end Sys2Proof.Machine
end

