-- ==== Sys2Proof/Machine/Flags.lean ====
section
/-! DEFINITION. The block has no arithmetic flags (rule R23); its status words are computed here (rules R26, R29, R34, R35). -/

namespace Sys2Proof.Machine

/-- `STATUS`: bit 1 `CFGV`, bits [11:8] `ERR`, all else 0; bit 0 `BUSY` is never seen set (rules R34, R70; log entry 9). -/
def State.statusWord (s : State) : Word :=
  0#20 ++ (s.err ++ (0#6 ++ (BitVec.ofBool s.cfgv ++ 0#1)))

/-- The bits of `ERRSTICKY` that exist: one per fault code 1 to 8 (rules R35, R37). -/
def stickyMask : Word := 0x1FE

/-- `ERRSTICKY` as the host reads it: bit 0 and bits [31:9] read as 0 (rule R35). -/
def State.stickyWord (s : State) : Word := s.errsticky &&& stickyMask

/-- A 9-bit count in bits [8:0] of a register (rules R31, R37). -/
def countWord (c : Count) : Word := c.setWidth 32

/-- `PRESENTi`: bit `j` is `PRESENT[32 × i + j]` (rule R29). -/
def State.presentWord (s : State) (i : Nat) : Word := s.present.extractLsb' (32 * i) 32

/-- The `PRESENT` bits after the host writes `v` to `PRESENTi` (rule R29). -/
def State.presentWith (s : State) (i : Nat) (v : Word) : BitVec 256 :=
  (s.present &&& ~~~((0xFFFFFFFF#256) <<< (32 * i))) ||| ((v.setWidth 256) <<< (32 * i))

/-- `MSHAPEi`: bits [8:0] the rows, bits [24:16] the columns, all else 0 (rule R26). -/
def shapeWord (sh : Shape) : Word := 0#7 ++ (sh.cols ++ (0#7 ++ sh.rows))

/-- The counts a write of `v` to `MSHAPEi` stores, as written (rule R26). -/
def shapeOf (v : Word) : Shape := ⟨v.extractLsb' 0 9, v.extractLsb' 16 9⟩

end Sys2Proof.Machine
end

