-- ==== Sys2Proof/Machine/Mat.lean ====
section
/-! DEFINITION. Matrix values and the four matrix functions, and the generator matrix (rules R12, R150 to R156, R191). -/

namespace Sys2Proof.Machine

/-- A matrix value: its counts and its elements, a list of rows (rules R12, R150). -/
structure Mat where
  rows : Nat
  cols : Nat
  e : List (List Byte)
  deriving DecidableEq, Repr

/-- The `rows × cols` value with element `f r c` at row `r`, column `c`. -/
def Mat.ofFn (rows cols : Nat) (f : Nat → Nat → Byte) : Mat :=
  ⟨rows, cols, (List.range rows).map (fun r => (List.range cols).map (fun c => f r c))⟩

/-- The element `A.e[r][c]`; the pseudocode reads it only for `r < rows`, `c < cols`. -/
def Mat.get (A : Mat) (r c : Nat) : Byte := (A.e.getD r []).getD c 0

/-- The elements row by row: byte `r × cols + c` is `e[r][c]` (rule R12). -/
def Mat.bytes (A : Mat) : List Byte :=
  (List.range (A.rows * A.cols)).map (fun o => A.get (o / A.cols) (o % A.cols))

/-- `identity(s)` (rule R150). -/
def matIdentity (size : Nat) : Mat := Mat.ofFn size size (fun r c => if r = c then 1 else 0)

/-- `mat_vandermonde(rows, cols)`: element `(v, u)` is `gf_pow(v, u)` (rule R151). -/
def matVandermonde (rows cols : Nat) : Mat := Mat.ofFn rows cols (fun v u => gfPow (BitVec.ofNat 8 v) u)

/-- `mat_sub(A, xmin, ymin, xmax, ymax)`: `x` counts columns, `y` rows, upper bounds exclusive (rule R152). -/
def matSub (A : Mat) (xmin ymin xmax ymax : Nat) : Mat :=
  Mat.ofFn (ymax - ymin) (xmax - xmin) (fun r c => A.get (ymin + r) (xmin + c))

/-- `mat_mul(A, B)` (rule R156). -/
def matMul (A B : Mat) : Mat :=
  Mat.ofFn A.rows B.cols (fun r c => gfSum A.cols (fun t => gfMul (A.get r t) (B.get t c)))

/-! ### Gauss-Jordan inversion (rule R153) -/

/-- How `mat_invert` returns. -/
inductive InvResult where
  /-- `Ok(W', R)`: the final working matrix and the inverse. -/
  | ok (W R : Mat)
  /-- `Singular(r, W')`: the pivot index with no nonzero entry and the working matrix at that moment. -/
  | singular (r : Nat) (W : Mat)
  deriving DecidableEq, Repr

/-- The row that supplies pivot `r`: row `r` itself when its diagonal entry is nonzero, else the least `j` with
`r < j < size` and `W.e[j][r] ≠ 0`, searching downward (rule R153, D18). -/
def pivotRow (W : Mat) (r : Nat) : Option Nat :=
  if W.get r r = 0 then (List.range' (r + 1) (W.rows - (r + 1))).find? (fun j => W.get j r != 0) else some r

/-- Swaps rows `i` and `j`. -/
def swapRows (A : Mat) (i j : Nat) : Mat :=
  Mat.ofFn A.rows A.cols (fun r c => A.get (if r = i then j else if r = j then i else r) c)

/-- Scales row `r` by `f`. -/
def scaleRow (A : Mat) (r : Nat) (f : Byte) : Mat :=
  Mat.ofFn A.rows A.cols (fun i c => if i = r then gfMul f (A.get i c) else A.get i c)

/-- XORs into every row `j ≠ r` of `A` the multiple of row `r` by the entry `(j, r)` of `W`. -/
def eliminate (W A : Mat) (r : Nat) : Mat :=
  Mat.ofFn A.rows A.cols
    (fun j c => if j = r then A.get j c else gfAdd (A.get j c) (gfMul (W.get j r) (A.get r c)))

/-- The pivots of a list in order, on the working matrix and the accumulating identity together (rule R153). -/
def invertLoop : List Nat → Mat → Mat → InvResult
  | [], W, R => .ok W R
  | r :: rs, W, R =>
    match pivotRow W r with
    | none => .singular r W
    | some j =>
      let W1 := swapRows W r j
      let R1 := swapRows R r j
      let f := gfInv (W1.get r r)
      let W2 := scaleRow W1 r f
      let R2 := scaleRow R1 r f
      invertLoop rs (eliminate W2 W2 r) (eliminate W2 R2 r)

/-- `mat_invert(W)` for a square value (rule R153). -/
def matInvert (W : Mat) : InvResult := invertLoop (List.range W.rows) W (matIdentity W.rows)

/-- `build_generator(k, m)`: the Vandermonde matrix times the inverse of its top square, or the failing pivot (rule R191, C2). -/
def buildGenerator (k m : Nat) : Except Nat Mat :=
  let V := matVandermonde (k + m) k
  match matInvert (matSub V 0 0 k k) with
  | .singular r _ => .error r
  | .ok _ Tinv => .ok (matMul V Tinv)

end Sys2Proof.Machine
end

