-- ==== Sys2Proof/Machine/Operands.lean ====
section
/-! DEFINITION. What the operands of a command stand for: matrix registers, shard slots, the generator matrix (rules R10, R12, R62, R63, R155). -/

namespace Sys2Proof.Machine

/-! ### Matrix registers -/

/-- The counts of `MRi` (rule R25). -/
def State.shape (s : State) (i : MReg) : Shape := s.shapes[i.val]

/-- The `MAT` offset of byte `o` of the buffer of `MRi` (rule R62). -/
def bufAddr (i : MReg) (o : Nat) : Nat := i.val * Config.matBuf + o

/-- `MR[i].buf[o]` (rules R10, R62). -/
def State.bufByte (s : State) (i : MReg) (o : Nat) : Byte := s.matByte (bufAddr i o)

/-- `legal(i)`: both counts of `MRi` are at most 256 (rule R155). -/
def State.legal (s : State) (i : MReg) : Bool :=
  (s.shape i).rows.toNat ≤ Config.dimMax && (s.shape i).cols.toNat ≤ Config.dimMax

/-- `rd_mat(i)`: element `(r, c)` is `MR[i].buf[r × cols + c]` (rule R12). -/
def State.rdMat (s : State) (i : MReg) : Mat :=
  Mat.ofFn (s.shape i).rows.toNat (s.shape i).cols.toNat
    (fun r c => s.bufByte i (r * (s.shape i).cols.toNat + c))

/-- `wr_mat(i, A)`: the counts and exactly the first `rows × cols` bytes of the buffer (rules R12, R25). -/
def State.wrMat (s : State) (i : MReg) (A : Mat) : State :=
  (s.setShape i ⟨BitVec.ofNat 9 A.rows, BitVec.ofNat 9 A.cols⟩).writeMat (bufAddr i 0) A.bytes

/-! ### The generator matrix -/

/-- `GEN[o]` (rules R10, R62). -/
def State.genByte (s : State) (o : Nat) : Byte := s.matByte (Config.genBase + o)

/-- Element `(r, c)` of the generator matrix, `GEN[r × K + c]` (rule R32). -/
def State.genElem (s : State) (r c : Nat) : Byte := s.genByte (r * s.k.toNat + c)

/-- `GEN[r × k + c] <- G.e[r][c]` for every element (rule R193). DESIGN CHOICE, unsafe: the bytes at offsets `≥ n × k`,
unspecified by rule R32 and U7 and "not written" by rule R193, keep what an earlier, larger INIT wrote there (log
entry 17). -/
def State.wrGen (s : State) (G : Mat) : State := s.writeMat (Config.genBase) G.bytes

/-! ### Shard slots -/

/-- The shard length `L = SHLEN` (rules R28, R30). -/
def State.shardLen (s : State) : Nat := s.shlen.toNat

/-- The `SHD` offset of byte `b` of slot `sl` (rule R63). -/
def State.slotAddr (s : State) (sl b : Nat) : Nat := sl * s.lmax + b

/-- `SHARD[sl][b]` (rules R10, R63). -/
def State.slotByte (s : State) (sl b : Nat) : Byte := s.shdByte (s.slotAddr sl b)

/-- Bytes `[0, len)` of a slot. -/
def State.slotBytes (s : State) (sl len : Nat) : List Byte := (List.range len).map (s.slotByte sl)

/-- Writes bytes `0`, `1`, ... of a slot. -/
def State.writeSlot (s : State) (sl : Nat) (bytes : List Byte) : State :=
  s.writeShd (s.slotAddr sl 0) bytes

/-- `add_scaled(SHARD[sd], SHARD[ss], c, len)` in the shard memory (rules R71, R180). -/
def State.addScaledSlot (s : State) (sd ss : Nat) (c : Byte) (len : Nat) : State :=
  s.writeSlot sd (addScaled (s.slotBytes sd len) (s.slotBytes ss len) c)

/-- `SHLEN > LMAX`: a length no slot can hold (rules R30, R238). -/
def State.shlenTooLong (s : State) : Bool := s.lmax < s.shardLen

end Sys2Proof.Machine
end

