-- ==== Sys2Proof/Machine/Bus.lean ====
section
/-! DEFINITION. The host interface: the register map, the MAT and SHD maps, and taking the next host access (rules R33 to R37, R60 to R63, R91). -/

namespace Sys2Proof.Machine

/-- The `REG` offset of `CMDL` (rule R37). -/
def cmdlOffset : Nat := 0x004

/-- The index of an offset in a bank of eight registers from `base`, if it lies there (rule R37). -/
def bankIndex (base off : Nat) : Option MReg :=
  if h : base ≤ off ∧ off < base + 32 ∧ off % 4 = 0 then some ⟨(off - base) / 4, by omega⟩ else none

/-- What a read of the register at `off` returns; unmapped offsets and `CMDL` read 0, and no read changes anything (rule R37). -/
def State.readReg (s : State) (off : Nat) : Word :=
  if off = 0x000 then s.cmdh
  else if off = 0x008 then s.statusWord
  else if off = 0x00C then s.stickyWord
  else if off = 0x010 then s.errinfo0
  else if off = 0x014 then s.errinfo1
  else if off = 0x018 then s.res.setWidth 32
  else if off = 0x01C then s.shlen
  else if off = 0x020 then countWord s.k
  else if off = 0x024 then countWord s.m
  else if off = 0x028 then countWord s.n
  else
    match bankIndex 0x040 off with
    | some i => s.presentWord i.val
    | none =>
      match bankIndex 0x080 off with
      | some i => shapeWord (s.shape i)
      | none => 0

/-- The effect of writing `v` to a register other than `CMDL`; read-only and unmapped offsets ignore it (rule R37). -/
def State.writeReg (s : State) (off : Nat) (v : Word) : State :=
  if off = 0x000 then s.setCmdh v
  else if off = 0x00C then s.acknowledge v
  else if off = 0x01C then s.setShlen v
  else
    match bankIndex 0x040 off with
    | some i => s.setPresent (s.presentWith i.val v)
    | none =>
      match bankIndex 0x080 off with
      | some i => s.setShape i (shapeOf v)
      | none => s

/-- The effect of a host byte write in `MAT`: a write to the `GEN` part is ignored (rule R62). -/
def State.hostWriteMat (s : State) (off : Nat) (b : Byte) : State :=
  if off < Config.genBase then s.writeMat off [b] else s

/-- The size of the `SHD` space (rule R63). -/
def State.shdSize (s : State) : Nat := Config.nslot * s.lmax

/-- What one host access asks of the block. -/
inductive BusEvent where
  /-- No access is to come: the block is idle (rules R20, R271). -/
  | idle
  /-- A `CMDL` write issues the command word `I` in the state given (rule R91). -/
  | issue (I : Cmd) (s : State)
  /-- Any other access, with what comes of it. -/
  | done (r : Result)

/-- A register access is of the right shape, or why it stops (rule R61, U9). -/
def regStop (off : Nat) : Option Result :=
  if 0x100 ≤ off then some (.fault (.regOutside off))
  else if off % 4 ≠ 0 then some (.refused (.regMisaligned off))
  else none

/-- One host access (rules R37, R61 to R63, R70, R91). -/
def State.access (s : State) (a : HostAccess) : BusEvent :=
  match a with
  | .wrReg off v =>
    match regStop off with
    | some r => .done r
    | none => if off = cmdlOffset then .issue (cmdOf s.cmdh v) s else .done (.next (s.writeReg off v))
  | .rdReg off =>
    match regStop off with
    | some r => .done r
    | none => .done (.next (s.setReadData (.reg (s.readReg off))))
  | .wrMat off b =>
    if off < Config.matSize then .done (.next (s.hostWriteMat off b)) else .done (.fault (.matOutside off))
  | .rdMat off =>
    if off < Config.matSize then .done (.next (s.setReadData (.byte (s.matByte off))))
    else .done (.fault (.matOutside off))
  | .wrShd off b =>
    if off < s.shdSize then .done (.next (s.writeShd off [b])) else .done (.fault (.shdOutside off))
  | .rdShd off =>
    if off < s.shdSize then .done (.next (s.setReadData (.byte (s.shdByte off))))
    else .done (.fault (.shdOutside off))

/-- Takes the host's next access from the list and makes it (rules R22, R70; log entry 1). -/
def State.nextAccess (s : State) : BusEvent :=
  match s.host with
  | [] => .idle
  | a :: rest => (s.setHost rest).access a

/-- A word that decodes as no command ends at once with `ILLEGAL_COMMAND` and changes nothing else (rules R97, R236). -/
def raiseIllegal (I : Cmd) (s : State) : Result := raiseWord .illegalCommand I s

/-- The state in which the host has put `I[63:32]` in `CMDH` and is about to write `I[31:0]` to `CMDL` (rule R91). -/
def State.withCommand (s : State) (I : Cmd) : State :=
  (s.setCmdh (cmdHi I)).setHost (.wrReg cmdlOffset (cmdLo I) :: s.host)

end Sys2Proof.Machine
end

