-- ==== Sys2Proof/Machine/Coder.lean ====
section
/-! DEFINITION. The coder commands (rules R190 to R208). -/

namespace Sys2Proof.Machine

/-- INIT (rule R193): on a fault no coder state changes. -/
def execInit (k m : Nat) (s : State) : Result :=
  if k = 0 ∨ k + m > Config.nslot then raiseWord .badParam (encode (.init k m)) s
  else
    match buildGenerator k m with
    | .error r => raise .singularMatrix (BitVec.ofNat 32 r) (BitVec.ofNat 32 k) s
    | .ok G => complete ((s.setCoder k m).wrGen G)

/-- The accumulation of parity shard `j` from every data shard (rule R195). -/
def State.encodeRow (s : State) (j : Nat) : State :=
  forRange s.k.toNat
    (fun i t => t.addScaledSlot (s.k.toNat + j) i (s.genElem (s.k.toNat + j) i) s.shardLen) s

/-- The two loops of ENCODE (rule R195): parity shards in order, data shards in order; the parity slots accumulate (rule R196). -/
def State.encodeAll (s : State) : State := forRange s.m.toNat (fun j t => t.encodeRow j) s

/-- ENCODE (rule R195). -/
def execEncode (s : State) : Result :=
  if s.cfgv = false then raiseWord .notConfigured (encode .encode) s
  else if s.shlenTooLong = true then raiseWord .badParam (encode .encode) s
  else complete s.encodeAll

/-! ### RECON -/

/-- `missing`: the absent data slots, ascending (rule R200, step 1). -/
def State.missing (s : State) : List Nat := (List.range s.k.toNat).filter (fun i => !s.isPresent i)

/-- `present`: the present slots of `[0, N)`, ascending, so data before parity (rule R200, step 4; rule R202). -/
def State.presentSlots (s : State) : List Nat := (List.range s.n.toNat).filter (fun i => s.isPresent i)

/-- `chosen`: the first `K` present slots (rules R200, R202). -/
def State.chosen (s : State) : List Nat := s.presentSlots.take s.k.toNat

/-- `S`: the rows of the generator matrix of the chosen slots (rule R200, step 5). -/
def State.decodeSource (s : State) : Mat :=
  Mat.ofFn s.k.toNat s.k.toNat (fun q c => s.genElem (s.chosen.getD q 0) c)

/-- The recovered bytes of a missing shard from its coefficients: from zeros, accumulate the chosen shards (rule R200, steps 7, 8). -/
def State.recovered (s : State) (coeff : Nat → Byte) : List Byte :=
  forRange s.k.toNat
    (fun q out => addScaled out (s.slotBytes (s.chosen.getD q 0) s.shardLen) (coeff q))
    (List.replicate s.shardLen 0)

/-- Steps 6 to 9 of rule R200 with decode matrix `D`: every output is computed from the state before any is written
back; each recovered slot is marked present (rules R204 to R206). -/
def State.restore (s : State) (D : Mat) : State :=
  s.missing.foldl
    (fun t i => (t.writeSlot i (s.recovered (fun q => D.get i q))).markPresent i) s

/-- `numMissing + (m << 16)` (rules R200, R232). -/
def State.shardInfo0 (s : State) : Word := BitVec.ofNat 32 (s.missing.length + s.m.toNat <<< 16)

/-- `numPresent + (k << 16)` (rules R200, R232). -/
def State.shardInfo1 (s : State) : Word := BitVec.ofNat 32 (s.presentSlots.length + s.k.toNat <<< 16)

/-- RECON (rules R200 to R208). -/
def execRecon (s : State) : Result :=
  if s.cfgv = false then raiseWord .notConfigured (encode .recon) s
  else if s.shlenTooLong = true then raiseWord .badParam (encode .recon) s
  else if s.missing = [] then complete s
  else if s.missing.length > s.m.toNat then raise .insufficientShards s.shardInfo0 s.shardInfo1 s
  else if s.presentSlots.length < s.k.toNat then raise .insufficientShards s.shardInfo0 s.shardInfo1 s
  else
    match matInvert s.decodeSource with
    | .singular r _ => raise .singularMatrix (BitVec.ofNat 32 r) (BitVec.ofNat 32 s.k.toNat) s
    | .ok _ D => complete (s.restore D)

end Sys2Proof.Machine
end

