-- ==== Sys2Proof/Machine/Field.lean ====
section
/-! DEFINITION. The field commands (rules R130 to R134). -/

namespace Sys2Proof.Machine

/-- GFMUL (rule R130). -/
def execGfmul (a b : Byte) (s : State) : Result := complete (s.setRes (gfMul a b))

/-- GFPOW (rule R131). -/
def execGfpow (a : Byte) (n : Nat) (s : State) : Result := complete (s.setRes (gfPow a n))

/-- GFINV: `ZERO_OPERAND` when `a = 0`, and `RES` is then unchanged (rule R132). -/
def execGfinv (a : Byte) (s : State) : Result :=
  if a = 0 then raiseWord .zeroOperand (encode (.gfinv a)) s else complete (s.setRes (gfInv a))

/-- GFLOG: `ZERO_OPERAND` when `a = 0`, and `RES` is then unchanged (rule R134). -/
def execGflog (a : Byte) (s : State) : Result :=
  if a = 0 then raiseWord .zeroOperand (encode (.gflog a)) s else complete (s.setRes (logTab a))

/-- GFEXP (rule R133). -/
def execGfexp (i : Byte) (s : State) : Result := complete (s.setRes (expTab i.toNat))

end Sys2Proof.Machine
end

