-- ==== Sys2Proof/Machine/Linear.lean ====
section
/-! DEFINITION. The matrix commands (rules R155, R158 to R162). -/

namespace Sys2Proof.Machine

/-- VAND (rule R158). -/
def execVand (md : MReg) (rows cols : Nat) (s : State) : Result :=
  if rows > Config.dimMax ∨ cols > Config.dimMax then raiseWord .badParam (encode (.vand md rows cols)) s
  else complete (s.wrMat md (matVandermonde rows cols))

/-- The bounds test of SUBM against the counts of the source (rule R159). -/
def subBounds (A : Mat) (xmin ymin xmax ymax : Nat) : Bool :=
  xmin ≤ xmax && xmax ≤ A.cols && ymin ≤ ymax && ymax ≤ A.rows

/-- SUBM (rules R159, R160): the source is read whole before the destination is written. -/
def execSubm (md ms : MReg) (xmin ymin xmax ymax : Nat) (s : State) : Result :=
  if s.legal ms = false then raiseWord .badParam (encode (.subm md ms xmin ymin xmax ymax)) s
  else if subBounds (s.rdMat ms) xmin ymin xmax ymax = false then
    raiseWord .badParam (encode (.subm md ms xmin ymin xmax ymax)) s
  else complete (s.wrMat md (matSub (s.rdMat ms) xmin ymin xmax ymax))

/-- MINV (rule R161): the source register is overwritten on success and before `SINGULAR_MATRIX`. -/
def execMinv (md ms : MReg) (s : State) : Result :=
  if md = ms then raiseWord .badParam (encode (.minv md ms)) s
  else if s.legal ms = false then raiseWord .badParam (encode (.minv md ms)) s
  else if (s.shape ms).rows ≠ (s.shape ms).cols then raiseWord .badParam (encode (.minv md ms)) s
  else
    match matInvert (s.rdMat ms) with
    | .ok W R => complete ((s.wrMat ms W).wrMat md R)
    | .singular r W =>
      raise .singularMatrix (BitVec.ofNat 32 r) (BitVec.ofNat 32 (s.rdMat ms).rows) (s.wrMat ms W)

/-- MMUL (rules R160, R162). -/
def execMmul (md ma mb : MReg) (s : State) : Result :=
  if s.legal ma = false ∨ s.legal mb = false then raiseWord .badParam (encode (.mmul md ma mb)) s
  else if (s.rdMat ma).cols ≠ (s.rdMat mb).rows then
    raise .dimensionMismatch (BitVec.ofNat 32 (s.rdMat ma).cols) (BitVec.ofNat 32 (s.rdMat mb).rows) s
  else complete (s.wrMat md (matMul (s.rdMat ma) (s.rdMat mb)))

end Sys2Proof.Machine
end

