-- ==== Sys2Proof/Machine/Vector.lean ====
section
/-! DEFINITION. The vector command (rules R180 to R182). -/

namespace Sys2Proof.Machine

/-- ADDSV: any two slots, whatever `PRESENT` and the coder say (rules R181, R182). -/
def execAddsv (sd ss : Slot) (c : Byte) (s : State) : Result :=
  if s.shlenTooLong = true then raiseWord .badParam (encode (.addsv sd ss c)) s
  else complete (s.addScaledSlot sd.val ss.val c s.shardLen)

end Sys2Proof.Machine
end

