-- ==== Sys2Proof/Machine/Dispatch.lean ====
section
/-! DEFINITION. One arm per command: the dispatch from syntax to meanings (rule R95). -/

namespace Sys2Proof.Machine

def exec (i : Instr) (s : State) : Host.Outcome State Fault Refusal :=
  match i with
  | .gfmul a b => Sys2Proof.Machine.execGfmul a b s
  | .gfpow a n => Sys2Proof.Machine.execGfpow a n s
  | .gfinv a => Sys2Proof.Machine.execGfinv a s
  | .gflog a => Sys2Proof.Machine.execGflog a s
  | .gfexp j => Sys2Proof.Machine.execGfexp j s
  | .vand md rows cols => Sys2Proof.Machine.execVand md rows cols s
  | .subm md ms xmin ymin xmax ymax => Sys2Proof.Machine.execSubm md ms xmin ymin xmax ymax s
  | .minv md ms => Sys2Proof.Machine.execMinv md ms s
  | .mmul md ma mb => Sys2Proof.Machine.execMmul md ma mb s
  | .addsv sd ss c => Sys2Proof.Machine.execAddsv sd ss c s
  | .init k m => Sys2Proof.Machine.execInit k m s
  | .encode => Sys2Proof.Machine.execEncode s
  | .recon => Sys2Proof.Machine.execRecon s

end Sys2Proof.Machine
end

