-- ==== Sys2Proof/Machine/Step.lean ====
section
/-! DEFINITION. One step: the host's next access, and the command it issues when it is a `CMDL` write (rules R70, R91; log entry 1). -/

namespace Sys2Proof.Machine

/-- One step. With no host access to come the block is idle and nothing changes (rules R20, R271). -/
def step (s : State) : Host.Outcome State Fault Refusal :=
  match s.nextAccess with
  | .idle => .next s
  | .done r => r
  | .issue I t =>
    match decode I with
    | .ok i => exec i t
    | .error _ => raiseIllegal I t

/-- The state `s` with the command at `w` (the opcode table's numbering, bits from `nbits` up 0) as the next one the
step issues (rule R91; log entry 1). -/
def State.withFetchWord (s : State) (nbits w : Nat) : State :=
  s.withCommand (BitVec.ofNat 64 (w % 2 ^ nbits))

end Sys2Proof.Machine
end

