-- ==== Sys2Proof/Safety.lean ====
section
/-! DEFINITION. The terms in which claims are stated: the invariants, what two states share, the tables of faults, and reference forms of the arithmetic. -/

namespace Sys2Proof.Machine

/-! ### Invariants (rule R40) -/

/-- What every state keeps: rule R40 (a), (c), (d), the bounds of (b), and the model's own form of its data. -/
structure State.Inv (s : State) : Prop where
  /-- R40 (a). -/
  total : s.n.toNat = s.k.toNat + s.m.toNat
  /-- The bounds of R40 (b). -/
  configured : s.cfgv = true → 1 ≤ s.k.toNat ∧ s.n.toNat ≤ 256
  /-- R40 (c). -/
  unconfigured : s.cfgv = false → s.k = 0 ∧ s.m = 0 ∧ s.n = 0
  /-- R40 (d). -/
  errCode : s.err.toNat ≤ 8 ∧ s.err ≠ 4
  /-- Bit 0 and bits [31:9] of `ERRSTICKY` are 0 (rule R35). -/
  stickyBits : s.errsticky &&& ~~~stickyMask = 0
  /-- `MAT` is in canonical form. -/
  matForm : s.mat.wf
  /-- `SHD` is in canonical form. -/
  shdForm : s.shd.wf
  /-- Every listed offset of `MAT` exists (rule R62). -/
  matBound : ∀ c ∈ s.mat, c.1 < Config.matSize
  /-- Every listed offset of `SHD` exists (rule R63). -/
  shdBound : ∀ c ∈ s.shd, c.1 < s.shdSize
  /-- `LMAX` is at least 1 (rule R6). -/
  lmaxPos : 1 ≤ s.lmax

/-- The rest of R40 (b): with a coder constructed, the first `N × K` bytes of `GEN` are `build_generator(K, M)`. -/
def State.GenOk (s : State) : Prop :=
  s.cfgv = true →
    ∃ G, buildGenerator s.k.toNat s.m.toNat = .ok G ∧
      ∀ r c, r < s.n.toNat → c < s.k.toNat → s.genElem r c = G.get r c

/-! ### What two states share -/

/-- What only the host writes, and the parameter (rule R38; log entries 1, 3, 7). -/
structure SameHostSide (s t : State) : Prop where
  cmdh : t.cmdh = s.cmdh
  shlen : t.shlen = s.shlen
  lmax : t.lmax = s.lmax
  host : t.host = s.host
  readData : t.readData = s.readData

/-- The coder registers (rule R31). -/
structure SameCoder (s t : State) : Prop where
  cfgv : t.cfgv = s.cfgv
  k : t.k = s.k
  m : t.m = s.m
  n : t.n = s.n

/-- The record of earlier faults (rules R35, R36). -/
structure SameRecord (s t : State) : Prop where
  errsticky : t.errsticky = s.errsticky
  errinfo0 : t.errinfo0 = s.errinfo0
  errinfo1 : t.errinfo1 = s.errinfo1

/-- The counts of every matrix register outside a list. -/
def SameShapesBut (l : List MReg) (s t : State) : Prop := ∀ i, i ∉ l → t.shape i = s.shape i

/-- Every byte of `MAT` whose offset is not among those stored to reads as before. -/
def SameMatBut (stored : Nat → Prop) (s t : State) : Prop := ∀ a, ¬ stored a → t.matByte a = s.matByte a

/-- Every byte of `SHD` whose offset is not among those stored to reads as before. -/
def SameShdBut (stored : Nat → Prop) (s t : State) : Prop := ∀ a, ¬ stored a → t.shdByte a = s.shdByte a

/-- Offset `a` is one of the `len` offsets from `base`. -/
def InRun (base len a : Nat) : Prop := base ≤ a ∧ a < base + len

/-- Offset `a` is none. -/
def Nowhere (_ : Nat) : Prop := False

/-- The state with fault code `c` recorded: what fault entry does, field by field (rule R240). -/
def State.faulted (s : State) (c : Nat) (info0 info1 : Word) : State :=
  { s with
    err := BitVec.ofNat 4 c
    errsticky := s.errsticky ||| BitVec.ofNat 32 (2 ^ c)
    errinfo0 := info0
    errinfo1 := info1
    pc := s.pc + 1 }

/-! ### Kinds of commands and their faults -/

/-- The field commands (rule R38, the writers of `RES`). -/
def isField : Instr → Bool
  | .gfmul _ _ => true
  | .gfpow _ _ => true
  | .gfinv _ => true
  | .gflog _ => true
  | .gfexp _ => true
  | .vand _ _ _ => false
  | .subm _ _ _ _ _ _ => false
  | .minv _ _ => false
  | .mmul _ _ _ => false
  | .addsv _ _ _ => false
  | .init _ _ => false
  | .encode => false
  | .recon => false

/-- The matrix commands (rule R38, the writers of the matrix registers). -/
def isMatrix : Instr → Bool
  | .gfmul _ _ => false
  | .gfpow _ _ => false
  | .gfinv _ => false
  | .gflog _ => false
  | .gfexp _ => false
  | .vand _ _ _ => true
  | .subm _ _ _ _ _ _ => true
  | .minv _ _ => true
  | .mmul _ _ _ => true
  | .addsv _ _ _ => false
  | .init _ _ => false
  | .encode => false
  | .recon => false

/-- The commands that write the shard memory (rule R38). -/
def isShardWriter : Instr → Bool
  | .gfmul _ _ => false
  | .gfpow _ _ => false
  | .gfinv _ => false
  | .gflog _ => false
  | .gfexp _ => false
  | .vand _ _ _ => false
  | .subm _ _ _ _ _ _ => false
  | .minv _ _ => false
  | .mmul _ _ _ => false
  | .addsv _ _ _ => true
  | .init _ _ => false
  | .encode => true
  | .recon => true

/-- The fault codes a command can raise, as rule R242 lists them. -/
def faultsOf : Instr → List Nat
  | .gfmul _ _ => []
  | .gfpow _ _ => []
  | .gfinv _ => [7]
  | .gflog _ => [7]
  | .gfexp _ => []
  | .vand _ _ _ => [6]
  | .subm _ _ _ _ _ _ => [6]
  | .minv _ _ => [6, 2]
  | .mmul _ _ _ => [6, 3]
  | .addsv _ _ _ => [6]
  | .init _ _ => [6, 2]
  | .encode => [8, 6]
  | .recon => [8, 6, 1, 2]

/-! ### Reference forms -/

/-- Multiplication by `x` modulo x^8+x^4+x^3+x^2+1: a left shift, bit 8 folded back with 0x1D (rules R120, R122). -/
def timesX (a : Byte) : Byte := (a <<< 1) ^^^ (if a.getLsbD 7 then 0x1D else 0)

/-- The product of two bytes as polynomials modulo x^8+x^4+x^3+x^2+1: the sum of `x^i · a` over the set bits `i` of `b`
(rule R129 (d)). -/
def polyMul (a b : Byte) : Byte := gfSum 8 (fun i => if b.getLsbD i then timesX^[i] a else 0)

/-- How many data slots are absent (rule R200, step 1). -/
def State.numMissing (s : State) : Nat := (List.range s.k.toNat).countP (fun i => !s.isPresent i)

/-- How many slots of `[0, N)` are present (rule R200). -/
def State.numPresent (s : State) : Nat := (List.range s.n.toNat).countP (fun i => s.isPresent i)

/-- The host's next access issues the word `{CMDH, v}` (rule R91). -/
def State.Issues (s : State) (v : Word) (rest : List HostAccess) : Prop := s.host = .wrReg 0x004 v :: rest

/-! ### A safe run -/

/-- A step that does not stop the machine. -/
def State.StepsOn (s : State) : Prop := ∃ t, step s = .next t

/-- The host keeps to the accesses the interface offers (rules R61 to R63, U9). -/
def HostAccess.Offered (lmax : Nat) : HostAccess → Prop
  | .wrReg off _ => off < 0x100 ∧ off % 4 = 0
  | .rdReg off => off < 0x100 ∧ off % 4 = 0
  | .wrMat off _ => off < 0x90000
  | .rdMat off => off < 0x90000
  | .wrShd off _ => off < 256 * lmax
  | .rdShd off => off < 256 * lmax

end Sys2Proof.Machine
end

