-- ==== Sys2Proof/Certificates/Slice0/Obligations.lean ====
section
/-! DEFINITION. The statements for the provers, in the order of the spec's files. -/

open Sys2Proof Sys2Proof.Machine

/-! ### Encoding -/

/-- Rule R104, all sixteen rows: the word of each command, its decoding, and the two register values that issue it. -/
def Obligations.EncodingExamplesDecode : Prop :=
  ∀ row ∈ ([
      (.gfmul 0x02 0x80, 0x0000000000800210, 0x00000000, 0x00800210),
      (.gfpow 0x02 8, 0x0000000800000211, 0x00000008, 0x00000211),
      (.gfinv 0x02, 0x0000000000000212, 0x00000000, 0x00000212),
      (.gflog 0x1D, 0x0000000000001D13, 0x00000000, 0x00001D13),
      (.gfexp 255, 0x000000000000FF14, 0x00000000, 0x0000FF14),
      (.vand 0 5 3, 0x00000003000A0020, 0x00000003, 0x000A0020),
      (.subm 1 0 0 0 3 3, 0x000C060000000121, 0x000C0600, 0x00000121),
      (.subm 4 3 0 3 3 5, 0x0014060300001C21, 0x00140603, 0x00001C21),
      (.minv 2 1, 0x0000000000000A22, 0x00000000, 0x00000A22),
      (.mmul 3 0 2, 0x0000000000008323, 0x00000000, 0x00008323),
      (.addsv 4 2 0x06, 0x0000000006020430, 0x00000000, 0x06020430),
      (.init 3 2, 0x0000000200060040, 0x00000002, 0x00060040),
      (.init 256 0, 0x0000000002000040, 0x00000000, 0x02000040),
      (.encode, 0x0000000000000041, 0x00000000, 0x00000041),
      (.recon, 0x0000000000000042, 0x00000000, 0x00000042),
      (.vand 7 256 256, 0x0000010002000720, 0x00000100, 0x02000720)] : List (Instr × Cmd × Word × Word)),
    encode row.1 = row.2.1 ∧ decode row.2.1 = .ok row.1 ∧ cmdHi row.2.1 = row.2.2.1 ∧ cmdLo row.2.1 = row.2.2.2

/-- Rules R92, R93, R95: every operand of every command, at every value its field admits, survives encoding and decoding. -/
def Obligations.DecodeOfEncode : Prop :=
  ∀ i : Instr, i.WellFormed = true → decode (encode i) = .ok i

/-- Rules R96, R97: a word that decodes is exactly the word of the command it decodes to, which is well formed. -/
def Obligations.EncodeOfDecode : Prop :=
  ∀ (I : Cmd) (i : Instr), decode I = .ok i → encode i = I ∧ i.WellFormed = true

/-- Rule R96: a word is a command exactly when its bits under the command's mask are the command's match; the thirteen
patterns are pairwise disjoint. -/
def Obligations.DecodeFollowsMatchAndMask : Prop :=
  ∀ I : Cmd,
    ((∃ a b, decode I = .ok (.gfmul a b)) ↔ I &&& 0xFFFFFFFFFF0000FF = 0x0000000000000010) ∧
    ((∃ a n, decode I = .ok (.gfpow a n)) ↔ I &&& 0x00000000FFFF00FF = 0x0000000000000011) ∧
    ((∃ a, decode I = .ok (.gfinv a)) ↔ I &&& 0xFFFFFFFFFFFF00FF = 0x0000000000000012) ∧
    ((∃ a, decode I = .ok (.gflog a)) ↔ I &&& 0xFFFFFFFFFFFF00FF = 0x0000000000000013) ∧
    ((∃ j, decode I = .ok (.gfexp j)) ↔ I &&& 0xFFFFFFFFFFFF00FF = 0x0000000000000014) ∧
    ((∃ md r c, decode I = .ok (.vand md r c)) ↔ I &&& 0xFFFFFE00FC01F8FF = 0x0000000000000020) ∧
    ((∃ md ms x y u v, decode I = .ok (.subm md ms x y u v)) ↔ I &&& 0xF8000000FC01C0FF = 0x0000000000000021) ∧
    ((∃ md ms, decode I = .ok (.minv md ms)) ↔ I &&& 0xFFFFFFFFFFFFC0FF = 0x0000000000000022) ∧
    ((∃ md ma mb, decode I = .ok (.mmul md ma mb)) ↔ I &&& 0xFFFFFFFFFFFE00FF = 0x0000000000000023) ∧
    ((∃ sd ss c, decode I = .ok (.addsv sd ss c)) ↔ I &&& 0xFFFFFFFF000000FF = 0x0000000000000030) ∧
    ((∃ k m, decode I = .ok (.init k m)) ↔ I &&& 0xFFFFFE00FC01FFFF = 0x0000000000000040) ∧
    (decode I = .ok .encode ↔ I &&& 0xFFFFFFFFFFFFFFFF = 0x0000000000000041) ∧
    (decode I = .ok .recon ↔ I &&& 0xFFFFFFFFFFFFFFFF = 0x0000000000000042) ∧
    ∀ r₁ ∈ opRows, ∀ r₂ ∈ opRows, r₁.matches I = true → r₂.matches I = true → r₁ = r₂

/-- Rule R91: when the host's next access writes `v` to `CMDL` and `{CMDH, v}` decodes to `i`, a step is `exec` of `i`
at the state with that access taken off the host's list; and a word placed by `withFetchWord` is the one issued. -/
def Obligations.StepRunsDecodedCommand : Prop :=
  (∀ (s : State) (v : Word) (rest : List HostAccess) (i : Instr), s.Issues v rest →
    decode (cmdOf s.cmdh v) = .ok i → step s = exec i (s.setHost rest)) ∧
  (∀ (s : State) (I : Cmd) (i : Instr), decode I = .ok i →
    step (s.withFetchWord 64 I.toNat) = exec i ((s.setCmdh (cmdHi I)).setHost s.host))

/-- Rules R97, R231, R232, R236, R240: a word that matches none of the thirteen patterns ends at once with
`ILLEGAL_COMMAND`, the two halves of the word recorded and no other state of the block changed. The model's pc advances
over such a word as over a command: its own reading of rule R22 (log entry 8). -/
def Obligations.IllegalWordFaults : Prop :=
  ∀ (s : State) (v : Word) (rest : List HostAccess), s.Issues v rest →
    (∀ r ∈ opRows, cmdOf s.cmdh v &&& r.mask ≠ r.pattern) →
    step s = .next ((s.setHost rest).faulted 5 v s.cmdh)

/-! ### The field unit -/

/-- Rule R126 in the command of rule R130: 0 if either operand is 0, else the `EXP` entry at the sum of the logarithms
mod 255; nothing but `RES`, `STATUS.ERR` and the model's pc changes. And rule R129 (d): that value is the product of the
two bytes as polynomials over GF(2) modulo x^8+x^4+x^3+x^2+1. -/
def Obligations.GfmulMultiplies : Prop :=
  ∀ (a b : Byte) (s : State),
    let product := if a = 0 ∨ b = 0 then 0 else expTab (((logTab a).toNat + (logTab b).toNat) % 255)
    exec (.gfmul a b) s = .next { s with res := product, err := 0, pc := s.pc + 1 } ∧ product = polyMul a b

/-- Rule R129 (c): `gf_mul` is commutative and associative, distributes over `gf_add`, has identity 1 and absorbing 0. -/
def Obligations.FieldMultiplicationLaws : Prop :=
  ∀ a b c : Byte,
    gfMul a b = gfMul b a ∧ gfMul (gfMul a b) c = gfMul a (gfMul b c) ∧
    gfMul a (gfAdd b c) = gfAdd (gfMul a b) (gfMul a c) ∧ gfMul a 1 = a ∧ gfMul a 0 = 0

/-- Rules R122, R125: the tables are the ones the construction builds: they invert each other, `EXP` starts at 1 and
each entry is the one before multiplied by `x`, and `EXP[255] = EXP[0]`. -/
def Obligations.FieldTablesInvert : Prop :=
  (∀ x : Byte, x ≠ 0 → expTab (logTab x).toNat = x ∧ (logTab x).toNat < 255) ∧
  (∀ i, i < 256 → expTab i ≠ 0 ∧ (logTab (expTab i)).toNat = i % 255) ∧
  expTab 0 = 1 ∧ expTab 255 = 1 ∧ logTab 2 = 1 ∧ ∀ i, i < 255 → expTab (i + 1) = timesX (expTab i)

/-- Rule R127 in the command of rule R131, for every natural exponent: 1 if `n = 0`, 0 if `a = 0` and `n ≠ 0`, else by
logarithms with the exact product. And rule R129 (b), (e): that value is `a` multiplied by itself `n` times; for `a ≠ 0`
the 255th power is 1 and the 254th the inverse. -/
def Obligations.GfpowRaises : Prop :=
  ∀ (a : Byte) (n : Nat) (s : State),
    let power := if n = 0 then 1 else if a = 0 then 0 else expTab (((logTab a).toNat * n) % 255)
    exec (.gfpow a n) s = .next { s with res := power, err := 0, pc := s.pc + 1 } ∧
    power = (gfMul a)^[n] 1 ∧ (a ≠ 0 → gfPow a 255 = 1 ∧ gfPow a 254 = gfInv a)

/-- Rules R128, R132: GFINV of a nonzero byte ends with `EXP[255 - LOG[a]]`, whose product with `a` is 1; of zero it
raises `ZERO_OPERAND` and changes nothing else. -/
def Obligations.GfinvInverts : Prop :=
  ∀ (a : Byte) (s : State),
    (a ≠ 0 →
      exec (.gfinv a) s = .next { s with res := expTab (255 - (logTab a).toNat), err := 0, pc := s.pc + 1 } ∧
      gfMul a (expTab (255 - (logTab a).toNat)) = 1) ∧
    (a = 0 → exec (.gfinv a) s = .next (s.faulted 7 0x00000012 0x00000000))

/-- Rule R134: GFLOG of a nonzero byte ends with its logarithm, a value 0 to 254 at which `EXP` gives the byte back; of
zero it raises `ZERO_OPERAND` and changes nothing else. -/
def Obligations.GflogReadsTable : Prop :=
  ∀ (a : Byte) (s : State),
    (a ≠ 0 → ∃ l : Byte, exec (.gflog a) s = .next { s with res := l, err := 0, pc := s.pc + 1 } ∧
      l.toNat < 255 ∧ expTab l.toNat = a) ∧
    (a = 0 → exec (.gflog a) s = .next (s.faulted 7 0x00000013 0x00000000))

/-- Rule R133: GFEXP ends with the table entry, which is `2^i` in the field and never 0; index 255 gives what index 0 gives. -/
def Obligations.GfexpReadsTable : Prop :=
  ∀ (i : Byte) (s : State),
    exec (.gfexp i) s = .next { s with res := (gfMul 2)^[i.toNat] 1, err := 0, pc := s.pc + 1 } ∧
    (gfMul 2)^[i.toNat] 1 ≠ 0 ∧ expTab i.toNat = (gfMul 2)^[i.toNat] 1 ∧ expTab 255 = expTab 0

/-! ### Linear algebra -/

/-- Rules R151, R158: VAND within the bounds ends with the counts and, at `r × cols + c`, the element `gf_pow(r, c)`;
every other byte of `MAT` is as before. Outside them it raises `BAD_PARAM` and changes nothing else. -/
def Obligations.VandBuildsVandermonde : Prop :=
  ∀ (md : MReg) (rows cols : Nat) (s : State),
    (rows ≤ 256 → cols ≤ 256 → ∃ t, exec (.vand md rows cols) s = .next t ∧
      t.err = 0 ∧ t.pc = s.pc + 1 ∧
      (t.shape md).rows.toNat = rows ∧ (t.shape md).cols.toNat = cols ∧
      (∀ r c, r < rows → c < cols → t.bufByte md (r * cols + c) = gfPow (BitVec.ofNat 8 r) c) ∧
      SameMatBut (InRun (bufAddr md 0) (rows * cols)) s t) ∧
    (rows > 256 ∨ cols > 256 → exec (.vand md rows cols) s =
      .next (s.faulted 6 (cmdLo (encode (.vand md rows cols))) (cmdHi (encode (.vand md rows cols)))))

/-- Rules R152, R159, R160: SUBM inside the bounds of a legal source ends with the region of the source as it was before
the command, whatever the destination register; every other byte of `MAT` is as before. Otherwise it raises `BAD_PARAM`
and changes nothing else. -/
def Obligations.SubmCopiesRegion : Prop :=
  ∀ (md ms : MReg) (xmin ymin xmax ymax : Nat) (s : State),
    let rows := (s.shape ms).rows.toNat
    let cols := (s.shape ms).cols.toNat
    let inside := rows ≤ 256 ∧ cols ≤ 256 ∧ xmin ≤ xmax ∧ xmax ≤ cols ∧ ymin ≤ ymax ∧ ymax ≤ rows
    (inside → ∃ t, exec (.subm md ms xmin ymin xmax ymax) s = .next t ∧
      t.err = 0 ∧ t.pc = s.pc + 1 ∧
      (t.shape md).rows.toNat = ymax - ymin ∧ (t.shape md).cols.toNat = xmax - xmin ∧
      (∀ r c, r < ymax - ymin → c < xmax - xmin →
        t.bufByte md (r * (xmax - xmin) + c) = s.bufByte ms ((ymin + r) * cols + (xmin + c))) ∧
      SameMatBut (InRun (bufAddr md 0) ((ymax - ymin) * (xmax - xmin))) s t) ∧
    (¬ inside → exec (.subm md ms xmin ymin xmax ymax) s =
      .next (s.faulted 6 (cmdLo (encode (.subm md ms xmin ymin xmax ymax)))
        (cmdHi (encode (.subm md ms xmin ymin xmax ymax)))))

/-- Rule R154: `mat_invert` returns `Ok` exactly on invertible matrices, with the identity and a two-sided inverse, and
the inverse inverts back; else it returns `Singular` with the partly reduced matrix as described. -/
def Obligations.MatInvertCorrect : Prop :=
  ∀ (size : Nat) (f : Nat → Nat → Byte),
    let A := Mat.ofFn size size f
    (∀ W R, matInvert A = .ok W R → W = matIdentity size ∧ matMul A R = matIdentity size ∧
      matMul R A = matIdentity size ∧ ∃ W', matInvert R = .ok W' A) ∧
    (∀ r W, matInvert A = .singular r W → r < size ∧
      (∀ B : Mat, B.rows = size → B.cols = size → matMul A B ≠ matIdentity size) ∧
      (∀ j c, j < size → c < r → W.get j c = if j = c then 1 else 0) ∧
      (∀ j, r ≤ j → j < size → W.get j r = 0)) ∧
    ((∃ B : Mat, B.rows = size ∧ B.cols = size ∧ matMul A B = matIdentity size) → ∃ W R, matInvert A = .ok W R)

/-- Rules R154, R161: MINV of a legal square source that holds an invertible matrix, into another register, ends with
the source holding the identity and the destination its two-sided inverse. -/
def Obligations.MinvInverts : Prop :=
  ∀ (md ms : MReg) (s : State) (B : Mat), md ≠ ms →
    (s.shape ms).rows.toNat ≤ 256 → (s.shape ms).cols = (s.shape ms).rows →
    B.rows = (s.shape ms).rows.toNat → B.cols = (s.shape ms).rows.toNat →
    matMul (s.rdMat ms) B = matIdentity (s.shape ms).rows.toNat →
    ∃ t, exec (.minv md ms) s = .next t ∧ t.err = 0 ∧ t.pc = s.pc + 1 ∧
      t.rdMat ms = matIdentity (s.shape ms).rows.toNat ∧
      matMul (s.rdMat ms) (t.rdMat md) = matIdentity (s.shape ms).rows.toNat ∧
      matMul (t.rdMat md) (s.rdMat ms) = matIdentity (s.shape ms).rows.toNat

/-- Rules R155, R161: the three `BAD_PARAM` tests of MINV change nothing else; on a singular source the fault records the
pivot and the size, the source register holds the partly reduced matrix, the destination is unchanged. -/
def Obligations.MinvFaults : Prop :=
  ∀ (md ms : MReg) (s : State),
    let rows := (s.shape ms).rows.toNat
    let cols := (s.shape ms).cols.toNat
    (md = ms ∨ rows > 256 ∨ cols > 256 ∨ rows ≠ cols → exec (.minv md ms) s =
      .next (s.faulted 6 (cmdLo (encode (.minv md ms))) (cmdHi (encode (.minv md ms))))) ∧
    (∀ r W, md ≠ ms → rows ≤ 256 → cols = rows → matInvert (s.rdMat ms) = .singular r W →
      ∃ t, exec (.minv md ms) s = .next t ∧ t.err = 2 ∧ t.pc = s.pc + 1 ∧
        t.errsticky = s.errsticky ||| 0x4 ∧
        t.errinfo0 = BitVec.ofNat 32 r ∧ t.errinfo1 = BitVec.ofNat 32 rows ∧
        t.shape ms = s.shape ms ∧ (∀ j c, j < rows → c < rows → t.bufByte ms (j * rows + c) = W.get j c) ∧
        t.shape md = s.shape md ∧ ∀ o, o < 65536 → t.bufByte md o = s.bufByte md o)

/-- Rules R156, R160, R162: MMUL of legal registers with matching counts ends with the product of the sources as they
were before the command; every other byte of `MAT` is as before. An illegal shape raises `BAD_PARAM`, then counts that
do not match raise `DIMENSION_MISMATCH`, and nothing else changes. -/
def Obligations.MmulMultiplies : Prop :=
  ∀ (md ma mb : MReg) (s : State),
    let ar := (s.shape ma).rows.toNat
    let ac := (s.shape ma).cols.toNat
    let br := (s.shape mb).rows.toNat
    let bc := (s.shape mb).cols.toNat
    let legal := ar ≤ 256 ∧ ac ≤ 256 ∧ br ≤ 256 ∧ bc ≤ 256
    (legal → ac = br → ∃ t, exec (.mmul md ma mb) s = .next t ∧ t.err = 0 ∧ t.pc = s.pc + 1 ∧
      (t.shape md).rows.toNat = ar ∧ (t.shape md).cols.toNat = bc ∧
      (∀ r c, r < ar → c < bc → t.bufByte md (r * bc + c) =
        gfSum ac (fun u => gfMul (s.bufByte ma (r * ac + u)) (s.bufByte mb (u * bc + c)))) ∧
      SameMatBut (InRun (bufAddr md 0) (ar * bc)) s t) ∧
    (¬ legal → exec (.mmul md ma mb) s =
      .next (s.faulted 6 (cmdLo (encode (.mmul md ma mb))) (cmdHi (encode (.mmul md ma mb))))) ∧
    (legal → ac ≠ br → exec (.mmul md ma mb) s =
      .next (s.faulted 3 (BitVec.ofNat 32 ac) (BitVec.ofNat 32 br)))

/-! ### The vector operation -/

/-- Rules R180, R181: ADDSV with `SHLEN ≤ LMAX` ends with each of the first `SHLEN` bytes of the destination slot XORed
with the scaled source byte and every other byte of `SHD` as before; a longer `SHLEN` raises `BAD_PARAM` and changes
nothing else. -/
def Obligations.AddsvAccumulates : Prop :=
  ∀ (sd ss : Slot) (c : Byte) (s : State),
    (s.shlen.toNat ≤ s.lmax → ∃ t, exec (.addsv sd ss c) s = .next t ∧ t.err = 0 ∧ t.pc = s.pc + 1 ∧
      (∀ b, b < s.shlen.toNat →
        t.slotByte sd.val b = gfAdd (s.slotByte sd.val b) (gfMul c (s.slotByte ss.val b))) ∧
      SameShdBut (InRun (s.slotAddr sd.val 0) s.shlen.toNat) s t) ∧
    (s.lmax < s.shlen.toNat → exec (.addsv sd ss c) s =
      .next (s.faulted 6 (cmdLo (encode (.addsv sd ss c))) (cmdHi (encode (.addsv sd ss c)))))

/-- Rule R182: ADDSV of a slot to itself multiplies each byte by `c ^ 1`; with `c = 1` the bytes become 0, with `c = 0`
they stay. -/
def Obligations.AddsvToItself : Prop :=
  ∀ (sl : Slot) (c : Byte) (s : State), s.shlen.toNat ≤ s.lmax →
    ∃ t, exec (.addsv sl sl c) s = .next t ∧ t.err = 0 ∧
      ∀ b, b < s.shlen.toNat →
        t.slotByte sl.val b = gfAdd (s.slotByte sl.val b) (gfMul c (s.slotByte sl.val b)) ∧
        t.slotByte sl.val b = gfMul (c ^^^ 1) (s.slotByte sl.val b) ∧
        (c = 1 → t.slotByte sl.val b = 0) ∧ (c = 0 → t.slotByte sl.val b = s.slotByte sl.val b)

/-! ### The coder -/

/-- Rules R191, R193: INIT with `k ≥ 1` and `k + m ≤ 256` always succeeds: it ends with `K`, `M`, `N`, `CFGV` set and
`GEN` holding `build_generator(k, m)`, every other byte of `MAT` as before; that this holds of the bytes of `GEN` beyond
them too, which rule R32 calls unspecified, is the model's choice (log entry 17). -/
def Obligations.InitConstructsCoder : Prop :=
  ∀ (k m : Nat) (s : State), 1 ≤ k → k + m ≤ 256 →
    ∃ t G, buildGenerator k m = .ok G ∧ exec (.init k m) s = .next t ∧ t.err = 0 ∧ t.pc = s.pc + 1 ∧
      t.cfgv = true ∧ t.k.toNat = k ∧ t.m.toNat = m ∧ t.n.toNat = k + m ∧
      (∀ r c, r < k + m → c < k → t.genByte (r * k + c) = G.get r c) ∧
      SameMatBut (InRun 0x80000 ((k + m) * k)) s t

/-- Rule R193: INIT with `k = 0` or `k + m > 256` raises `BAD_PARAM`; the coder and everything else stay. -/
def Obligations.InitRejectsParameters : Prop :=
  ∀ (k m : Nat) (s : State), k = 0 ∨ k + m > 256 →
    exec (.init k m) s = .next (s.faulted 6 (cmdLo (encode (.init k m))) (cmdHi (encode (.init k m))))

/-- Rule R194 (a): the first `k` rows of the generator matrix are the identity. -/
def Obligations.GeneratorIsSystematic : Prop :=
  ∀ (k m : Nat) (G : Mat), 1 ≤ k → k + m ≤ 256 → buildGenerator k m = .ok G →
    G.rows = k + m ∧ G.cols = k ∧ ∀ r c, r < k → c < k → G.get r c = if r = c then 1 else 0

/-- Rule R194 (b): every set of `k` distinct rows of the generator matrix is an invertible matrix. -/
def Obligations.GeneratorRowsInvertible : Prop :=
  ∀ (k m : Nat) (G : Mat) (pick : Nat → Nat), 1 ≤ k → k + m ≤ 256 → buildGenerator k m = .ok G →
    (∀ q, q < k → pick q < k + m) → (∀ p q, p < k → q < k → pick p = pick q → p = q) →
    ∃ W D, matInvert (Mat.ofFn k k (fun q c => G.get (pick q) c)) = .ok W D

/-- Rule R194 (c): a row of the generator matrix does not depend on the number of parity shards. -/
def Obligations.GeneratorRowsStable : Prop :=
  ∀ (k m m' : Nat) (G G' : Mat), 1 ≤ k → k + m ≤ 256 → k + m' ≤ 256 →
    buildGenerator k m = .ok G → buildGenerator k m' = .ok G' →
    ∀ r c, r < k + min m m' → c < k → G.get r c = G'.get r c

/-- Rule R195: ENCODE on a constructed coder with `SHLEN ≤ LMAX` ends with each parity byte XORed with the sum of the
scaled data bytes at its index; every other byte of every slot is as before. -/
def Obligations.EncodeAccumulatesParity : Prop :=
  ∀ s : State, s.cfgv = true → s.shlen.toNat ≤ s.lmax →
    ∃ t, exec .encode s = .next t ∧ t.err = 0 ∧ t.pc = s.pc + 1 ∧
      (∀ j b, j < s.m.toNat → b < s.shlen.toNat →
        t.slotByte (s.k.toNat + j) b = gfAdd (s.slotByte (s.k.toNat + j) b)
          (gfSum s.k.toNat (fun i => gfMul (s.genElem (s.k.toNat + j) i) (s.slotByte i b)))) ∧
      SameShdBut (fun a => ∃ j, j < s.m.toNat ∧ InRun (s.slotAddr (s.k.toNat + j) 0) s.shlen.toNat a) s t

/-- Rule R196: ENCODE accumulates: each parity byte ends as its old value XOR the parity, hence as the parity if it was
zero, and a second ENCODE on the same data returns the parity slots to their first contents. -/
def Obligations.EncodeTwiceCancels : Prop :=
  ∀ s t : State, s.cfgv = true → s.shlen.toNat ≤ s.lmax → exec .encode s = .next t →
    let parity := fun j b => gfSum s.k.toNat (fun i => gfMul (s.genElem (s.k.toNat + j) i) (s.slotByte i b))
    (∀ j b, j < s.m.toNat → b < s.shlen.toNat →
      t.slotByte (s.k.toNat + j) b = s.slotByte (s.k.toNat + j) b ^^^ parity j b ∧
      (s.slotByte (s.k.toNat + j) b = 0 → t.slotByte (s.k.toNat + j) b = parity j b)) ∧
    ∃ u, exec .encode t = .next u ∧ u.err = 0 ∧
      ∀ j b, j < s.m.toNat → b < s.shlen.toNat →
        u.slotByte (s.k.toNat + j) b = s.slotByte (s.k.toNat + j) b

/-- Rules R239, R241: ENCODE and RECON without a constructed coder raise `NOT_CONFIGURED`, and with one and `SHLEN > LMAX`
`BAD_PARAM`; nothing else changes. -/
def Obligations.CoderGuards : Prop :=
  ∀ s : State,
    (s.cfgv = false → exec .encode s = .next (s.faulted 8 0x41 0) ∧ exec .recon s = .next (s.faulted 8 0x42 0)) ∧
    (s.cfgv = true → s.lmax < s.shlen.toNat →
      exec .encode s = .next (s.faulted 6 0x41 0) ∧ exec .recon s = .next (s.faulted 6 0x42 0))

/-- Rule R201: with no data slot absent RECON is a no-op, whatever the parity bits say. -/
def Obligations.ReconNothingMissing : Prop :=
  ∀ s : State, s.cfgv = true → s.shlen.toNat ≤ s.lmax → (∀ i, i < s.k.toNat → s.isPresent i = true) →
    exec .recon s = .next { s with err := 0, pc := s.pc + 1 }

/-- Rules R203, R233: RECON with a data slot absent and either more absent than there are parity shards, or fewer than
`K` slots present, raises `INSUFFICIENT_SHARDS` with the four counts recorded, and nothing else changes; no other RECON
raises it, none with no data slot absent among them. -/
def Obligations.ReconInsufficientShards : Prop :=
  ∀ s : State,
    (s.cfgv = true → s.shlen.toNat ≤ s.lmax → 1 ≤ s.numMissing →
      (s.m.toNat < s.numMissing ∨ s.numPresent < s.k.toNat) →
      exec .recon s = .next (s.faulted 1 (BitVec.ofNat 32 (s.numMissing + s.m.toNat * 65536))
        (BitVec.ofNat 32 (s.numPresent + s.k.toNat * 65536)))) ∧
    ∀ t, exec .recon s = .next t → t.err = 1 →
      1 ≤ s.numMissing ∧ (s.m.toNat < s.numMissing ∨ s.numPresent < s.k.toNat)

/-- Rules R200, R202, R204 to R206: when the rows of `GEN` of the first `K` present slots invert to `D`, RECON ends with
each missing data slot holding the combination of those slots by its row of `D` and marked present; every other byte of
every slot and every other `PRESENT` bit are as before. -/
def Obligations.ReconRecovers : Prop :=
  ∀ (s : State) (W D : Mat), s.Inv → s.cfgv = true → s.shlen.toNat ≤ s.lmax → 1 ≤ s.numMissing →
    s.numMissing ≤ s.m.toNat → s.k.toNat ≤ s.numPresent →
    let chosen := fun q => (((List.range s.n.toNat).filter (fun i => s.isPresent i)).take s.k.toNat).getD q 0
    let missing := fun i => i < s.k.toNat ∧ s.isPresent i = false
    matInvert (Mat.ofFn s.k.toNat s.k.toNat (fun q c => s.genElem (chosen q) c)) = .ok W D →
    ∃ t, exec .recon s = .next t ∧ t.err = 0 ∧ t.pc = s.pc + 1 ∧
      (∀ i b, missing i → b < s.shlen.toNat →
        t.slotByte i b = gfSum s.k.toNat (fun q => gfMul (D.get i q) (s.slotByte (chosen q) b))) ∧
      SameShdBut (fun a => ∃ i, missing i ∧ InRun (s.slotAddr i 0) s.shlen.toNat a) s t ∧
      (∀ i, missing i → t.isPresent i = true) ∧ (∀ i, ¬ missing i → t.isPresent i = s.isPresent i)

/-- Rule R209, the central correctness law: encode into zeroed parity slots, then mark any set of at most `M` slots
absent and overwrite them with anything; RECON ends normally with every data byte as it was before ENCODE. -/
def Obligations.ReconRestoresData : Prop :=
  ∀ s e u : State, s.Inv → s.GenOk → s.cfgv = true → s.shlen.toNat ≤ s.lmax →
    (∀ j b, j < s.m.toNat → b < s.shlen.toNat → s.slotByte (s.k.toNat + j) b = 0) →
    exec .encode s = .next e →
    u.cfgv = e.cfgv → u.k = e.k → u.m = e.m → u.n = e.n → u.shlen = e.shlen → u.lmax = e.lmax →
    (∀ o, u.genByte o = e.genByte o) →
    (∀ sl b, sl < e.n.toNat → u.isPresent sl = true → b < e.shlen.toNat → u.slotByte sl b = e.slotByte sl b) →
    (List.range e.n.toNat).countP (fun sl => !u.isPresent sl) ≤ e.m.toNat →
    ∃ t, exec .recon u = .next t ∧ t.err = 0 ∧
      ∀ i b, i < s.k.toNat → b < s.shlen.toNat → t.slotByte i b = s.slotByte i b

/-- Rules R204, R234 (U11): with the generator matrix INIT wrote, RECON never raises `SINGULAR_MATRIX`. -/
def Obligations.ReconNeverSingular : Prop :=
  ∀ s t : State, s.Inv → s.GenOk → exec .recon s = .next t → t.err ≠ 2

/-- Rule R206: a successful RECON sets the `PRESENT` bit of each missing data slot and changes no other; after it every
data slot is present, so an immediate second RECON is a no-op. -/
def Obligations.ReconThenNoOp : Prop :=
  ∀ s t : State, s.Inv → exec .recon s = .next t → t.err = 0 →
    (∀ i, i < s.k.toNat → t.isPresent i = true) ∧
    (∀ i, ¬ (i < s.k.toNat ∧ s.isPresent i = false) → t.isPresent i = s.isPresent i) ∧
    exec .recon t = .next { t with err := 0, pc := t.pc + 1 }

/-- Rule R207: RECON restores data only: no slot in `[K, N)` or beyond is written, no such `PRESENT` bit is changed, no
bit is cleared, and slots already present are untouched. -/
def Obligations.ReconDataOnly : Prop :=
  ∀ s t : State, s.Inv → exec .recon s = .next t →
    (∀ sl b, b < s.lmax → s.k.toNat ≤ sl ∨ s.isPresent sl = true → t.slotByte sl b = s.slotByte sl b) ∧
    (∀ sl, s.k.toNat ≤ sl ∨ s.isPresent sl = true → t.isPresent sl = s.isPresent sl)

/-- Rules R205, R283: what RECON computes does not depend on the content of absent slots. -/
def Obligations.ReconIgnoresAbsentContent : Prop :=
  ∀ (s t : State) (bytes : List Host.Cell) (u : State), s.Inv →
    (∀ sl b, sl < s.n.toNat → s.isPresent sl = true → b < s.shlen.toNat →
      ({ s with shd := bytes } : State).slotByte sl b = s.slotByte sl b) →
    exec .recon s = .next t → exec .recon { s with shd := bytes } = .next u →
    u.err = t.err ∧ u.present = t.present ∧
      (t.err = 0 → ∀ i b, i < s.k.toNat → b < s.shlen.toNat → u.slotByte i b = t.slotByte i b)

/-- Rules R66, R284: no command moves information between byte indices: byte `b` of every slot after ADDSV, ENCODE or
RECON depends on byte `b` of the slots before it alone. -/
def Obligations.LanesAreIndependent : Prop :=
  ∀ (s : State) (bytes : List Host.Cell) (i : Instr) (t u : State) (b : Nat), b < s.lmax →
    (i = .encode ∨ i = .recon ∨ ∃ sd ss c, i = .addsv sd ss c) →
    (∀ sl, ({ s with shd := bytes } : State).slotByte sl b = s.slotByte sl b) →
    exec i s = .next t → exec i { s with shd := bytes } = .next u →
    u.err = t.err ∧ ∀ sl, u.slotByte sl b = t.slotByte sl b

/-! ### Frames -/

/-- What GFMUL, GFPOW, GFINV, GFLOG and GFEXP leave unchanged: everything but `RES`, the error registers and the model's
pc; `RES` too when they fault, the record of earlier faults when they do not (rules R38, R64, R240). -/
def Obligations.FieldCommandsFrame : Prop :=
  ∀ (i : Instr) (s t : State), isField i = true → exec i s = .next t →
    SameHostSide s t ∧ SameCoder s t ∧ t.present = s.present ∧ SameShapesBut [] s t ∧
    SameMatBut Nowhere s t ∧ SameShdBut Nowhere s t ∧
    (t.err = 0 → SameRecord s t) ∧ (t.err ≠ 0 → t.res = s.res)

/-- What VAND, SUBM and MMUL leave unchanged: everything but the counts of the destination, the bytes of its buffer they
store to, the error registers and the model's pc; the destination too when they fault (rules R12, R25, R38, R64). -/
def Obligations.MatrixResultFrame : Prop :=
  ∀ (i : Instr) (md : MReg) (len : Nat) (s t : State),
    ((∃ rows cols, i = .vand md rows cols ∧ len = rows * cols) ∨
     (∃ ms xmin ymin xmax ymax, i = .subm md ms xmin ymin xmax ymax ∧ len = (ymax - ymin) * (xmax - xmin)) ∨
     (∃ ma mb, i = .mmul md ma mb ∧ len = (s.shape ma).rows.toNat * (s.shape mb).cols.toNat)) →
    exec i s = .next t →
    SameHostSide s t ∧ SameCoder s t ∧ t.res = s.res ∧ t.present = s.present ∧ SameShdBut Nowhere s t ∧
    SameShapesBut [md] s t ∧ SameMatBut (InRun (bufAddr md 0) len) s t ∧
    (t.err = 0 → SameRecord s t) ∧ (t.err ≠ 0 → SameShapesBut [] s t ∧ SameMatBut Nowhere s t)

/-- What MINV leaves unchanged: everything but the two registers' counts, their first `size × size` bytes, the error
registers and the model's pc (rules R38, R64, R161). -/
def Obligations.MinvFrame : Prop :=
  ∀ (md ms : MReg) (s t : State), exec (.minv md ms) s = .next t →
    let len := (s.shape ms).rows.toNat * (s.shape ms).rows.toNat
    SameHostSide s t ∧ SameCoder s t ∧ t.res = s.res ∧ t.present = s.present ∧ SameShdBut Nowhere s t ∧
    SameShapesBut [md] s t ∧
    SameMatBut (fun a => InRun (bufAddr md 0) len a ∨ InRun (bufAddr ms 0) len a) s t ∧
    (t.err = 0 → SameRecord s t) ∧ (t.err = 6 → SameShapesBut [] s t ∧ SameMatBut Nowhere s t) ∧
    (t.err = 2 → SameShapesBut [] s t ∧ SameMatBut (InRun (bufAddr ms 0) len) s t)

/-- What ADDSV leaves unchanged: everything but the first `SHLEN` bytes of the destination slot, the error registers and
the model's pc (rules R38, R64, R181). -/
def Obligations.AddsvFrame : Prop :=
  ∀ (sd ss : Slot) (c : Byte) (s t : State), exec (.addsv sd ss c) s = .next t →
    SameHostSide s t ∧ SameCoder s t ∧ t.res = s.res ∧ t.present = s.present ∧ SameShapesBut [] s t ∧
    SameMatBut Nowhere s t ∧ SameShdBut (InRun (s.slotAddr sd.val 0) s.shlen.toNat) s t ∧
    (t.err = 0 → SameRecord s t) ∧ (t.err ≠ 0 → SameShdBut Nowhere s t)

/-- What INIT leaves unchanged: everything but the coder registers, the first `n × k` bytes of `GEN`, the error
registers and the model's pc; those too when it faults (rules R38, R64, R192, R193). That the bytes of `GEN` from offset
`n × k` up keep their values, which rule R32 calls unspecified, is the model's choice (log entry 17). -/
def Obligations.InitFrame : Prop :=
  ∀ (k m : Nat) (s t : State), exec (.init k m) s = .next t →
    SameHostSide s t ∧ t.res = s.res ∧ t.present = s.present ∧ SameShapesBut [] s t ∧ SameShdBut Nowhere s t ∧
    SameMatBut (InRun 0x80000 ((k + m) * k)) s t ∧
    (t.err = 0 → SameRecord s t) ∧ (t.err ≠ 0 → SameCoder s t ∧ SameMatBut Nowhere s t)

/-- What ENCODE leaves unchanged: everything but the first `SHLEN` bytes of the parity slots, the error registers and the
model's pc (rules R38, R64, R195). -/
def Obligations.EncodeFrame : Prop :=
  ∀ s t : State, exec .encode s = .next t →
    SameHostSide s t ∧ SameCoder s t ∧ t.res = s.res ∧ t.present = s.present ∧ SameShapesBut [] s t ∧
    SameMatBut Nowhere s t ∧
    SameShdBut (fun a => ∃ j, j < s.m.toNat ∧ InRun (s.slotAddr (s.k.toNat + j) 0) s.shlen.toNat a) s t ∧
    (t.err = 0 → SameRecord s t) ∧ (t.err ≠ 0 → SameShdBut Nowhere s t)

/-- What RECON leaves unchanged: everything but the first `SHLEN` bytes of the absent data slots, their `PRESENT` bits,
the error registers and the model's pc; the slots and bits too when it faults (rules R38, R64, R208). -/
def Obligations.ReconFrame : Prop :=
  ∀ s t : State, exec .recon s = .next t →
    SameHostSide s t ∧ SameCoder s t ∧ t.res = s.res ∧ SameShapesBut [] s t ∧ SameMatBut Nowhere s t ∧
    SameShdBut (fun a => ∃ i, i < s.k.toNat ∧ s.isPresent i = false ∧
      InRun (s.slotAddr i 0) s.shlen.toNat a) s t ∧
    (∀ i, ¬ (i < s.k.toNat ∧ s.isPresent i = false) → t.isPresent i = s.isPresent i) ∧
    (t.err = 0 → SameRecord s t) ∧ (t.err ≠ 0 → t.present = s.present ∧ SameShdBut Nowhere s t)

/-! ### The whole machine -/

/-- Rules R243, R290: every command ends, normally or by a fault that does not stop the block; and with a host that keeps
to the accesses the interface offers, no step stops. -/
def Obligations.BlockNeverStops : Prop :=
  (∀ (i : Instr) (s : State), ∃ t, exec i s = .next t) ∧
  ∀ s : State, (∀ a rest, s.host = a :: rest → a.Offered s.lmax) → s.StepsOn

/-- Rule R240: a command that ends normally leaves `STATUS.ERR` 0 and the record of faults as it was; one that ends with
fault code `c` leaves `STATUS.ERR = c` and exactly bit `c` of `ERRSTICKY` newly set. -/
def Obligations.CommandEndRecord : Prop :=
  ∀ (i : Instr) (s t : State), exec i s = .next t →
    (t.err = 0 ∧ SameRecord s t) ∨
    (1 ≤ t.err.toNat ∧ t.err.toNat ≤ 8 ∧
      ∀ j, t.errsticky.getLsbD j = (s.errsticky.getLsbD j || decide (j = t.err.toNat)))

/-- Rule R242: the faults each command can raise. -/
def Obligations.FaultsOfEachCommand : Prop :=
  ∀ (i : Instr) (s t : State), exec i s = .next t → t.err = 0 ∨ t.err.toNat ∈ faultsOf i

/-- Rule R232, last row: `BAD_PARAM`, `ZERO_OPERAND` and `NOT_CONFIGURED` record the two halves of the command word the
host issued. -/
def Obligations.FaultRecordsCommandWord : Prop :=
  ∀ (s t : State) (v : Word) (rest : List HostAccess) (i : Instr), s.Issues v rest →
    decode (cmdOf s.cmdh v) = .ok i → step s = .next t → 6 ≤ t.err.toNat →
    t.errinfo0 = v ∧ t.errinfo1 = s.cmdh

/-- Rule R38, the table of writers: which commands can change which state. -/
def Obligations.WritersOfEachState : Prop :=
  ∀ (i : Instr) (s t : State), exec i s = .next t →
    SameHostSide s t ∧
    (isField i = false → t.res = s.res) ∧
    (isMatrix i = false → SameShapesBut [] s t ∧ ∀ r o, o < 65536 → t.bufByte r o = s.bufByte r o) ∧
    (isShardWriter i = false → SameShdBut Nowhere s t) ∧
    (i ≠ .recon → t.present = s.present) ∧
    ((∀ k m, i ≠ .init k m) → SameCoder s t ∧ ∀ o, o < 65536 → t.genByte o = s.genByte o) ∧
    (t.err = 0 → SameRecord s t)

/-- Rule R22: the model's pc starts at 0, advances by exactly 1 when a command ends, normally or by a fault, and nothing
else changes it; that a word of no command counts as one is the model's reading (log entry 8). -/
def Obligations.PcCountsCommands : Prop :=
  State.reset.pc = 0 ∧
  ∀ s t : State, step s = .next t →
    t.pc = (match s.host with
      | .wrReg off _ :: _ => if off = 0x004 then s.pc + 1 else s.pc
      | _ => s.pc)

/-- Rule R40 (a), (c), (d) and the bounds of (b), with the canonical form of both memories, the reserved bits of
`ERRSTICKY` and `LMAX ≥ 1`: whatever the host does, every step keeps them. -/
def Obligations.StepKeepsInvariant : Prop :=
  ∀ s t : State, s.Inv → step s = .next t → t.Inv

/-- Rule R40 whole: whatever the host does, every step keeps the invariants above and keeps `GEN` holding
`build_generator(K, M)` while a coder is constructed; the tables are constants. -/
def Obligations.StepKeepsGenerator : Prop :=
  ∀ s t : State, s.Inv → s.GenOk → step s = .next t → t.Inv ∧ t.GenOk

/-- The invariants hold at reset (rules R40, R270). -/
def Obligations.ResetMeetsInvariant : Prop :=
  State.reset.Inv ∧ State.reset.GenOk

/-- Rule R270: the values the spec gives for reset. The buffers are unspecified: nothing has written a byte of them. -/
def Obligations.ResetValues : Prop :=
  (∀ i, State.reset.shape i = ⟨0, 0⟩) ∧ State.reset.res = 0 ∧ (∀ i, State.reset.isPresent i = false) ∧
  State.reset.shlen = 0 ∧ State.reset.cfgv = false ∧ State.reset.k = 0 ∧ State.reset.m = 0 ∧ State.reset.n = 0 ∧
  State.reset.cmdh = 0 ∧ State.reset.statusWord = 0 ∧ State.reset.stickyWord = 0 ∧
  State.reset.errinfo0 = 0 ∧ State.reset.errinfo1 = 0 ∧
  (∀ a, Memory.get? State.reset.mat a = none) ∧ (∀ a, Memory.get? State.reset.shd a = none)

/-! ### The host interface -/

/-- Rules R26, R29, R34, R35, R37: what a host read of each register returns, bit by bit, and that it changes nothing in
the block. -/
def Obligations.RegisterReads : Prop :=
  ∀ (s : State) (off : Nat) (rest : List HostAccess), s.host = .rdReg off :: rest → off < 0x100 → off % 4 = 0 →
    ∃ w : Word, step s = .next { s with host := rest, readData := .reg w } ∧
      (off = 0x000 → w = s.cmdh) ∧ (off = 0x010 → w = s.errinfo0) ∧ (off = 0x014 → w = s.errinfo1) ∧
      (off = 0x01C → w = s.shlen) ∧ (off = 0x018 → w.toNat = s.res.toNat) ∧
      (off = 0x020 → w.toNat = s.k.toNat) ∧ (off = 0x024 → w.toNat = s.m.toNat) ∧
      (off = 0x028 → w.toNat = s.n.toNat) ∧
      (off = 0x008 → ∀ j, w.getLsbD j =
        ((decide (j = 1) && s.cfgv) || (decide (8 ≤ j ∧ j < 12) && s.err.getLsbD (j - 8)))) ∧
      (off = 0x00C → ∀ j, w.getLsbD j = (decide (1 ≤ j ∧ j ≤ 8) && s.errsticky.getLsbD j)) ∧
      (∀ i, i < 8 → off = 0x040 + 4 * i → ∀ j, j < 32 → w.getLsbD j = s.isPresent (32 * i + j)) ∧
      (∀ i : MReg, off = 0x080 + 4 * i.val →
        w.toNat = (s.shape i).rows.toNat + (s.shape i).cols.toNat * 65536) ∧
      (off = 0x004 ∨ (0x02C ≤ off ∧ off < 0x040) ∨ (0x060 ≤ off ∧ off < 0x080) ∨ 0x0A0 ≤ off → w = 0)

/-- Rules R26, R29, R30, R33, R35, R37: what a host write to each register other than `CMDL` does; read-only registers
and unmapped offsets ignore it. -/
def Obligations.RegisterWrites : Prop :=
  ∀ (s : State) (off : Nat) (v : Word) (rest : List HostAccess), s.host = .wrReg off v :: rest → off < 0x100 →
    off % 4 = 0 → off ≠ 0x004 →
    ∃ t, step s = .next t ∧ t.host = rest ∧ SameCoder s t ∧ t.res = s.res ∧ t.err = s.err ∧
      t.errinfo0 = s.errinfo0 ∧ t.errinfo1 = s.errinfo1 ∧ t.mat = s.mat ∧ t.shd = s.shd ∧ t.pc = s.pc ∧
      t.lmax = s.lmax ∧ t.readData = s.readData ∧ t.cmdh = (if off = 0x000 then v else s.cmdh) ∧
      t.shlen = (if off = 0x01C then v else s.shlen) ∧
      (∀ j, 1 ≤ j → j ≤ 8 → t.errsticky.getLsbD j =
        (s.errsticky.getLsbD j && !(decide (off = 0x00C) && v.getLsbD j))) ∧
      (∀ i j, i < 8 → j < 32 → t.isPresent (32 * i + j) =
        (if off = 0x040 + 4 * i then v.getLsbD j else s.isPresent (32 * i + j))) ∧
      (∀ i : MReg, t.shape i =
        (if off = 0x080 + 4 * i.val then ⟨v.extractLsb' 0 9, v.extractLsb' 16 9⟩ else s.shape i))

/-- Rules R62, R63, R68: host byte accesses. In `MAT` the matrix buffers are readable and writable, `GEN` readable and a
write to it ignored: nothing changes, no error is recorded. In `SHD` offset `sl × LMAX + b` is byte `b` of slot `sl`,
readable and writable. A write changes its own byte and nothing else, a read nothing at all. What a byte whose content
the spec leaves unspecified reads as is the model's choice (log entries 2 and 17). -/
def Obligations.HostMemoryAccess : Prop :=
  ∀ (s : State) (v : Byte) (rest : List HostAccess),
    (∀ off, off < 0x90000 → s.host = .rdMat off :: rest →
      step s = .next { s with host := rest, readData := .byte (s.matByte off) }) ∧
    (∀ off, 0x80000 ≤ off → off < 0x90000 → s.host = .wrMat off v :: rest → step s = .next { s with host := rest }) ∧
    (∀ off, off < 0x80000 → s.host = .wrMat off v :: rest →
      ∃ t, step s = .next t ∧ t = { s with host := rest, mat := t.mat } ∧
        ∀ a, t.matByte a = if a = off then v else s.matByte a) ∧
    (∀ sl b, sl < 256 → b < s.lmax →
      (s.host = .rdShd (sl * s.lmax + b) :: rest →
        step s = .next { s with host := rest, readData := .byte (s.slotByte sl b) }) ∧
      (s.host = .wrShd (sl * s.lmax + b) v :: rest →
        ∃ t, step s = .next t ∧ t = { s with host := rest, shd := t.shd } ∧
          ∀ sl' b', b' < s.lmax → t.slotByte sl' b' = if sl' = sl ∧ b' = b then v else s.slotByte sl' b'))

/-- Rules R61 to R63 (U9): a host access outside its space, or to a register at an offset that is no multiple of 4, is
given no meaning; that the model then stops, under these names, is its own choice (log entry 6). -/
def Obligations.HostAccessStops : Prop :=
  ∀ (s : State) (off : Nat) (v : Word) (b : Byte) (rest : List HostAccess),
    (s.host = .wrReg off v :: rest ∨ s.host = .rdReg off :: rest →
      (0x100 ≤ off → step s = .fault (.regOutside off)) ∧
      (off < 0x100 → off % 4 ≠ 0 → step s = .refused (.regMisaligned off))) ∧
    (s.host = .wrMat off b :: rest ∨ s.host = .rdMat off :: rest → 0x90000 ≤ off →
      step s = .fault (.matOutside off)) ∧
    (s.host = .wrShd off b :: rest ∨ s.host = .rdShd off :: rest → 256 * s.lmax ≤ off →
      step s = .fault (.shdOutside off))

/-- Rules R20, R271, and log entry 1 (the model's host list): with no host access to come the block does nothing. -/
def Obligations.IdleWithoutHost : Prop :=
  ∀ s : State, s.host = [] → step s = .next s
end

