-- ==== Sys2Proof/Laws/Mat.lean ====
section
/-! SUPPORT. The small lemmas of matrix values, field sums and scaled accumulation. -/

namespace Sys2Proof.Machine

@[simp] theorem Mat.ofFn_rows (rows cols : Nat) (f : Nat → Nat → Byte) : (Mat.ofFn rows cols f).rows = rows := rfl

@[simp] theorem Mat.ofFn_cols (rows cols : Nat) (f : Nat → Nat → Byte) : (Mat.ofFn rows cols f).cols = cols := rfl

/-- The elements of a value given by a function are that function's values. -/
theorem Mat.get_ofFn {rows cols : Nat} (f : Nat → Nat → Byte) {r c : Nat} (hr : r < rows) (hc : c < cols) :
    (Mat.ofFn rows cols f).get r c = f r c := by
  simp [Mat.get, Mat.ofFn, List.getD_eq_getElem?_getD, hr, hc]

/-- Two functions that agree inside the counts give the same value. -/
theorem Mat.ofFn_congr {rows cols : Nat} {f g : Nat → Nat → Byte} (h : ∀ r c, r < rows → c < cols → f r c = g r c) :
    Mat.ofFn rows cols f = Mat.ofFn rows cols g := by
  simp only [Mat.ofFn, Mat.mk.injEq, true_and]
  refine List.map_congr_left fun r hr => List.map_congr_left fun c hc => ?_
  exact h r c (List.mem_range.mp hr) (List.mem_range.mp hc)

@[simp] theorem Mat.bytes_length (A : Mat) : A.bytes.length = A.rows * A.cols := by simp [Mat.bytes]

/-- Byte `r × cols + c` of the row-major bytes is element `(r, c)` (rule R12). -/
theorem Mat.bytes_getD (A : Mat) {r c : Nat} (hr : r < A.rows) (hc : c < A.cols) :
    A.bytes.getD (r * A.cols + c) 0 = A.get r c := by
  have hlt : r * A.cols + c < A.rows * A.cols := by
    have := Nat.mul_le_mul_right A.cols (Nat.succ_le_of_lt hr)
    rw [Nat.succ_mul] at this
    omega
  have hdiv : (r * A.cols + c) / A.cols = r := by
    rw [Nat.mul_comm, Nat.mul_add_div (by omega), Nat.div_eq_of_lt hc, Nat.add_zero]
  have hmod : (r * A.cols + c) % A.cols = c := by
    rw [Nat.mul_comm, Nat.mul_add_mod, Nat.mod_eq_of_lt hc]
  simp [Mat.bytes, List.getD_eq_getElem?_getD, hlt, hdiv, hmod]

@[simp] theorem gfSum_zero (f : Nat → Byte) : gfSum 0 f = 0 := rfl

theorem gfSum_succ (n : Nat) (f : Nat → Byte) : gfSum (n + 1) f = gfAdd (gfSum n f) (f n) := rfl

theorem gfSum_congr {n : Nat} {f g : Nat → Byte} (h : ∀ i, i < n → f i = g i) : gfSum n f = gfSum n g := by
  induction n with
  | zero => rfl
  | succ n ih => rw [gfSum_succ, gfSum_succ, ih fun i hi => h i (by omega), h n (by omega)]

@[simp] theorem addScaled_length (dest src : List Byte) (c : Byte) :
    (addScaled dest src c).length = min dest.length src.length := by simp [addScaled]

/-- Lane `i` of a scaled accumulation (rule R180). -/
theorem addScaled_getD {dest src : List Byte} (c : Byte) {i : Nat} (hd : i < dest.length) (hs : i < src.length) :
    (addScaled dest src c).getD i 0 = gfAdd (dest.getD i 0) (gfMul c (src.getD i 0)) := by
  simp [addScaled, List.getD_eq_getElem?_getD, hd, hs]

end Sys2Proof.Machine
end

