-- ==== Sys2Proof/Laws/State.lean ====
section
/-! SUPPORT. One lemma per field per named update of the state, each true by unfolding, so that no later proof unfolds a record update. -/

namespace Sys2Proof.Machine

variable (s : State)

/-! ### `writeMat` -/

@[simp] theorem State.writeMat_cmdh (base : Nat) (bytes : List Byte) : (s.writeMat base bytes).cmdh = s.cmdh := rfl
@[simp] theorem State.writeMat_err (base : Nat) (bytes : List Byte) : (s.writeMat base bytes).err = s.err := rfl
@[simp] theorem State.writeMat_errsticky (base : Nat) (bytes : List Byte) : (s.writeMat base bytes).errsticky = s.errsticky := rfl
@[simp] theorem State.writeMat_errinfo0 (base : Nat) (bytes : List Byte) : (s.writeMat base bytes).errinfo0 = s.errinfo0 := rfl
@[simp] theorem State.writeMat_errinfo1 (base : Nat) (bytes : List Byte) : (s.writeMat base bytes).errinfo1 = s.errinfo1 := rfl
@[simp] theorem State.writeMat_res (base : Nat) (bytes : List Byte) : (s.writeMat base bytes).res = s.res := rfl
@[simp] theorem State.writeMat_shlen (base : Nat) (bytes : List Byte) : (s.writeMat base bytes).shlen = s.shlen := rfl
@[simp] theorem State.writeMat_cfgv (base : Nat) (bytes : List Byte) : (s.writeMat base bytes).cfgv = s.cfgv := rfl
@[simp] theorem State.writeMat_k (base : Nat) (bytes : List Byte) : (s.writeMat base bytes).k = s.k := rfl
@[simp] theorem State.writeMat_m (base : Nat) (bytes : List Byte) : (s.writeMat base bytes).m = s.m := rfl
@[simp] theorem State.writeMat_n (base : Nat) (bytes : List Byte) : (s.writeMat base bytes).n = s.n := rfl
@[simp] theorem State.writeMat_present (base : Nat) (bytes : List Byte) : (s.writeMat base bytes).present = s.present := rfl
@[simp] theorem State.writeMat_shapes (base : Nat) (bytes : List Byte) : (s.writeMat base bytes).shapes = s.shapes := rfl
@[simp] theorem State.writeMat_mat (base : Nat) (bytes : List Byte) : (s.writeMat base bytes).mat = s.mat.write base bytes := rfl
@[simp] theorem State.writeMat_shd (base : Nat) (bytes : List Byte) : (s.writeMat base bytes).shd = s.shd := rfl
@[simp] theorem State.writeMat_pc (base : Nat) (bytes : List Byte) : (s.writeMat base bytes).pc = s.pc := rfl
@[simp] theorem State.writeMat_lmax (base : Nat) (bytes : List Byte) : (s.writeMat base bytes).lmax = s.lmax := rfl
@[simp] theorem State.writeMat_host (base : Nat) (bytes : List Byte) : (s.writeMat base bytes).host = s.host := rfl
@[simp] theorem State.writeMat_readData (base : Nat) (bytes : List Byte) : (s.writeMat base bytes).readData = s.readData := rfl

/-! ### `writeShd` -/

@[simp] theorem State.writeShd_cmdh (base : Nat) (bytes : List Byte) : (s.writeShd base bytes).cmdh = s.cmdh := rfl
@[simp] theorem State.writeShd_err (base : Nat) (bytes : List Byte) : (s.writeShd base bytes).err = s.err := rfl
@[simp] theorem State.writeShd_errsticky (base : Nat) (bytes : List Byte) : (s.writeShd base bytes).errsticky = s.errsticky := rfl
@[simp] theorem State.writeShd_errinfo0 (base : Nat) (bytes : List Byte) : (s.writeShd base bytes).errinfo0 = s.errinfo0 := rfl
@[simp] theorem State.writeShd_errinfo1 (base : Nat) (bytes : List Byte) : (s.writeShd base bytes).errinfo1 = s.errinfo1 := rfl
@[simp] theorem State.writeShd_res (base : Nat) (bytes : List Byte) : (s.writeShd base bytes).res = s.res := rfl
@[simp] theorem State.writeShd_shlen (base : Nat) (bytes : List Byte) : (s.writeShd base bytes).shlen = s.shlen := rfl
@[simp] theorem State.writeShd_cfgv (base : Nat) (bytes : List Byte) : (s.writeShd base bytes).cfgv = s.cfgv := rfl
@[simp] theorem State.writeShd_k (base : Nat) (bytes : List Byte) : (s.writeShd base bytes).k = s.k := rfl
@[simp] theorem State.writeShd_m (base : Nat) (bytes : List Byte) : (s.writeShd base bytes).m = s.m := rfl
@[simp] theorem State.writeShd_n (base : Nat) (bytes : List Byte) : (s.writeShd base bytes).n = s.n := rfl
@[simp] theorem State.writeShd_present (base : Nat) (bytes : List Byte) : (s.writeShd base bytes).present = s.present := rfl
@[simp] theorem State.writeShd_shapes (base : Nat) (bytes : List Byte) : (s.writeShd base bytes).shapes = s.shapes := rfl
@[simp] theorem State.writeShd_mat (base : Nat) (bytes : List Byte) : (s.writeShd base bytes).mat = s.mat := rfl
@[simp] theorem State.writeShd_shd (base : Nat) (bytes : List Byte) : (s.writeShd base bytes).shd = s.shd.write base bytes := rfl
@[simp] theorem State.writeShd_pc (base : Nat) (bytes : List Byte) : (s.writeShd base bytes).pc = s.pc := rfl
@[simp] theorem State.writeShd_lmax (base : Nat) (bytes : List Byte) : (s.writeShd base bytes).lmax = s.lmax := rfl
@[simp] theorem State.writeShd_host (base : Nat) (bytes : List Byte) : (s.writeShd base bytes).host = s.host := rfl
@[simp] theorem State.writeShd_readData (base : Nat) (bytes : List Byte) : (s.writeShd base bytes).readData = s.readData := rfl

/-! ### `setRes` -/

@[simp] theorem State.setRes_cmdh (v : Byte) : (s.setRes v).cmdh = s.cmdh := rfl
@[simp] theorem State.setRes_err (v : Byte) : (s.setRes v).err = s.err := rfl
@[simp] theorem State.setRes_errsticky (v : Byte) : (s.setRes v).errsticky = s.errsticky := rfl
@[simp] theorem State.setRes_errinfo0 (v : Byte) : (s.setRes v).errinfo0 = s.errinfo0 := rfl
@[simp] theorem State.setRes_errinfo1 (v : Byte) : (s.setRes v).errinfo1 = s.errinfo1 := rfl
@[simp] theorem State.setRes_res (v : Byte) : (s.setRes v).res = v := rfl
@[simp] theorem State.setRes_shlen (v : Byte) : (s.setRes v).shlen = s.shlen := rfl
@[simp] theorem State.setRes_cfgv (v : Byte) : (s.setRes v).cfgv = s.cfgv := rfl
@[simp] theorem State.setRes_k (v : Byte) : (s.setRes v).k = s.k := rfl
@[simp] theorem State.setRes_m (v : Byte) : (s.setRes v).m = s.m := rfl
@[simp] theorem State.setRes_n (v : Byte) : (s.setRes v).n = s.n := rfl
@[simp] theorem State.setRes_present (v : Byte) : (s.setRes v).present = s.present := rfl
@[simp] theorem State.setRes_shapes (v : Byte) : (s.setRes v).shapes = s.shapes := rfl
@[simp] theorem State.setRes_mat (v : Byte) : (s.setRes v).mat = s.mat := rfl
@[simp] theorem State.setRes_shd (v : Byte) : (s.setRes v).shd = s.shd := rfl
@[simp] theorem State.setRes_pc (v : Byte) : (s.setRes v).pc = s.pc := rfl
@[simp] theorem State.setRes_lmax (v : Byte) : (s.setRes v).lmax = s.lmax := rfl
@[simp] theorem State.setRes_host (v : Byte) : (s.setRes v).host = s.host := rfl
@[simp] theorem State.setRes_readData (v : Byte) : (s.setRes v).readData = s.readData := rfl

/-! ### `setCmdh` -/

@[simp] theorem State.setCmdh_cmdh (v : Word) : (s.setCmdh v).cmdh = v := rfl
@[simp] theorem State.setCmdh_err (v : Word) : (s.setCmdh v).err = s.err := rfl
@[simp] theorem State.setCmdh_errsticky (v : Word) : (s.setCmdh v).errsticky = s.errsticky := rfl
@[simp] theorem State.setCmdh_errinfo0 (v : Word) : (s.setCmdh v).errinfo0 = s.errinfo0 := rfl
@[simp] theorem State.setCmdh_errinfo1 (v : Word) : (s.setCmdh v).errinfo1 = s.errinfo1 := rfl
@[simp] theorem State.setCmdh_res (v : Word) : (s.setCmdh v).res = s.res := rfl
@[simp] theorem State.setCmdh_shlen (v : Word) : (s.setCmdh v).shlen = s.shlen := rfl
@[simp] theorem State.setCmdh_cfgv (v : Word) : (s.setCmdh v).cfgv = s.cfgv := rfl
@[simp] theorem State.setCmdh_k (v : Word) : (s.setCmdh v).k = s.k := rfl
@[simp] theorem State.setCmdh_m (v : Word) : (s.setCmdh v).m = s.m := rfl
@[simp] theorem State.setCmdh_n (v : Word) : (s.setCmdh v).n = s.n := rfl
@[simp] theorem State.setCmdh_present (v : Word) : (s.setCmdh v).present = s.present := rfl
@[simp] theorem State.setCmdh_shapes (v : Word) : (s.setCmdh v).shapes = s.shapes := rfl
@[simp] theorem State.setCmdh_mat (v : Word) : (s.setCmdh v).mat = s.mat := rfl
@[simp] theorem State.setCmdh_shd (v : Word) : (s.setCmdh v).shd = s.shd := rfl
@[simp] theorem State.setCmdh_pc (v : Word) : (s.setCmdh v).pc = s.pc := rfl
@[simp] theorem State.setCmdh_lmax (v : Word) : (s.setCmdh v).lmax = s.lmax := rfl
@[simp] theorem State.setCmdh_host (v : Word) : (s.setCmdh v).host = s.host := rfl
@[simp] theorem State.setCmdh_readData (v : Word) : (s.setCmdh v).readData = s.readData := rfl

/-! ### `setShlen` -/

@[simp] theorem State.setShlen_cmdh (v : Word) : (s.setShlen v).cmdh = s.cmdh := rfl
@[simp] theorem State.setShlen_err (v : Word) : (s.setShlen v).err = s.err := rfl
@[simp] theorem State.setShlen_errsticky (v : Word) : (s.setShlen v).errsticky = s.errsticky := rfl
@[simp] theorem State.setShlen_errinfo0 (v : Word) : (s.setShlen v).errinfo0 = s.errinfo0 := rfl
@[simp] theorem State.setShlen_errinfo1 (v : Word) : (s.setShlen v).errinfo1 = s.errinfo1 := rfl
@[simp] theorem State.setShlen_res (v : Word) : (s.setShlen v).res = s.res := rfl
@[simp] theorem State.setShlen_shlen (v : Word) : (s.setShlen v).shlen = v := rfl
@[simp] theorem State.setShlen_cfgv (v : Word) : (s.setShlen v).cfgv = s.cfgv := rfl
@[simp] theorem State.setShlen_k (v : Word) : (s.setShlen v).k = s.k := rfl
@[simp] theorem State.setShlen_m (v : Word) : (s.setShlen v).m = s.m := rfl
@[simp] theorem State.setShlen_n (v : Word) : (s.setShlen v).n = s.n := rfl
@[simp] theorem State.setShlen_present (v : Word) : (s.setShlen v).present = s.present := rfl
@[simp] theorem State.setShlen_shapes (v : Word) : (s.setShlen v).shapes = s.shapes := rfl
@[simp] theorem State.setShlen_mat (v : Word) : (s.setShlen v).mat = s.mat := rfl
@[simp] theorem State.setShlen_shd (v : Word) : (s.setShlen v).shd = s.shd := rfl
@[simp] theorem State.setShlen_pc (v : Word) : (s.setShlen v).pc = s.pc := rfl
@[simp] theorem State.setShlen_lmax (v : Word) : (s.setShlen v).lmax = s.lmax := rfl
@[simp] theorem State.setShlen_host (v : Word) : (s.setShlen v).host = s.host := rfl
@[simp] theorem State.setShlen_readData (v : Word) : (s.setShlen v).readData = s.readData := rfl

/-! ### `setShape` -/

@[simp] theorem State.setShape_cmdh (i : MReg) (sh : Shape) : (s.setShape i sh).cmdh = s.cmdh := rfl
@[simp] theorem State.setShape_err (i : MReg) (sh : Shape) : (s.setShape i sh).err = s.err := rfl
@[simp] theorem State.setShape_errsticky (i : MReg) (sh : Shape) : (s.setShape i sh).errsticky = s.errsticky := rfl
@[simp] theorem State.setShape_errinfo0 (i : MReg) (sh : Shape) : (s.setShape i sh).errinfo0 = s.errinfo0 := rfl
@[simp] theorem State.setShape_errinfo1 (i : MReg) (sh : Shape) : (s.setShape i sh).errinfo1 = s.errinfo1 := rfl
@[simp] theorem State.setShape_res (i : MReg) (sh : Shape) : (s.setShape i sh).res = s.res := rfl
@[simp] theorem State.setShape_shlen (i : MReg) (sh : Shape) : (s.setShape i sh).shlen = s.shlen := rfl
@[simp] theorem State.setShape_cfgv (i : MReg) (sh : Shape) : (s.setShape i sh).cfgv = s.cfgv := rfl
@[simp] theorem State.setShape_k (i : MReg) (sh : Shape) : (s.setShape i sh).k = s.k := rfl
@[simp] theorem State.setShape_m (i : MReg) (sh : Shape) : (s.setShape i sh).m = s.m := rfl
@[simp] theorem State.setShape_n (i : MReg) (sh : Shape) : (s.setShape i sh).n = s.n := rfl
@[simp] theorem State.setShape_present (i : MReg) (sh : Shape) : (s.setShape i sh).present = s.present := rfl
@[simp] theorem State.setShape_shapes (i : MReg) (sh : Shape) : (s.setShape i sh).shapes = s.shapes.set i.val sh := rfl
@[simp] theorem State.setShape_mat (i : MReg) (sh : Shape) : (s.setShape i sh).mat = s.mat := rfl
@[simp] theorem State.setShape_shd (i : MReg) (sh : Shape) : (s.setShape i sh).shd = s.shd := rfl
@[simp] theorem State.setShape_pc (i : MReg) (sh : Shape) : (s.setShape i sh).pc = s.pc := rfl
@[simp] theorem State.setShape_lmax (i : MReg) (sh : Shape) : (s.setShape i sh).lmax = s.lmax := rfl
@[simp] theorem State.setShape_host (i : MReg) (sh : Shape) : (s.setShape i sh).host = s.host := rfl
@[simp] theorem State.setShape_readData (i : MReg) (sh : Shape) : (s.setShape i sh).readData = s.readData := rfl

/-! ### `setPresent` -/

@[simp] theorem State.setPresent_cmdh (p : BitVec 256) : (s.setPresent p).cmdh = s.cmdh := rfl
@[simp] theorem State.setPresent_err (p : BitVec 256) : (s.setPresent p).err = s.err := rfl
@[simp] theorem State.setPresent_errsticky (p : BitVec 256) : (s.setPresent p).errsticky = s.errsticky := rfl
@[simp] theorem State.setPresent_errinfo0 (p : BitVec 256) : (s.setPresent p).errinfo0 = s.errinfo0 := rfl
@[simp] theorem State.setPresent_errinfo1 (p : BitVec 256) : (s.setPresent p).errinfo1 = s.errinfo1 := rfl
@[simp] theorem State.setPresent_res (p : BitVec 256) : (s.setPresent p).res = s.res := rfl
@[simp] theorem State.setPresent_shlen (p : BitVec 256) : (s.setPresent p).shlen = s.shlen := rfl
@[simp] theorem State.setPresent_cfgv (p : BitVec 256) : (s.setPresent p).cfgv = s.cfgv := rfl
@[simp] theorem State.setPresent_k (p : BitVec 256) : (s.setPresent p).k = s.k := rfl
@[simp] theorem State.setPresent_m (p : BitVec 256) : (s.setPresent p).m = s.m := rfl
@[simp] theorem State.setPresent_n (p : BitVec 256) : (s.setPresent p).n = s.n := rfl
@[simp] theorem State.setPresent_present (p : BitVec 256) : (s.setPresent p).present = p := rfl
@[simp] theorem State.setPresent_shapes (p : BitVec 256) : (s.setPresent p).shapes = s.shapes := rfl
@[simp] theorem State.setPresent_mat (p : BitVec 256) : (s.setPresent p).mat = s.mat := rfl
@[simp] theorem State.setPresent_shd (p : BitVec 256) : (s.setPresent p).shd = s.shd := rfl
@[simp] theorem State.setPresent_pc (p : BitVec 256) : (s.setPresent p).pc = s.pc := rfl
@[simp] theorem State.setPresent_lmax (p : BitVec 256) : (s.setPresent p).lmax = s.lmax := rfl
@[simp] theorem State.setPresent_host (p : BitVec 256) : (s.setPresent p).host = s.host := rfl
@[simp] theorem State.setPresent_readData (p : BitVec 256) : (s.setPresent p).readData = s.readData := rfl

/-! ### `setCoder` -/

@[simp] theorem State.setCoder_cmdh (k m : Nat) : (s.setCoder k m).cmdh = s.cmdh := rfl
@[simp] theorem State.setCoder_err (k m : Nat) : (s.setCoder k m).err = s.err := rfl
@[simp] theorem State.setCoder_errsticky (k m : Nat) : (s.setCoder k m).errsticky = s.errsticky := rfl
@[simp] theorem State.setCoder_errinfo0 (k m : Nat) : (s.setCoder k m).errinfo0 = s.errinfo0 := rfl
@[simp] theorem State.setCoder_errinfo1 (k m : Nat) : (s.setCoder k m).errinfo1 = s.errinfo1 := rfl
@[simp] theorem State.setCoder_res (k m : Nat) : (s.setCoder k m).res = s.res := rfl
@[simp] theorem State.setCoder_shlen (k m : Nat) : (s.setCoder k m).shlen = s.shlen := rfl
@[simp] theorem State.setCoder_cfgv (k m : Nat) : (s.setCoder k m).cfgv = true := rfl
@[simp] theorem State.setCoder_k (k m : Nat) : (s.setCoder k m).k = BitVec.ofNat 9 k := rfl
@[simp] theorem State.setCoder_m (k m : Nat) : (s.setCoder k m).m = BitVec.ofNat 9 m := rfl
@[simp] theorem State.setCoder_n (k m : Nat) : (s.setCoder k m).n = BitVec.ofNat 9 (k + m) := rfl
@[simp] theorem State.setCoder_present (k m : Nat) : (s.setCoder k m).present = s.present := rfl
@[simp] theorem State.setCoder_shapes (k m : Nat) : (s.setCoder k m).shapes = s.shapes := rfl
@[simp] theorem State.setCoder_mat (k m : Nat) : (s.setCoder k m).mat = s.mat := rfl
@[simp] theorem State.setCoder_shd (k m : Nat) : (s.setCoder k m).shd = s.shd := rfl
@[simp] theorem State.setCoder_pc (k m : Nat) : (s.setCoder k m).pc = s.pc := rfl
@[simp] theorem State.setCoder_lmax (k m : Nat) : (s.setCoder k m).lmax = s.lmax := rfl
@[simp] theorem State.setCoder_host (k m : Nat) : (s.setCoder k m).host = s.host := rfl
@[simp] theorem State.setCoder_readData (k m : Nat) : (s.setCoder k m).readData = s.readData := rfl

/-! ### `setHost` -/

@[simp] theorem State.setHost_setHost (l l' : List HostAccess) : (s.setHost l).setHost l' = s.setHost l' := rfl
@[simp] theorem State.setHost_cmdh (l : List HostAccess) : (s.setHost l).cmdh = s.cmdh := rfl
@[simp] theorem State.setHost_err (l : List HostAccess) : (s.setHost l).err = s.err := rfl
@[simp] theorem State.setHost_errsticky (l : List HostAccess) : (s.setHost l).errsticky = s.errsticky := rfl
@[simp] theorem State.setHost_errinfo0 (l : List HostAccess) : (s.setHost l).errinfo0 = s.errinfo0 := rfl
@[simp] theorem State.setHost_errinfo1 (l : List HostAccess) : (s.setHost l).errinfo1 = s.errinfo1 := rfl
@[simp] theorem State.setHost_res (l : List HostAccess) : (s.setHost l).res = s.res := rfl
@[simp] theorem State.setHost_shlen (l : List HostAccess) : (s.setHost l).shlen = s.shlen := rfl
@[simp] theorem State.setHost_cfgv (l : List HostAccess) : (s.setHost l).cfgv = s.cfgv := rfl
@[simp] theorem State.setHost_k (l : List HostAccess) : (s.setHost l).k = s.k := rfl
@[simp] theorem State.setHost_m (l : List HostAccess) : (s.setHost l).m = s.m := rfl
@[simp] theorem State.setHost_n (l : List HostAccess) : (s.setHost l).n = s.n := rfl
@[simp] theorem State.setHost_present (l : List HostAccess) : (s.setHost l).present = s.present := rfl
@[simp] theorem State.setHost_shapes (l : List HostAccess) : (s.setHost l).shapes = s.shapes := rfl
@[simp] theorem State.setHost_mat (l : List HostAccess) : (s.setHost l).mat = s.mat := rfl
@[simp] theorem State.setHost_shd (l : List HostAccess) : (s.setHost l).shd = s.shd := rfl
@[simp] theorem State.setHost_pc (l : List HostAccess) : (s.setHost l).pc = s.pc := rfl
@[simp] theorem State.setHost_lmax (l : List HostAccess) : (s.setHost l).lmax = s.lmax := rfl
@[simp] theorem State.setHost_host (l : List HostAccess) : (s.setHost l).host = l := rfl
@[simp] theorem State.setHost_readData (l : List HostAccess) : (s.setHost l).readData = s.readData := rfl

/-! ### `setReadData` -/

@[simp] theorem State.setReadData_cmdh (d : ReadData) : (s.setReadData d).cmdh = s.cmdh := rfl
@[simp] theorem State.setReadData_err (d : ReadData) : (s.setReadData d).err = s.err := rfl
@[simp] theorem State.setReadData_errsticky (d : ReadData) : (s.setReadData d).errsticky = s.errsticky := rfl
@[simp] theorem State.setReadData_errinfo0 (d : ReadData) : (s.setReadData d).errinfo0 = s.errinfo0 := rfl
@[simp] theorem State.setReadData_errinfo1 (d : ReadData) : (s.setReadData d).errinfo1 = s.errinfo1 := rfl
@[simp] theorem State.setReadData_res (d : ReadData) : (s.setReadData d).res = s.res := rfl
@[simp] theorem State.setReadData_shlen (d : ReadData) : (s.setReadData d).shlen = s.shlen := rfl
@[simp] theorem State.setReadData_cfgv (d : ReadData) : (s.setReadData d).cfgv = s.cfgv := rfl
@[simp] theorem State.setReadData_k (d : ReadData) : (s.setReadData d).k = s.k := rfl
@[simp] theorem State.setReadData_m (d : ReadData) : (s.setReadData d).m = s.m := rfl
@[simp] theorem State.setReadData_n (d : ReadData) : (s.setReadData d).n = s.n := rfl
@[simp] theorem State.setReadData_present (d : ReadData) : (s.setReadData d).present = s.present := rfl
@[simp] theorem State.setReadData_shapes (d : ReadData) : (s.setReadData d).shapes = s.shapes := rfl
@[simp] theorem State.setReadData_mat (d : ReadData) : (s.setReadData d).mat = s.mat := rfl
@[simp] theorem State.setReadData_shd (d : ReadData) : (s.setReadData d).shd = s.shd := rfl
@[simp] theorem State.setReadData_pc (d : ReadData) : (s.setReadData d).pc = s.pc := rfl
@[simp] theorem State.setReadData_lmax (d : ReadData) : (s.setReadData d).lmax = s.lmax := rfl
@[simp] theorem State.setReadData_host (d : ReadData) : (s.setReadData d).host = s.host := rfl
@[simp] theorem State.setReadData_readData (d : ReadData) : (s.setReadData d).readData = d := rfl

/-! ### `endNormal` -/

@[simp] theorem State.endNormal_cmdh : s.endNormal.cmdh = s.cmdh := rfl
@[simp] theorem State.endNormal_err : s.endNormal.err = 0 := rfl
@[simp] theorem State.endNormal_errsticky : s.endNormal.errsticky = s.errsticky := rfl
@[simp] theorem State.endNormal_errinfo0 : s.endNormal.errinfo0 = s.errinfo0 := rfl
@[simp] theorem State.endNormal_errinfo1 : s.endNormal.errinfo1 = s.errinfo1 := rfl
@[simp] theorem State.endNormal_res : s.endNormal.res = s.res := rfl
@[simp] theorem State.endNormal_shlen : s.endNormal.shlen = s.shlen := rfl
@[simp] theorem State.endNormal_cfgv : s.endNormal.cfgv = s.cfgv := rfl
@[simp] theorem State.endNormal_k : s.endNormal.k = s.k := rfl
@[simp] theorem State.endNormal_m : s.endNormal.m = s.m := rfl
@[simp] theorem State.endNormal_n : s.endNormal.n = s.n := rfl
@[simp] theorem State.endNormal_present : s.endNormal.present = s.present := rfl
@[simp] theorem State.endNormal_shapes : s.endNormal.shapes = s.shapes := rfl
@[simp] theorem State.endNormal_mat : s.endNormal.mat = s.mat := rfl
@[simp] theorem State.endNormal_shd : s.endNormal.shd = s.shd := rfl
@[simp] theorem State.endNormal_pc : s.endNormal.pc = s.pc + 1 := rfl
@[simp] theorem State.endNormal_lmax : s.endNormal.lmax = s.lmax := rfl
@[simp] theorem State.endNormal_host : s.endNormal.host = s.host := rfl
@[simp] theorem State.endNormal_readData : s.endNormal.readData = s.readData := rfl

/-! ### `endFault` -/

@[simp] theorem State.endFault_cmdh (c : FaultCode) (info0 info1 : Word) : (s.endFault c info0 info1).cmdh = s.cmdh := rfl
@[simp] theorem State.endFault_err (c : FaultCode) (info0 info1 : Word) : (s.endFault c info0 info1).err = c.code := rfl
@[simp] theorem State.endFault_errsticky (c : FaultCode) (info0 info1 : Word) : (s.endFault c info0 info1).errsticky = s.errsticky ||| BitVec.twoPow 32 c.code.toNat := rfl
@[simp] theorem State.endFault_errinfo0 (c : FaultCode) (info0 info1 : Word) : (s.endFault c info0 info1).errinfo0 = info0 := rfl
@[simp] theorem State.endFault_errinfo1 (c : FaultCode) (info0 info1 : Word) : (s.endFault c info0 info1).errinfo1 = info1 := rfl
@[simp] theorem State.endFault_res (c : FaultCode) (info0 info1 : Word) : (s.endFault c info0 info1).res = s.res := rfl
@[simp] theorem State.endFault_shlen (c : FaultCode) (info0 info1 : Word) : (s.endFault c info0 info1).shlen = s.shlen := rfl
@[simp] theorem State.endFault_cfgv (c : FaultCode) (info0 info1 : Word) : (s.endFault c info0 info1).cfgv = s.cfgv := rfl
@[simp] theorem State.endFault_k (c : FaultCode) (info0 info1 : Word) : (s.endFault c info0 info1).k = s.k := rfl
@[simp] theorem State.endFault_m (c : FaultCode) (info0 info1 : Word) : (s.endFault c info0 info1).m = s.m := rfl
@[simp] theorem State.endFault_n (c : FaultCode) (info0 info1 : Word) : (s.endFault c info0 info1).n = s.n := rfl
@[simp] theorem State.endFault_present (c : FaultCode) (info0 info1 : Word) : (s.endFault c info0 info1).present = s.present := rfl
@[simp] theorem State.endFault_shapes (c : FaultCode) (info0 info1 : Word) : (s.endFault c info0 info1).shapes = s.shapes := rfl
@[simp] theorem State.endFault_mat (c : FaultCode) (info0 info1 : Word) : (s.endFault c info0 info1).mat = s.mat := rfl
@[simp] theorem State.endFault_shd (c : FaultCode) (info0 info1 : Word) : (s.endFault c info0 info1).shd = s.shd := rfl
@[simp] theorem State.endFault_pc (c : FaultCode) (info0 info1 : Word) : (s.endFault c info0 info1).pc = s.pc + 1 := rfl
@[simp] theorem State.endFault_lmax (c : FaultCode) (info0 info1 : Word) : (s.endFault c info0 info1).lmax = s.lmax := rfl
@[simp] theorem State.endFault_host (c : FaultCode) (info0 info1 : Word) : (s.endFault c info0 info1).host = s.host := rfl
@[simp] theorem State.endFault_readData (c : FaultCode) (info0 info1 : Word) : (s.endFault c info0 info1).readData = s.readData := rfl

/-! ### `acknowledge` -/

@[simp] theorem State.acknowledge_cmdh (v : Word) : (s.acknowledge v).cmdh = s.cmdh := rfl
@[simp] theorem State.acknowledge_err (v : Word) : (s.acknowledge v).err = s.err := rfl
@[simp] theorem State.acknowledge_errsticky (v : Word) : (s.acknowledge v).errsticky = s.errsticky &&& ~~~v := rfl
@[simp] theorem State.acknowledge_errinfo0 (v : Word) : (s.acknowledge v).errinfo0 = s.errinfo0 := rfl
@[simp] theorem State.acknowledge_errinfo1 (v : Word) : (s.acknowledge v).errinfo1 = s.errinfo1 := rfl
@[simp] theorem State.acknowledge_res (v : Word) : (s.acknowledge v).res = s.res := rfl
@[simp] theorem State.acknowledge_shlen (v : Word) : (s.acknowledge v).shlen = s.shlen := rfl
@[simp] theorem State.acknowledge_cfgv (v : Word) : (s.acknowledge v).cfgv = s.cfgv := rfl
@[simp] theorem State.acknowledge_k (v : Word) : (s.acknowledge v).k = s.k := rfl
@[simp] theorem State.acknowledge_m (v : Word) : (s.acknowledge v).m = s.m := rfl
@[simp] theorem State.acknowledge_n (v : Word) : (s.acknowledge v).n = s.n := rfl
@[simp] theorem State.acknowledge_present (v : Word) : (s.acknowledge v).present = s.present := rfl
@[simp] theorem State.acknowledge_shapes (v : Word) : (s.acknowledge v).shapes = s.shapes := rfl
@[simp] theorem State.acknowledge_mat (v : Word) : (s.acknowledge v).mat = s.mat := rfl
@[simp] theorem State.acknowledge_shd (v : Word) : (s.acknowledge v).shd = s.shd := rfl
@[simp] theorem State.acknowledge_pc (v : Word) : (s.acknowledge v).pc = s.pc := rfl
@[simp] theorem State.acknowledge_lmax (v : Word) : (s.acknowledge v).lmax = s.lmax := rfl
@[simp] theorem State.acknowledge_host (v : Word) : (s.acknowledge v).host = s.host := rfl
@[simp] theorem State.acknowledge_readData (v : Word) : (s.acknowledge v).readData = s.readData := rfl

end Sys2Proof.Machine
end

