-- ==== Sys2Proof/Laws/Memory.lean ====
section
/-! SUPPORT. What a write does to a memory: every byte after it, the canonical form kept, the offsets listed. -/

namespace Sys2Proof.Machine

/-! ### One memory -/

@[simp] theorem Memory.get?_nil (a : Nat) : Memory.get? [] a = none := rfl

theorem Memory.get?_cons (x : Nat) (b : Byte) (mem : Memory) (a : Nat) :
    Memory.get? ((x, b) :: mem) a = if x = a then some b else Memory.get? mem a := rfl

theorem Memory.get?_append (m₁ m₂ : Memory) (a : Nat) :
    Memory.get? (m₁ ++ m₂) a = (Memory.get? m₁ a).or (Memory.get? m₂ a) := by
  induction m₁ with
  | nil => simp
  | cons c m₁ ih =>
    obtain ⟨x, b⟩ := c
    simp only [List.cons_append, Memory.get?_cons, ih]
    split <;> simp

/-- A filter that looks at offsets only keeps the bytes whose offset passes. -/
theorem Memory.get?_filter (p : Nat → Bool) (mem : Memory) (a : Nat) :
    Memory.get? (mem.filter (fun c => p c.1)) a = if p a then Memory.get? mem a else none := by
  induction mem with
  | nil => simp
  | cons c mem ih =>
    obtain ⟨x, b⟩ := c
    by_cases hx : p x
    · simp only [List.filter_cons, hx, if_true, Memory.get?_cons, ih]
      by_cases h : x = a
      · subst h; simp [hx]
      · simp [h]
    · rw [List.filter_cons_of_neg (by simpa using hx), ih, Memory.get?_cons]
      by_cases h : x = a
      · subst h; simp [hx]
      · simp [h]

theorem Memory.get?_run (bytes : List Byte) (base a : Nat) :
    Memory.get? (Memory.run base bytes) a = if base ≤ a then bytes[a - base]? else none := by
  induction bytes generalizing base with
  | nil => simp [Memory.run]
  | cons b bytes ih =>
    simp only [Memory.run, Memory.get?_cons, ih]
    by_cases h : base = a
    · subst h; simp
    · by_cases h2 : base + 1 ≤ a
      · have : a - base = (a - (base + 1)) + 1 := by omega
        simp [h, h2, this, Nat.le_of_succ_le h2]
      · have : ¬ base ≤ a := by omega
        simp [h, h2, this]

/-- The byte at any offset after a write: the run's own byte inside it, the old byte outside. -/
theorem Memory.get?_write (mem : Memory) (base : Nat) (bytes : List Byte) (a : Nat) :
    Memory.get? (mem.write base bytes) a =
      if base ≤ a ∧ a < base + bytes.length then bytes[a - base]? else Memory.get? mem a := by
  have h1 := Memory.get?_filter (fun x => decide (x < base)) mem a
  have h2 := Memory.get?_filter (fun x => decide (base + bytes.length ≤ x)) mem a
  rw [Memory.write, Memory.get?_append, Memory.get?_append, h1, h2, Memory.get?_run]
  by_cases hlt : a < base
  · simp [hlt, Nat.not_le.mpr hlt, show ¬ base + bytes.length ≤ a by omega]
  · by_cases hin : a < base + bytes.length
    · have hb : a - base < bytes.length := by omega
      simp [hlt, hin, Nat.le_of_not_lt hlt, hb]
    · have hb : bytes.length ≤ a - base := by omega
      simp [hlt, hin, Nat.le_of_not_lt hlt, hb, Nat.le_of_not_lt hin]

/-- Every cell of a run lies inside the run. -/
theorem Memory.mem_run {base : Nat} {bytes : List Byte} {c : Host.Cell} (h : c ∈ Memory.run base bytes) :
    base ≤ c.1 ∧ c.1 < base + bytes.length := by
  induction bytes generalizing base with
  | nil => simp [Memory.run] at h
  | cons b bytes ih =>
    simp only [Memory.run, List.mem_cons] at h
    rcases h with rfl | h
    · simp
    · have := ih h
      simp only [List.length_cons]
      omega

theorem Memory.wf_run (base : Nat) (bytes : List Byte) : Memory.wf (Memory.run base bytes) := by
  induction bytes generalizing base with
  | nil => simp [Memory.run]
  | cons b bytes ih =>
    refine List.pairwise_cons.mpr ⟨fun c hc => ?_, ih (base + 1)⟩
    have := Memory.mem_run hc
    simp only
    omega

/-- Every write keeps the canonical form. -/
theorem Memory.wf_write {mem : Memory} (h : mem.wf) (base : Nat) (bytes : List Byte) :
    (mem.write base bytes).wf := by
  refine List.pairwise_append.mpr ⟨h.filter _, List.pairwise_append.mpr ⟨Memory.wf_run _ _, h.filter _, ?_⟩, ?_⟩
  · intro x hx y hy
    have := Memory.mem_run hx
    have hy := (List.mem_filter.mp hy).2
    simp only [decide_eq_true_eq] at hy
    omega
  · intro x hx y hy
    have hx := (List.mem_filter.mp hx).2
    simp only [decide_eq_true_eq] at hx
    rcases List.mem_append.mp hy with hy | hy
    · have := Memory.mem_run hy
      omega
    · have hy := (List.mem_filter.mp hy).2
      simp only [decide_eq_true_eq] at hy
      omega

/-- Every offset listed after a write was listed before or lies in the run written. -/
theorem Memory.mem_write {mem : Memory} {base : Nat} {bytes : List Byte} {c : Host.Cell}
    (h : c ∈ mem.write base bytes) : c ∈ mem ∨ (base ≤ c.1 ∧ c.1 < base + bytes.length) := by
  simp only [Memory.write, List.mem_append, List.mem_filter] at h
  rcases h with h | h | h
  · exact .inl h.1
  · exact .inr (Memory.mem_run h)
  · exact .inl h.1

/-- A write of no byte changes nothing that is read. -/
theorem Memory.get?_write_nil (mem : Memory) (base a : Nat) :
    Memory.get? (mem.write base []) a = Memory.get? mem a := by
  rw [Memory.get?_write, if_neg (by simp)]

/-- In canonical form the head's offset is below every other listed offset. -/
theorem Memory.get?_eq_none_of_lt {mem : Memory} {a : Nat} (h : ∀ c ∈ mem, a < c.1) :
    Memory.get? mem a = none := by
  induction mem with
  | nil => rfl
  | cons c mem ih =>
    obtain ⟨x, b⟩ := c
    have hx : a < x := h (x, b) (by simp)
    rw [Memory.get?_cons, if_neg (by omega)]
    exact ih fun c hc => h c (by simp [hc])

/-- Two memories in canonical form that hold the same bytes are the same list. -/
theorem Memory.eq_of_get?_eq {m₁ m₂ : Memory} (h₁ : m₁.wf) (h₂ : m₂.wf)
    (h : ∀ a, Memory.get? m₁ a = Memory.get? m₂ a) : m₁ = m₂ := by
  induction m₁ generalizing m₂ with
  | nil =>
    cases m₂ with
    | nil => rfl
    | cons c m₂ =>
      obtain ⟨y, b⟩ := c
      simpa [Memory.get?_cons] using h y
  | cons c m₁ ih =>
    obtain ⟨x, b⟩ := c
    have hc := List.pairwise_cons.mp h₁
    cases m₂ with
    | nil => simpa [Memory.get?_cons] using h x
    | cons d m₂ =>
      obtain ⟨y, b'⟩ := d
      have hd := List.pairwise_cons.mp h₂
      have hxy : x = y := by
        rcases Nat.lt_trichotomy x y with hlt | heq | hgt
        · have := Memory.get?_eq_none_of_lt (mem := (y, b') :: m₂) (a := x)
            (by intro c hc; rcases List.mem_cons.mp hc with rfl | hc
                · exact hlt
                · exact Nat.lt_trans hlt (hd.1 c hc))
          rw [← h x, Memory.get?_cons, if_pos rfl] at this
          cases this
        · exact heq
        · have := Memory.get?_eq_none_of_lt (mem := (x, b) :: m₁) (a := y)
            (by intro c hc'; rcases List.mem_cons.mp hc' with rfl | hc'
                · exact hgt
                · exact Nat.lt_trans hgt (hc.1 c hc'))
          rw [h y, Memory.get?_cons, if_pos rfl] at this
          cases this
      subst hxy
      have hb : b = b' := by simpa [Memory.get?_cons] using h x
      subst hb
      congr 1
      refine ih hc.2 hd.2 fun a => ?_
      by_cases hax : x = a
      · subst hax
        rw [Memory.get?_eq_none_of_lt hc.1, Memory.get?_eq_none_of_lt hd.1]
      · simpa [Memory.get?_cons, hax] using h a

/-! ### The two memories of the state -/

/-- A byte of `MAT` depends on the `MAT` list alone. -/
theorem State.matByte_congr {s t : State} (h : t.mat = s.mat) (a : Nat) : t.matByte a = s.matByte a := by
  simp only [State.matByte, h]

/-- A byte of `SHD` depends on the `SHD` list alone. -/
theorem State.shdByte_congr {s t : State} (h : t.shd = s.shd) (a : Nat) : t.shdByte a = s.shdByte a := by
  simp only [State.shdByte, h]

/-- Every byte of `MAT` after a write. -/
theorem State.matByte_writeMat (s : State) (base : Nat) (bytes : List Byte) (a : Nat) :
    (s.writeMat base bytes).matByte a =
      if base ≤ a ∧ a < base + bytes.length then bytes.getD (a - base) 0 else s.matByte a := by
  simp only [State.matByte, State.writeMat_mat, Memory.get?_write]
  split
  · next h =>
    have : a - base < bytes.length := by omega
    simp [List.getD_eq_getElem?_getD, this]
  · rfl

/-- Every byte of `SHD` after a write. -/
theorem State.shdByte_writeShd (s : State) (base : Nat) (bytes : List Byte) (a : Nat) :
    (s.writeShd base bytes).shdByte a =
      if base ≤ a ∧ a < base + bytes.length then bytes.getD (a - base) 0 else s.shdByte a := by
  simp only [State.shdByte, State.writeShd_shd, Memory.get?_write]
  split
  · next h =>
    have : a - base < bytes.length := by omega
    simp [List.getD_eq_getElem?_getD, this]
  · rfl

@[simp] theorem State.shdByte_writeMat (s : State) (base : Nat) (bytes : List Byte) (a : Nat) :
    (s.writeMat base bytes).shdByte a = s.shdByte a := rfl

@[simp] theorem State.matByte_writeShd (s : State) (base : Nat) (bytes : List Byte) (a : Nat) :
    (s.writeShd base bytes).matByte a = s.matByte a := rfl

/-- Reset lists nothing, so its memories are in canonical form. -/
theorem State.reset_wf : State.reset.mat.wf ∧ State.reset.shd.wf := by decide

end Sys2Proof.Machine
end

