-- ==== Sys2Proof/Laws/Ops.lean ====
section
/-! SUPPORT. What the shared operations can do: loops, and the two ways a command ends. -/

namespace Sys2Proof.Machine

@[simp] theorem forRange_zero {σ : Type} (body : Nat → σ → σ) (s : σ) : forRange 0 body s = s := rfl

theorem forRange_succ {σ : Type} (n : Nat) (body : Nat → σ → σ) (s : σ) :
    forRange (n + 1) body s = body n (forRange n body s) := rfl

/-- What holds before a loop and is kept by each pass holds after it. -/
theorem forRange_induction {σ : Type} (P : Nat → σ → Prop) {n : Nat} {body : Nat → σ → σ} {s : σ} (h0 : P 0 s)
    (hstep : ∀ i t, i < n → P i t → P (i + 1) (body i t)) : P n (forRange n body s) := by
  suffices ∀ j, j ≤ n → P j (forRange j body s) from this n (Nat.le_refl n)
  intro j
  induction j with
  | zero => exact fun _ => h0
  | succ j ih => exact fun hj => hstep j _ hj (ih (Nat.le_of_succ_le hj))

/-- A field that no pass changes is unchanged by the loop. -/
theorem forRange_frame {σ τ : Type} (f : σ → τ) {n : Nat} {body : Nat → σ → σ} {s : σ}
    (h : ∀ i t, f (body i t) = f t) : f (forRange n body s) = f s :=
  forRange_induction (fun _ t => f t = f s) rfl (fun i t _ ht => (h i t).trans ht)

@[simp] theorem complete_eq (s : State) : complete s = .next s.endNormal := rfl

@[simp] theorem raise_eq (c : FaultCode) (info0 info1 : Word) (s : State) :
    raise c info0 info1 s = .next (s.endFault c info0 info1) := rfl

@[simp] theorem raiseWord_eq (c : FaultCode) (I : Cmd) (s : State) :
    raiseWord c I s = .next (s.endFault c (cmdLo I) (cmdHi I)) := rfl

@[simp] theorem State.endNormal_matByte (s : State) (a : Nat) : s.endNormal.matByte a = s.matByte a := rfl

@[simp] theorem State.endNormal_shdByte (s : State) (a : Nat) : s.endNormal.shdByte a = s.shdByte a := rfl

@[simp] theorem State.endFault_matByte (s : State) (c : FaultCode) (i0 i1 : Word) (a : Nat) :
    (s.endFault c i0 i1).matByte a = s.matByte a := rfl

@[simp] theorem State.endFault_shdByte (s : State) (c : FaultCode) (i0 i1 : Word) (a : Nat) :
    (s.endFault c i0 i1).shdByte a = s.shdByte a := rfl

/-- The codes of rule R231 are 1 to 8, each fault its own. -/
theorem FaultCode.code_range (c : FaultCode) : 1 ≤ c.code.toNat ∧ c.code.toNat ≤ 8 := by
  cases c <;> decide

theorem FaultCode.code_injective {c d : FaultCode} (h : c.code = d.code) : c = d := by
  cases c <;> cases d <;> first | rfl | (exact absurd h (by decide))

/-- Bit `i` of the `PRESENT` bits after `PRESENT[j] <- 1`. -/
theorem State.isPresent_markPresent (s : State) (i j : Nat) (h : j < 256) :
    (s.markPresent j).isPresent i = (s.isPresent i || decide (i = j)) := by
  simp only [State.isPresent, State.markPresent, State.setPresent_present, BitVec.getLsbD_or, BitVec.getLsbD_twoPow]
  by_cases hij : i = j
  · subst hij; simp [h]
  · simp [hij, Ne.symm hij]

end Sys2Proof.Machine
end

