-- ==== Sys2Proof/Laws/Operands.lean ====
section
/-! SUPPORT. What reading and writing a matrix register, the generator matrix and a shard slot can do. -/

namespace Sys2Proof.Machine

/-! ### Matrix registers -/

theorem State.shape_setShape (s : State) (i j : MReg) (sh : Shape) :
    (s.setShape i sh).shape j = if j = i then sh else s.shape j := by
  simp only [State.shape, State.setShape_shapes, Vector.getElem_set]
  by_cases h : j = i
  · subst h; simp
  · have : ¬ i.val = j.val := fun hv => h (Fin.ext hv.symm)
    simp [h, this]

/-- `wr_mat` writes the counts of its register and of no other. -/
theorem State.shape_wrMat (s : State) (i j : MReg) (A : Mat) :
    (s.wrMat i A).shape j = if j = i then ⟨BitVec.ofNat 9 A.rows, BitVec.ofNat 9 A.cols⟩ else s.shape j :=
  State.shape_setShape s i j _

/-- Every byte of `MAT` after `wr_mat`: the first `rows × cols` bytes of the buffer, and no other. -/
theorem State.matByte_wrMat (s : State) (i : MReg) (A : Mat) (a : Nat) :
    (s.wrMat i A).matByte a =
      if bufAddr i 0 ≤ a ∧ a < bufAddr i 0 + A.rows * A.cols then A.bytes.getD (a - bufAddr i 0) 0
      else s.matByte a := by
  rw [State.wrMat, State.matByte_writeMat, Mat.bytes_length]
  rfl

/-- Element `(r, c)` written by `wr_mat` is in the buffer at `r × cols + c` (rule R12). -/
theorem State.bufByte_wrMat_elem (s : State) (i : MReg) (A : Mat) {r c : Nat} (hr : r < A.rows) (hc : c < A.cols) :
    (s.wrMat i A).bufByte i (r * A.cols + c) = A.get r c := by
  have hlt : r * A.cols + c < A.rows * A.cols := by
    have := Nat.mul_le_mul_right A.cols (Nat.succ_le_of_lt hr)
    rw [Nat.succ_mul] at this
    omega
  rw [State.bufByte, State.matByte_wrMat, if_pos ⟨by simp only [bufAddr]; omega, by simp only [bufAddr]; omega⟩]
  rw [show bufAddr i (r * A.cols + c) - bufAddr i 0 = r * A.cols + c by simp only [bufAddr]; omega]
  exact Mat.bytes_getD A hr hc

/-- `wr_mat` leaves every field but the counts and `MAT` as it was. -/
theorem State.wrMat_frame (s : State) (i : MReg) (A : Mat) :
    s.wrMat i A = { s with shapes := (s.wrMat i A).shapes, mat := (s.wrMat i A).mat } := rfl

@[simp] theorem State.rdMat_rows (s : State) (i : MReg) : (s.rdMat i).rows = (s.shape i).rows.toNat := rfl

@[simp] theorem State.rdMat_cols (s : State) (i : MReg) : (s.rdMat i).cols = (s.shape i).cols.toNat := rfl

/-- Element `(r, c)` read by `rd_mat` (rule R12). -/
theorem State.rdMat_get (s : State) (i : MReg) {r c : Nat} (hr : r < (s.shape i).rows.toNat)
    (hc : c < (s.shape i).cols.toNat) :
    (s.rdMat i).get r c = s.bufByte i (r * (s.shape i).cols.toNat + c) :=
  Mat.get_ofFn _ hr hc

/-- `rd_mat` depends on the counts and the bytes alone. -/
theorem State.rdMat_congr {s t : State} (i : MReg) (hs : t.shape i = s.shape i)
    (hb : ∀ o, o < (s.shape i).rows.toNat * (s.shape i).cols.toNat → t.bufByte i o = s.bufByte i o) :
    t.rdMat i = s.rdMat i := by
  unfold State.rdMat
  rw [hs]
  refine Mat.ofFn_congr fun r c hr hc => hb _ ?_
  have := Nat.mul_le_mul_right (s.shape i).cols.toNat (Nat.succ_le_of_lt hr)
  rw [Nat.succ_mul] at this
  omega

/-! ### The generator matrix -/

/-- Every byte of `MAT` after the generator matrix is written. -/
theorem State.matByte_wrGen (s : State) (G : Mat) (a : Nat) :
    (s.wrGen G).matByte a =
      if Config.genBase ≤ a ∧ a < Config.genBase + G.rows * G.cols then G.bytes.getD (a - Config.genBase) 0
      else s.matByte a := by
  rw [State.wrGen, State.matByte_writeMat, Mat.bytes_length]

theorem State.wrGen_frame (s : State) (G : Mat) : s.wrGen G = { s with mat := (s.wrGen G).mat } := rfl

/-! ### Shard slots -/

@[simp] theorem State.slotBytes_length (s : State) (sl len : Nat) : (s.slotBytes sl len).length = len := by
  simp [State.slotBytes]

theorem State.slotBytes_getD (s : State) (sl : Nat) {len b : Nat} (h : b < len) :
    (s.slotBytes sl len).getD b 0 = s.slotByte sl b := by
  simp [State.slotBytes, List.getD_eq_getElem?_getD, h]

/-- Bytes of two slots lie apart: a byte index below `LMAX` and the offset decide the slot (rule R63). -/
theorem State.slotAddr_inj (s : State) {sl sl' b b' : Nat} (hb : b < s.lmax) (hb' : b' < s.lmax)
    (h : s.slotAddr sl b = s.slotAddr sl' b') : sl = sl' ∧ b = b' := by
  have hpos : 0 < s.lmax := by omega
  simp only [State.slotAddr] at h
  have h1 : (sl * s.lmax + b) / s.lmax = sl := by
    rw [Nat.mul_comm, Nat.mul_add_div hpos, Nat.div_eq_of_lt hb, Nat.add_zero]
  have h2 : (sl' * s.lmax + b') / s.lmax = sl' := by
    rw [Nat.mul_comm, Nat.mul_add_div hpos, Nat.div_eq_of_lt hb', Nat.add_zero]
  have hs : sl = sl' := by rw [← h1, ← h2, h]
  subst hs
  exact ⟨rfl, by omega⟩

/-- Every byte of `SHD` after bytes `[0, len)` of a slot are written. -/
theorem State.shdByte_writeSlot (s : State) (sl : Nat) (bytes : List Byte) (a : Nat) :
    (s.writeSlot sl bytes).shdByte a =
      if s.slotAddr sl 0 ≤ a ∧ a < s.slotAddr sl 0 + bytes.length then bytes.getD (a - s.slotAddr sl 0) 0
      else s.shdByte a :=
  State.shdByte_writeShd s _ bytes a

/-- Writing a slot changes its own bytes `[0, len)` and no byte of any slot beside. -/
theorem State.slotByte_writeSlot (s : State) (sl sl' : Nat) (bytes : List Byte) {b : Nat}
    (hlen : bytes.length ≤ s.lmax) (hb : b < s.lmax) :
    (s.writeSlot sl bytes).slotByte sl' b =
      if sl' = sl ∧ b < bytes.length then bytes.getD b 0 else s.slotByte sl' b := by
  have haddr : (s.writeSlot sl bytes).slotAddr sl' b = s.slotAddr sl' b := rfl
  rw [State.slotByte, haddr, State.shdByte_writeSlot]
  by_cases h : sl' = sl
  · subst h
    have hsub : s.slotAddr sl' b - s.slotAddr sl' 0 = b := by simp only [State.slotAddr]; omega
    have hiff : (s.slotAddr sl' 0 ≤ s.slotAddr sl' b ∧ s.slotAddr sl' b < s.slotAddr sl' 0 + bytes.length) ↔
        b < bytes.length := by simp only [State.slotAddr]; omega
    simp only [hiff, hsub, true_and, State.slotByte]
  · have hout : ¬ (s.slotAddr sl 0 ≤ s.slotAddr sl' b ∧ s.slotAddr sl' b < s.slotAddr sl 0 + bytes.length) := by
      rintro ⟨h1, h2⟩
      have hk : s.slotAddr sl' b = s.slotAddr sl (s.slotAddr sl' b - s.slotAddr sl 0) := by
        simp only [State.slotAddr] at h1 ⊢; omega
      exact h (s.slotAddr_inj hb (by omega) hk).1
    rw [if_neg hout, if_neg fun hh => h hh.1]
    rfl

/-- `add_scaled` between two slots (rule R180): lane by lane on the destination, every other byte as before. -/
theorem State.slotByte_addScaledSlot (s : State) (sd ss sl : Nat) (c : Byte) {len b : Nat} (hlen : len ≤ s.lmax)
    (hb : b < s.lmax) :
    (s.addScaledSlot sd ss c len).slotByte sl b =
      if sl = sd ∧ b < len then gfAdd (s.slotByte sd b) (gfMul c (s.slotByte ss b)) else s.slotByte sl b := by
  rw [State.addScaledSlot, State.slotByte_writeSlot _ _ _ _ (by simpa using hlen) hb]
  simp only [addScaled_length, State.slotBytes_length, Nat.min_self]
  split
  · next h => rw [addScaled_getD c (by simpa using h.2) (by simpa using h.2), State.slotBytes_getD _ _ h.2,
      State.slotBytes_getD _ _ h.2]
  · rfl

/-- Every byte of `SHD` outside bytes `[0, len)` of the destination is as before. -/
theorem State.shdByte_addScaledSlot_of_outside (s : State) (sd ss : Nat) (c : Byte) (len a : Nat)
    (h : ¬ (s.slotAddr sd 0 ≤ a ∧ a < s.slotAddr sd 0 + len)) :
    (s.addScaledSlot sd ss c len).shdByte a = s.shdByte a := by
  rw [State.addScaledSlot, State.shdByte_writeSlot, if_neg]
  simpa using h

/-- Writing a slot changes no field but `SHD`. -/
theorem State.writeSlot_frame (s : State) (sl : Nat) (bytes : List Byte) :
    s.writeSlot sl bytes = { s with shd := (s.writeSlot sl bytes).shd } := rfl

theorem State.addScaledSlot_frame (s : State) (sd ss : Nat) (c : Byte) (len : Nat) :
    s.addScaledSlot sd ss c len = { s with shd := (s.addScaledSlot sd ss c len).shd } := rfl

end Sys2Proof.Machine
end

