-- ==== Sys2Proof/Laws/Coder.lean ====
section
/-! SUPPORT. What the coder's operations can do, and their words as the statements write them. -/

namespace Sys2Proof.Machine

/-- Fault entry as the statements write it. -/
theorem State.endFault_eq_faulted (s : State) (c : FaultCode) (info0 info1 : Word) :
    s.endFault c info0 info1 = s.faulted c.code.toNat info0 info1 := by
  cases c <;> simp [State.endFault, State.faulted, FaultCode.code, BitVec.twoPow]

theorem State.shlenTooLong_eq_false_iff (s : State) : s.shlenTooLong = false ↔ s.shlen.toNat ≤ s.lmax :=
  decide_eq_false_iff_not.trans Nat.not_lt

theorem State.shlenTooLong_eq_true_iff (s : State) : s.shlenTooLong = true ↔ s.lmax < s.shlen.toNat :=
  decide_eq_true_iff

theorem State.missing_length (s : State) : s.missing.length = s.numMissing := by
  simp [State.missing, State.numMissing, List.countP_eq_length_filter]

theorem State.presentSlots_length (s : State) : s.presentSlots.length = s.numPresent := by
  simp [State.presentSlots, State.numPresent, List.countP_eq_length_filter]

theorem State.mem_missing (s : State) (i : Nat) : i ∈ s.missing ↔ i < s.k.toNat ∧ s.isPresent i = false := by
  simp [State.missing]

/-- The states differ in `SHD` at most. -/
def SameButShd (s t : State) : Prop := t = { s with shd := t.shd }

theorem SameButShd.refl (s : State) : SameButShd s s := rfl

theorem SameButShd.trans {s t u : State} (h : SameButShd s t) (h' : SameButShd t u) : SameButShd s u := by
  unfold SameButShd at *
  rw [h', h]

theorem sameButShd_addScaledSlot (s : State) (sd ss : Nat) (c : Byte) (len : Nat) :
    SameButShd s (s.addScaledSlot sd ss c len) := rfl

/-- Accumulating one parity shard changes `SHD` alone. -/
theorem sameButShd_encodeRow (s : State) (j : Nat) : SameButShd s (s.encodeRow j) :=
  forRange_induction (fun _ t => SameButShd s t) (.refl s) (fun _ _ _ h => h.trans (sameButShd_addScaledSlot _ _ _ _ _))

/-- ENCODE's loops change `SHD` alone. -/
theorem sameButShd_encodeAll (s : State) : SameButShd s s.encodeAll :=
  forRange_induction (fun _ t => SameButShd s t) (.refl s) (fun _ _ _ h => h.trans (sameButShd_encodeRow _ _))

/-- Every byte of every slot after parity shard `j` is accumulated (rule R195). -/
theorem State.slotByte_encodeRow (s : State) (j sl : Nat) {b : Nat} (hl : s.shlen.toNat ≤ s.lmax) (hb : b < s.lmax) :
    (s.encodeRow j).slotByte sl b =
      if sl = s.k.toNat + j ∧ b < s.shlen.toNat then
        gfAdd (s.slotByte sl b) (gfSum s.k.toNat (fun i => gfMul (s.genElem (s.k.toNat + j) i) (s.slotByte i b)))
      else s.slotByte sl b := by
  have main := forRange_induction (n := s.k.toNat) (s := s)
    (body := fun i t => t.addScaledSlot (s.k.toNat + j) i (s.genElem (s.k.toNat + j) i) s.shardLen)
    (fun n t => SameButShd s t ∧ ∀ sl b, b < s.lmax → t.slotByte sl b =
      if sl = s.k.toNat + j ∧ b < s.shlen.toNat then
        gfAdd (s.slotByte sl b) (gfSum n (fun i => gfMul (s.genElem (s.k.toNat + j) i) (s.slotByte i b)))
      else s.slotByte sl b)
    ⟨.refl s, fun sl b _ => by simp [gfAdd]⟩ ?_
  · exact main.2 sl b hb
  · rintro i t hi ⟨ho, ht⟩
    have hlm : t.lmax = s.lmax := by rw [ho]
    refine ⟨ho.trans (sameButShd_addScaledSlot _ _ _ _ _), fun sl b hb => ?_⟩
    rw [State.slotByte_addScaledSlot _ _ _ _ _ (by rw [hlm]; exact hl) (by omega), ht _ _ hb, ht _ _ hb, ht _ _ hb]
    by_cases h : sl = s.k.toNat + j ∧ b < s.shlen.toNat
    · obtain ⟨rfl, h2⟩ := h
      simp [State.shardLen, h2, gfSum_succ, gfAdd, BitVec.xor_assoc, show i ≠ s.k.toNat + j by omega]
    · simp [State.shardLen, h]

end Sys2Proof.Machine
end

