-- ==== Sys2Proof/Laws/Fields.lean ====
section
/-! SUPPORT. The bits of the two formats, each field holding what the format put there (rules R92, R93), and the halves of a word (rule R91). -/

namespace Sys2Proof

/-- Bit `i` of a format B word (rule R92). -/
theorem getLsbD_formatB (op b0 b1 b2 : Byte) (w : Word) (i : Nat) :
    (formatB op b0 b1 b2 w).getLsbD i =
      if i < 8 then op.getLsbD i else if i < 16 then b0.getLsbD (i - 8) else if i < 24 then b1.getLsbD (i - 16)
      else if i < 32 then b2.getLsbD (i - 24) else w.getLsbD (i - 32) := by
  have h1 : (formatB op b0 b1 b2 w).getLsbD i =
      if i < 32 then (b2 ++ (b1 ++ (b0 ++ op)) : BitVec 32).getLsbD i else w.getLsbD (i - 32) :=
    BitVec.getLsbD_append
  have h2 : (b2 ++ (b1 ++ (b0 ++ op)) : BitVec 32).getLsbD i =
      if i < 24 then (b1 ++ (b0 ++ op) : BitVec 24).getLsbD i else b2.getLsbD (i - 24) := BitVec.getLsbD_append
  have h3 : (b1 ++ (b0 ++ op) : BitVec 24).getLsbD i =
      if i < 16 then (b0 ++ op : BitVec 16).getLsbD i else b1.getLsbD (i - 16) := BitVec.getLsbD_append
  have h4 : (b0 ++ op : BitVec 16).getLsbD i = if i < 8 then op.getLsbD i else b0.getLsbD (i - 8) :=
    BitVec.getLsbD_append
  rw [h1, h2, h3, h4]
  split_ifs <;> first | rfl | omega

/-- Bit `i` of the high half of a format M word (rule R93). -/
theorem getLsbD_formatM_hi (p1 p2 p3 : BitVec 9) (i : Nat) :
    (0#5 ++ (p3 ++ (p2 ++ p1)) : BitVec 32).getLsbD i =
      if i < 9 then p1.getLsbD i else if i < 18 then p2.getLsbD (i - 9) else if i < 27 then p3.getLsbD (i - 18)
      else false := by
  have h1 : (0#5 ++ (p3 ++ (p2 ++ p1)) : BitVec 32).getLsbD i =
      if i < 27 then (p3 ++ (p2 ++ p1) : BitVec 27).getLsbD i else (0#5).getLsbD (i - 27) := BitVec.getLsbD_append
  have h2 : (p3 ++ (p2 ++ p1) : BitVec 27).getLsbD i =
      if i < 18 then (p2 ++ p1 : BitVec 18).getLsbD i else p3.getLsbD (i - 18) := BitVec.getLsbD_append
  have h3 : (p2 ++ p1 : BitVec 18).getLsbD i = if i < 9 then p1.getLsbD i else p2.getLsbD (i - 9) :=
    BitVec.getLsbD_append
  rw [h1, h2, h3, BitVec.getLsbD_zero]
  split_ifs <;> first | rfl | omega

/-- Bit `i` of the low half of a format M word (rule R93). -/
theorem getLsbD_formatM_lo (op : Byte) (md ma mb : BitVec 3) (p0 : BitVec 9) (i : Nat) :
    (0#6 ++ (p0 ++ (mb ++ (ma ++ (md ++ op)))) : BitVec 32).getLsbD i =
      if i < 8 then op.getLsbD i else if i < 11 then md.getLsbD (i - 8) else if i < 14 then ma.getLsbD (i - 11)
      else if i < 17 then mb.getLsbD (i - 14) else if i < 26 then p0.getLsbD (i - 17) else false := by
  have h1 : (0#6 ++ (p0 ++ (mb ++ (ma ++ (md ++ op)))) : BitVec 32).getLsbD i =
      if i < 26 then (p0 ++ (mb ++ (ma ++ (md ++ op))) : BitVec 26).getLsbD i else (0#6).getLsbD (i - 26) :=
    BitVec.getLsbD_append
  have h2 : (p0 ++ (mb ++ (ma ++ (md ++ op))) : BitVec 26).getLsbD i =
      if i < 17 then (mb ++ (ma ++ (md ++ op)) : BitVec 17).getLsbD i else p0.getLsbD (i - 17) :=
    BitVec.getLsbD_append
  have h3 : (mb ++ (ma ++ (md ++ op)) : BitVec 17).getLsbD i =
      if i < 14 then (ma ++ (md ++ op) : BitVec 14).getLsbD i else mb.getLsbD (i - 14) := BitVec.getLsbD_append
  have h4 : (ma ++ (md ++ op) : BitVec 14).getLsbD i =
      if i < 11 then (md ++ op : BitVec 11).getLsbD i else ma.getLsbD (i - 11) := BitVec.getLsbD_append
  have h5 : (md ++ op : BitVec 11).getLsbD i = if i < 8 then op.getLsbD i else md.getLsbD (i - 8) :=
    BitVec.getLsbD_append
  rw [h1, h2, h3, h4, h5, BitVec.getLsbD_zero]
  split_ifs <;> first | rfl | omega

/-- Bit `i` of a format M word (rule R93). -/
theorem getLsbD_formatM (op : Byte) (md ma mb : BitVec 3) (p0 p1 p2 p3 : BitVec 9) (i : Nat) :
    (formatM op md ma mb p0 p1 p2 p3).getLsbD i =
      if i < 8 then op.getLsbD i else if i < 11 then md.getLsbD (i - 8) else if i < 14 then ma.getLsbD (i - 11)
      else if i < 17 then mb.getLsbD (i - 14) else if i < 26 then p0.getLsbD (i - 17) else if i < 32 then false
      else if i < 41 then p1.getLsbD (i - 32) else if i < 50 then p2.getLsbD (i - 41)
      else if i < 59 then p3.getLsbD (i - 50) else false := by
  have h : (formatM op md ma mb p0 p1 p2 p3).getLsbD i =
      if i < 32 then (0#6 ++ (p0 ++ (mb ++ (ma ++ (md ++ op)))) : BitVec 32).getLsbD i
      else (0#5 ++ (p3 ++ (p2 ++ p1)) : BitVec 32).getLsbD (i - 32) := BitVec.getLsbD_append
  rw [h, getLsbD_formatM_hi, getLsbD_formatM_lo]
  by_cases h32 : i < 32
  · simp only [h32, if_true]
  · have e1 : (i - 32 < 9) = (i < 41) := propext (by omega)
    have e2 : (i - 32 < 18) = (i < 50) := propext (by omega)
    have e3 : (i - 32 < 27) = (i < 59) := propext (by omega)
    simp only [h32, if_false, e1, e2, e3, show i - 32 - 9 = i - 41 by omega, show i - 32 - 18 = i - 50 by omega,
      show ¬ i < 8 by omega, show ¬ i < 11 by omega, show ¬ i < 14 by omega, show ¬ i < 17 by omega,
      show ¬ i < 26 by omega]

/-- Bit `i` of an issued word (rule R91). -/
theorem getLsbD_cmdOf (hi lo : Word) (i : Nat) :
    (cmdOf hi lo).getLsbD i = if i < 32 then lo.getLsbD i else hi.getLsbD (i - 32) :=
  BitVec.getLsbD_append

/-! ### The fields of format B -/

theorem fieldB0_formatB (op b0 b1 b2 : Byte) (w : Word) : fieldB0 (formatB op b0 b1 b2 w) = b0 := by
  refine BitVec.eq_of_getLsbD_eq fun i hi => ?_
  rw [fieldB0, BitVec.getLsbD_extractLsb', getLsbD_formatB]
  simp [hi, show ¬ (8 + i < 8) by omega, show 8 + i < 16 by omega]

theorem fieldB1_formatB (op b0 b1 b2 : Byte) (w : Word) : fieldB1 (formatB op b0 b1 b2 w) = b1 := by
  refine BitVec.eq_of_getLsbD_eq fun i hi => ?_
  rw [fieldB1, BitVec.getLsbD_extractLsb', getLsbD_formatB]
  simp [hi, show ¬ (16 + i < 8) by omega, show 16 + i < 24 by omega]

theorem fieldB2_formatB (op b0 b1 b2 : Byte) (w : Word) : fieldB2 (formatB op b0 b1 b2 w) = b2 := by
  refine BitVec.eq_of_getLsbD_eq fun i hi => ?_
  rw [fieldB2, BitVec.getLsbD_extractLsb', getLsbD_formatB]
  simp [hi, show ¬ (24 + i < 8) by omega, show ¬ (24 + i < 16) by omega, show 24 + i < 32 by omega]

theorem fieldW_formatB (op b0 b1 b2 : Byte) (w : Word) : fieldW (formatB op b0 b1 b2 w) = w := by
  refine BitVec.eq_of_getLsbD_eq fun i hi => ?_
  rw [fieldW, BitVec.getLsbD_extractLsb', getLsbD_formatB]
  simp [hi, show ¬ (32 + i < 8) by omega, show ¬ (32 + i < 16) by omega, show ¬ (32 + i < 24) by omega]

/-! ### The fields of format M -/

theorem extract_md_formatM (op : Byte) (md ma mb : BitVec 3) (p0 p1 p2 p3 : BitVec 9) :
    (formatM op md ma mb p0 p1 p2 p3).extractLsb' 8 3 = md := by
  refine BitVec.eq_of_getLsbD_eq fun i hi => ?_
  rw [BitVec.getLsbD_extractLsb', getLsbD_formatM]
  simp [hi, show ¬ (8 + i < 8) by omega, show 8 + i < 11 by omega]

theorem extract_ma_formatM (op : Byte) (md ma mb : BitVec 3) (p0 p1 p2 p3 : BitVec 9) :
    (formatM op md ma mb p0 p1 p2 p3).extractLsb' 11 3 = ma := by
  refine BitVec.eq_of_getLsbD_eq fun i hi => ?_
  rw [BitVec.getLsbD_extractLsb', getLsbD_formatM]
  simp [hi, show ¬ (11 + i < 8) by omega, show 11 + i < 14 by omega]

theorem extract_mb_formatM (op : Byte) (md ma mb : BitVec 3) (p0 p1 p2 p3 : BitVec 9) :
    (formatM op md ma mb p0 p1 p2 p3).extractLsb' 14 3 = mb := by
  refine BitVec.eq_of_getLsbD_eq fun i hi => ?_
  rw [BitVec.getLsbD_extractLsb', getLsbD_formatM]
  simp [hi, show ¬ (14 + i < 8) by omega, show ¬ (14 + i < 11) by omega, show 14 + i < 17 by omega]

theorem extract_p0_formatM (op : Byte) (md ma mb : BitVec 3) (p0 p1 p2 p3 : BitVec 9) :
    (formatM op md ma mb p0 p1 p2 p3).extractLsb' 17 9 = p0 := by
  refine BitVec.eq_of_getLsbD_eq fun i hi => ?_
  rw [BitVec.getLsbD_extractLsb', getLsbD_formatM]
  simp [hi, show ¬ (17 + i < 8) by omega, show ¬ (17 + i < 11) by omega, show ¬ (17 + i < 14) by omega,
    show 17 + i < 26 by omega]

theorem extract_p1_formatM (op : Byte) (md ma mb : BitVec 3) (p0 p1 p2 p3 : BitVec 9) :
    (formatM op md ma mb p0 p1 p2 p3).extractLsb' 32 9 = p1 := by
  refine BitVec.eq_of_getLsbD_eq fun i hi => ?_
  rw [BitVec.getLsbD_extractLsb', getLsbD_formatM]
  simp [hi, show ¬ (32 + i < 8) by omega, show ¬ (32 + i < 11) by omega, show ¬ (32 + i < 14) by omega,
    show ¬ (32 + i < 17) by omega, show ¬ (32 + i < 26) by omega, show 32 + i < 41 by omega]

theorem extract_p2_formatM (op : Byte) (md ma mb : BitVec 3) (p0 p1 p2 p3 : BitVec 9) :
    (formatM op md ma mb p0 p1 p2 p3).extractLsb' 41 9 = p2 := by
  refine BitVec.eq_of_getLsbD_eq fun i hi => ?_
  rw [BitVec.getLsbD_extractLsb', getLsbD_formatM]
  simp [hi, show ¬ (41 + i < 8) by omega, show ¬ (41 + i < 11) by omega, show ¬ (41 + i < 14) by omega,
    show ¬ (41 + i < 17) by omega, show ¬ (41 + i < 26) by omega, show ¬ (41 + i < 32) by omega,
    show 41 + i < 50 by omega]

theorem extract_p3_formatM (op : Byte) (md ma mb : BitVec 3) (p0 p1 p2 p3 : BitVec 9) :
    (formatM op md ma mb p0 p1 p2 p3).extractLsb' 50 9 = p3 := by
  refine BitVec.eq_of_getLsbD_eq fun i hi => ?_
  rw [BitVec.getLsbD_extractLsb', getLsbD_formatM]
  simp [hi, show ¬ (50 + i < 8) by omega, show ¬ (50 + i < 11) by omega, show ¬ (50 + i < 14) by omega,
    show ¬ (50 + i < 17) by omega, show ¬ (50 + i < 26) by omega, show ¬ (50 + i < 32) by omega,
    show ¬ (50 + i < 41) by omega, show 50 + i < 59 by omega]

/-! ### The halves of a word -/

/-- The word the host issues is the two halves it wrote (rule R91). -/
theorem cmdOf_halves (I : Cmd) : cmdOf (cmdHi I) (cmdLo I) = I := by
  refine BitVec.eq_of_getLsbD_eq fun i hi => ?_
  rw [getLsbD_cmdOf, cmdHi, cmdLo, BitVec.getLsbD_extractLsb', BitVec.getLsbD_extractLsb']
  by_cases h : i < 32
  · simp [h]
  · simp [h, show i - 32 < 32 by omega, show 32 + (i - 32) = i by omega]

theorem cmdLo_cmdOf (hi lo : Word) : cmdLo (cmdOf hi lo) = lo := by
  refine BitVec.eq_of_getLsbD_eq fun i h => ?_
  rw [cmdLo, BitVec.getLsbD_extractLsb', getLsbD_cmdOf]
  simp [h]

theorem cmdHi_cmdOf (hi lo : Word) : cmdHi (cmdOf hi lo) = hi := by
  refine BitVec.eq_of_getLsbD_eq fun i h => ?_
  rw [cmdHi, BitVec.getLsbD_extractLsb', getLsbD_cmdOf]
  simp [h]

end Sys2Proof
end

