-- ==== Sys2Proof/Laws/Flags.lean ====
section
/-! SUPPORT. The bits of the status words, and the index of a register in its bank. -/

namespace Sys2Proof.Machine

/-- A register of a bank has its own number as index. -/
theorem bankIndex_of_eq {base off : Nat} (i : MReg) (h : off = base + 4 * i.val) (hb : base % 4 = 0) :
    bankIndex base off = some i := by
  have := i.isLt
  rw [bankIndex, dif_pos (by omega)]
  congr 1
  apply Fin.ext
  simp only
  omega

/-- An offset outside the bank has no index. -/
theorem bankIndex_of_outside {base off : Nat} (h : off < base ∨ base + 32 ≤ off) : bankIndex base off = none := by
  rw [bankIndex, dif_neg (by omega)]

/-- The bits of `STATUS` (rule R34). -/
theorem State.getLsbD_statusWord (s : State) (j : Nat) : s.statusWord.getLsbD j =
    ((decide (j = 1) && s.cfgv) || (decide (8 ≤ j ∧ j < 12) && s.err.getLsbD (j - 8))) := by
  have h1 : s.statusWord.getLsbD j =
      if j < 12 then (s.err ++ (0#6 ++ (BitVec.ofBool s.cfgv ++ 0#1)) : BitVec 12).getLsbD j
      else (0#20).getLsbD (j - 12) := BitVec.getLsbD_append
  have h2 : (s.err ++ (0#6 ++ (BitVec.ofBool s.cfgv ++ 0#1)) : BitVec 12).getLsbD j =
      if j < 8 then (0#6 ++ (BitVec.ofBool s.cfgv ++ 0#1) : BitVec 8).getLsbD j
      else s.err.getLsbD (j - 8) := BitVec.getLsbD_append
  have h3 : (0#6 ++ (BitVec.ofBool s.cfgv ++ 0#1) : BitVec 8).getLsbD j =
      if j < 2 then (BitVec.ofBool s.cfgv ++ 0#1 : BitVec 2).getLsbD j
      else (0#6).getLsbD (j - 2) := BitVec.getLsbD_append
  have h4 : (BitVec.ofBool s.cfgv ++ 0#1 : BitVec 2).getLsbD j =
      if j < 1 then (0#1).getLsbD j else (BitVec.ofBool s.cfgv).getLsbD (j - 1) := BitVec.getLsbD_append
  rw [h1, h2, h3, h4]
  by_cases a : j < 12
  · interval_cases j <;> simp
  · simp [a, show ¬ j = 1 by omega]

/-- The bits of `ERRSTICKY` as the host reads it (rule R35). -/
theorem State.getLsbD_stickyWord (s : State) (j : Nat) :
    s.stickyWord.getLsbD j = (decide (1 ≤ j ∧ j ≤ 8) && s.errsticky.getLsbD j) := by
  rw [State.stickyWord, BitVec.getLsbD_and, Bool.and_comm]
  congr 1
  by_cases a : j < 32
  · interval_cases j <;> rfl
  · rw [BitVec.getLsbD_of_ge _ _ (by omega), decide_eq_false (by omega)]

/-- The value of `MSHAPEi` (rule R26). -/
theorem shapeWord_toNat (sh : Shape) : (shapeWord sh).toNat = sh.rows.toNat + sh.cols.toNat * 65536 := by
  have h : (shapeWord sh).toNat =
      ((0#7).toNat <<< 25) ||| ((sh.cols.toNat <<< 16) ||| (((0#7).toNat <<< 9) ||| sh.rows.toNat)) := by
    simp only [shapeWord, BitVec.toNat_append]
  have hr := sh.rows.isLt
  have h16 := Nat.shiftLeft_add_eq_or_of_lt (b := sh.rows.toNat) (i := 16) (by omega) sh.cols.toNat
  rw [h]
  simp only [BitVec.toNat_ofNat, Nat.zero_mod, Nat.zero_shiftLeft, Nat.zero_or]
  rw [← h16, Nat.shiftLeft_eq]
  omega

/-- The bits of `PRESENTi` (rule R29). -/
theorem State.getLsbD_presentWord (s : State) (i : Nat) {j : Nat} (hj : j < 32) :
    (s.presentWord i).getLsbD j = s.isPresent (32 * i + j) := by
  simp [State.presentWord, State.isPresent, hj]

/-- The `PRESENT` bits after a write to `PRESENTi`: its own 32 as written, every other as before (rule R29). -/
theorem State.getLsbD_presentWith (s : State) {i i' j : Nat} (hi' : i' < 8) (hj : j < 32) (v : Word) :
    (s.presentWith i v).getLsbD (32 * i' + j) =
      if i' = i then v.getLsbD j else s.isPresent (32 * i' + j) := by
  have ones : ∀ k, (0xFFFFFFFF#256).getLsbD k = decide (k < 32) := by
    intro k
    by_cases hk : k < 32
    · interval_cases k <;> decide
    · rw [decide_eq_false hk, ← BitVec.testBit_toNat]
      exact Nat.testBit_lt_two_pow
        (Nat.lt_of_lt_of_le (by decide : (0xFFFFFFFF#256).toNat < 2 ^ 32) (Nat.pow_le_pow_right (by omega) (by omega)))
  unfold State.presentWith State.isPresent
  simp only [BitVec.getLsbD_or, BitVec.getLsbD_and, BitVec.getLsbD_not, BitVec.getLsbD_shiftLeft,
    BitVec.getLsbD_setWidth, ones]
  by_cases h : i' = i
  · subst h
    simp [hj, show 32 * i' + j < 256 by omega, show j < 256 by omega]
  · by_cases hlt : 32 * i' + j < 32 * i
    · simp [hlt, h, show 32 * i' + j < 256 by omega]
    · have hge : ¬ 32 * i' + j - 32 * i < 32 := by omega
      rw [BitVec.getLsbD_of_ge v _ (by omega)]
      simp [hge, hlt, h, show 32 * i' + j < 256 by omega]

end Sys2Proof.Machine
end

