-- ==== Sys2Proof/Laws/PerInstr.lean ====
section
/-! SUPPORT. A family of statements about every command as syntax: its encoding matches its own row of the table of rule R96. -/

namespace Sys2Proof.Laws.EncodeMatches

/-- The mnemonic of a command (rule R95). -/
def opOf : Instr → Op
  | .gfmul _ _ => .gfmul
  | .gfpow _ _ => .gfpow
  | .gfinv _ => .gfinv
  | .gflog _ => .gflog
  | .gfexp _ => .gfexp
  | .vand _ _ _ => .vand
  | .subm _ _ _ _ _ _ => .subm
  | .minv _ _ => .minv
  | .mmul _ _ _ => .mmul
  | .addsv _ _ _ => .addsv
  | .init _ _ => .init
  | .encode => .encode
  | .recon => .recon

/-- The word of a command matches the row of its mnemonic: opcode right, every must-be-zero bit 0 (rules R95, R96). -/
def Statement (i : Instr) : Prop := ∃ r ∈ opRows, r.op = opOf i ∧ r.matches (encode i) = true

/-- A word matches a row when its bits under the mask are the row's. -/
theorem matches_of_bits {r : OpRow} {I : Cmd}
    (h : ∀ j, j < 64 → (I.getLsbD j && r.mask.getLsbD j) = r.pattern.getLsbD j) : r.matches I = true := by
  simp only [OpRow.matches, beq_iff_eq]
  exact BitVec.eq_of_getLsbD_eq fun j hj => by rw [BitVec.getLsbD_and]; exact h j hj

theorem gfmul (a b : Byte) : Statement (.gfmul a b) := by
  refine ⟨⟨.gfmul, 0x0000000000000010, 0xFFFFFFFFFF0000FF⟩, by decide, rfl, matches_of_bits fun j hj => ?_⟩
  rw [encode, getLsbD_formatB]
  interval_cases j <;> simp

theorem gfpow (a : Byte) (n : Nat) : Statement (.gfpow a n) := by
  refine ⟨⟨.gfpow, 0x0000000000000011, 0x00000000FFFF00FF⟩, by decide, rfl, matches_of_bits fun j hj => ?_⟩
  rw [encode, getLsbD_formatB]
  interval_cases j <;> simp

theorem gfinv (a : Byte) : Statement (.gfinv a) := by
  refine ⟨⟨.gfinv, 0x0000000000000012, 0xFFFFFFFFFFFF00FF⟩, by decide, rfl, matches_of_bits fun j hj => ?_⟩
  rw [encode, getLsbD_formatB]
  interval_cases j <;> simp

theorem gflog (a : Byte) : Statement (.gflog a) := by
  refine ⟨⟨.gflog, 0x0000000000000013, 0xFFFFFFFFFFFF00FF⟩, by decide, rfl, matches_of_bits fun j hj => ?_⟩
  rw [encode, getLsbD_formatB]
  interval_cases j <;> simp

theorem gfexp (i : Byte) : Statement (.gfexp i) := by
  refine ⟨⟨.gfexp, 0x0000000000000014, 0xFFFFFFFFFFFF00FF⟩, by decide, rfl, matches_of_bits fun j hj => ?_⟩
  rw [encode, getLsbD_formatB]
  interval_cases j <;> simp

theorem vand (md : MReg) (rows cols : Nat) : Statement (.vand md rows cols) := by
  refine ⟨⟨.vand, 0x0000000000000020, 0xFFFFFE00FC01F8FF⟩, by decide, rfl, matches_of_bits fun j hj => ?_⟩
  rw [encode, getLsbD_formatM]
  interval_cases j <;> simp

theorem subm (md ms : MReg) (xmin ymin xmax ymax : Nat) : Statement (.subm md ms xmin ymin xmax ymax) := by
  refine ⟨⟨.subm, 0x0000000000000021, 0xF8000000FC01C0FF⟩, by decide, rfl, matches_of_bits fun j hj => ?_⟩
  rw [encode, getLsbD_formatM]
  interval_cases j <;> simp

theorem minv (md ms : MReg) : Statement (.minv md ms) := by
  refine ⟨⟨.minv, 0x0000000000000022, 0xFFFFFFFFFFFFC0FF⟩, by decide, rfl, matches_of_bits fun j hj => ?_⟩
  rw [encode, getLsbD_formatM]
  interval_cases j <;> simp

theorem mmul (md ma mb : MReg) : Statement (.mmul md ma mb) := by
  refine ⟨⟨.mmul, 0x0000000000000023, 0xFFFFFFFFFFFE00FF⟩, by decide, rfl, matches_of_bits fun j hj => ?_⟩
  rw [encode, getLsbD_formatM]
  interval_cases j <;> simp

theorem addsv (sd ss : Slot) (c : Byte) : Statement (.addsv sd ss c) := by
  refine ⟨⟨.addsv, 0x0000000000000030, 0xFFFFFFFF000000FF⟩, by decide, rfl, matches_of_bits fun j hj => ?_⟩
  rw [encode, getLsbD_formatB]
  interval_cases j <;> simp

theorem init (k m : Nat) : Statement (.init k m) := by
  refine ⟨⟨.init, 0x0000000000000040, 0xFFFFFE00FC01FFFF⟩, by decide, rfl, matches_of_bits fun j hj => ?_⟩
  rw [encode, getLsbD_formatM]
  interval_cases j <;> simp

theorem encode : Statement .encode :=
  ⟨⟨.encode, 0x0000000000000041, 0xFFFFFFFFFFFFFFFF⟩, by decide, rfl, by decide⟩

theorem recon : Statement .recon :=
  ⟨⟨.recon, 0x0000000000000042, 0xFFFFFFFFFFFFFFFF⟩, by decide, rfl, by decide⟩

end Sys2Proof.Laws.EncodeMatches
end

