-- ==== Sys2Proof/Tests/Slice0.lean ====
section
/-! SUPPORT. Tests: the well-formedness checks, words written out from the encoding tables, one-step vectors of the
spec, and for each statement with hypotheses a witness that meets them. -/

namespace Sys2Proof.Tests

open Sys2Proof.Machine

/-! ### Well-formedness: an ill-formed term for each check -/

theorem test_wf_accepts_largest_fields :
    (Instr.gfpow 0xFF 0xFFFFFFFF).WellFormed ∧ (Instr.vand 7 511 511).WellFormed ∧
    (Instr.subm 7 7 511 511 511 511).WellFormed ∧ (Instr.init 511 511).WellFormed := by decide

theorem test_wf_refuses_wide_exponent : (Instr.gfpow 2 0x100000000).WellFormed = false := by decide

theorem test_wf_refuses_wide_vand :
    (Instr.vand 0 512 1).WellFormed = false ∧ (Instr.vand 0 1 512).WellFormed = false := by decide

theorem test_wf_refuses_wide_subm :
    (Instr.subm 0 1 512 0 0 0).WellFormed = false ∧ (Instr.subm 0 1 0 512 0 0).WellFormed = false ∧
    (Instr.subm 0 1 0 0 512 0).WellFormed = false ∧ (Instr.subm 0 1 0 0 0 512).WellFormed = false := by decide

theorem test_wf_refuses_wide_init :
    (Instr.init 512 0).WellFormed = false ∧ (Instr.init 1 512).WellFormed = false := by decide

/-! ### Decoding: words written out field by field from rules R92, R93, R95 -/

/-- Format B of rule R92: `w`, `b2`, `b1`, `b0`, opcode, from bit 63 down. -/
theorem test_decode_field_family :
    decode (0x00000000#32 ++ (0x00#8 ++ (0x80#8 ++ (0x02#8 ++ 0x10#8)))) = .ok (.gfmul 0x02 0x80) ∧
    decode (0xFFFFFFFF#32 ++ (0x00#8 ++ (0x00#8 ++ (0x1D#8 ++ 0x11#8)))) = .ok (.gfpow 0x1D 4294967295) ∧
    decode (0x00000000#32 ++ (0x00#8 ++ (0x00#8 ++ (0x53#8 ++ 0x12#8)))) = .ok (.gfinv 0x53) ∧
    decode (0x00000000#32 ++ (0x00#8 ++ (0x00#8 ++ (0x8E#8 ++ 0x13#8)))) = .ok (.gflog 0x8E) ∧
    decode (0x00000000#32 ++ (0x00#8 ++ (0x00#8 ++ (0xFF#8 ++ 0x14#8)))) = .ok (.gfexp 0xFF) := by decide

/-- Format M of rule R93: bits [63:59], `p3`, `p2`, `p1` in the high half; bits [31:26], `p0`, `mb`, `ma`, `md`, opcode
in the low half. -/
theorem test_decode_matrix_family :
    decode ((0#5 ++ (0#9 ++ (0#9 ++ 3#9)) : BitVec 32) ++ (0#6 ++ (5#9 ++ (0#3 ++ (0#3 ++ (0#3 ++ 0x20#8)))) : BitVec 32))
      = .ok (.vand 0 5 3) ∧
    decode ((0#5 ++ (255#9 ++ (256#9 ++ 2#9)) : BitVec 32) ++ (0#6 ++ (1#9 ++ (0#3 ++ (6#3 ++ (7#3 ++ 0x21#8)))) : BitVec 32))
      = .ok (.subm 7 6 1 2 256 255) ∧
    decode ((0#5 ++ (0#9 ++ (0#9 ++ 0#9)) : BitVec 32) ++ (0#6 ++ (0#9 ++ (0#3 ++ (1#3 ++ (2#3 ++ 0x22#8)))) : BitVec 32))
      = .ok (.minv 2 1) ∧
    decode ((0#5 ++ (0#9 ++ (0#9 ++ 0#9)) : BitVec 32) ++ (0#6 ++ (0#9 ++ (2#3 ++ (0#3 ++ (3#3 ++ 0x23#8)))) : BitVec 32))
      = .ok (.mmul 3 0 2) := by decide

theorem test_decode_vector_family :
    decode (0x00000000#32 ++ (0x06#8 ++ (0x02#8 ++ (0x04#8 ++ 0x30#8)))) = .ok (.addsv 4 2 0x06) ∧
    decode (0x00000000#32 ++ (0x01#8 ++ (0x00#8 ++ (0xFF#8 ++ 0x30#8)))) = .ok (.addsv 255 0 0x01) := by decide

theorem test_decode_coder_family :
    decode ((0#5 ++ (0#9 ++ (0#9 ++ 2#9)) : BitVec 32) ++ (0#6 ++ (3#9 ++ (0#3 ++ (0#3 ++ (0#3 ++ 0x40#8)))) : BitVec 32))
      = .ok (.init 3 2) ∧
    decode (0#56 ++ 0x41#8) = .ok .encode ∧ decode (0#56 ++ 0x42#8) = .ok .recon := by decide

/-- The illegal words of section 2.5 of the spec's test vectors, each refused by name. -/
theorem test_decode_refuses_unknown_opcodes :
    decode 0x0000000000000000 = .error (.unknownOpcode 0x00) ∧ decode 0x00000000000000FF = .error (.unknownOpcode 0xFF) ∧
    decode 0x0000000000000015 = .error (.unknownOpcode 0x15) ∧ decode 0x0000000000000024 = .error (.unknownOpcode 0x24) ∧
    decode 0x0000000000000043 = .error (.unknownOpcode 0x43) := by decide

theorem test_decode_refuses_nonzero_fields :
    decode 0x0000000001020310 = .error (.nonzeroField .gfmul) ∧ decode 0x0000000100020310 = .error (.nonzeroField .gfmul) ∧
    decode 0x0000000000010212 = .error (.nonzeroField .gfinv) ∧ decode 0x0000000000000141 = .error (.nonzeroField .encode) ∧
    decode 0x8000000000000042 = .error (.nonzeroField .recon) ∧ decode 0x0000000000004A22 = .error (.nonzeroField .minv) ∧
    decode 0x0000000004000020 = .error (.nonzeroField .vand) ∧ decode 0x0800000000000121 = .error (.nonzeroField .subm) ∧
    decode 0x0000000200060140 = .error (.nonzeroField .init) ∧
    decode 0x00000002FF000011 = .error (.nonzeroField .gfpow) := by decide

/-- No two rows of rule R96 share a word: some bit under both masks differs. -/
theorem test_rows_disjoint :
    opRows.Pairwise (fun a b => a.pattern &&& b.mask ≠ b.pattern &&& a.mask) := by decide

theorem test_table_word : decodeTableWord 64 0x0014060300001C21 = some (.subm 4 3 0 3 3 5) ∧
    decodeTableWord 8 0xFFFFFFFFFFFFFF41 = some .encode ∧ decodeTableWord 64 0x43 = none := by decide

/-! ### The tables of rule R122 -/

/-- One pass of the construction of rule R122: doubled, 0x11D folded in on overflow. -/
def buildNext (b : Nat) : Nat := if 2 * b < 256 then 2 * b else (2 * b) ^^^ 0x11D

theorem test_exp_table_is_built : expTab 0 = 1 ∧ ∀ r, r < 16 → ∀ c, c < 16 → 16 * r + c < 255 →
    (expTab (16 * r + c + 1)).toNat = buildNext (expTab (16 * r + c)).toNat := by decide

theorem test_log_table_is_built : ∀ r, r < 16 → ∀ c, c < 16 → 16 * r + c < 255 →
    (logTab (expTab (16 * r + c))).toNat = 16 * r + c := by decide

/-! ### One step on a small state -/

/-- The state after reset with `LMAX = 16`, as program P4 takes it. -/
def r0 : State := { State.reset with lmax := 16 }

/-- The answer is a next state of which `p` holds. -/
def nextIs (r : Result) (p : State → Bool) : Bool :=
  match r with
  | .next t => p t
  | _ => false

/-- What holds in the state after the command word `I` is issued in `s`. -/
def after (s : State) (I : Nat) (p : State → Bool) : Bool := nextIs (step (s.withFetchWord 64 I)) p

/-- `r0` with a matrix in `MR0`. -/
def withMr0 (A : Mat) : State := r0.wrMat 0 A

/-- A matrix of the spec's text. -/
def mat (rows cols : Nat) (e : List (List Byte)) : Mat := ⟨rows, cols, e⟩

/-- Bytes `[0, n)` of the buffer of `MRi`. -/
def bufBytes (s : State) (i : MReg) (n : Nat) : List Byte := (List.range n).map (s.bufByte i)

/-- The generator matrix of `INIT 3, 2` (scenario S7). -/
def gen32 : Mat := mat 5 3 [[1, 0, 0], [0, 1, 0], [0, 0, 1], [1, 1, 1], [0x0F, 0x08, 0x06]]

/-- The coder of program P3 with its data shards loaded. -/
def p3 : State := (((({ r0 with shlen := 4 }.setCoder 3 2).wrGen gen32).writeSlot 0 [0x00, 0x01, 0x02, 0x03]).writeSlot 1
  [0x04, 0x05, 0x06, 0x07]).writeSlot 2 [0x08, 0x09, 0x0A, 0x0B]

/-- `p3` with the parity shards of program P3. -/
def p3Full : State := (p3.writeSlot 3 [0x0C, 0x0D, 0x0E, 0x0F]).writeSlot 4 [0x10, 0x11, 0x12, 0x13]

/-- Section 2.1: `GFMUL 0xFF, 0xFF`. -/
theorem test_gfmul : after r0 0x0000000000FFFF10 (fun t => t.res == 0xE2 && t.err == 0) := by decide

/-- Section 2.1: `GFMUL 0x00, 0x53`. -/
theorem test_gfmul_zero : after { r0 with res := 0x77 } 0x0000000000530010 (fun t => t.res == 0) := by decide

/-- Section 2.1: the product of the logarithm and the exponent is not cut to 32 bits. -/
theorem test_gfpow_exact : after r0 0xFFFFFFFF00001D11 (fun t => t.res == 1) := by decide

/-- Section 2.1: `0^0 = 1`. -/
theorem test_gfpow_zero : after r0 0x0000000000000011 (fun t => t.res == 1) := by decide

/-- Section 2.1: `GFINV 0x53`. -/
theorem test_gfinv : after r0 0x0000000000005312 (fun t => t.res == 0x8C) := by decide

/-- Program P1, step 7. -/
theorem test_gfinv_zero : after { r0 with res := 0x1D } 0x0000000000000012
    (fun t => t.res == 0x1D && t.statusWord == 0x700 && t.stickyWord == 0x80 && t.errinfo0 == 0x12 && t.pc == 1) := by decide

/-- Section 2.1: `GFLOG 0x8E`, the largest logarithm. -/
theorem test_gflog : after r0 0x0000000000008E13 (fun t => t.res == 0xFE) := by decide

/-- Program P4, step 22. -/
theorem test_gflog_zero : after { r0 with errsticky := 0x16C } 0x0000000000000013
    (fun t => t.statusWord == 0x700 && t.stickyWord == 0x1EC && t.errinfo0 == 0x13) := by decide

/-- Section 2.1: `GFEXP 8`, the first reduced power. -/
theorem test_gfexp : after r0 0x0000000000000814 (fun t => t.res == 0x1D) := by decide

/-- Section 2.1: `GFEXP 255`, the extra entry. -/
theorem test_gfexp_extra : after r0 0x000000000000FF14 (fun t => t.res == 0x01) := by decide

/-- Program P2, step 1. -/
theorem test_vand : after r0 0x00000003000A0020 (fun t => t.readReg 0x080 == 0x00030005 &&
    bufBytes t 0 15 == [1, 0, 0, 1, 1, 1, 1, 2, 4, 1, 3, 5, 1, 4, 0x10]) := by decide

/-- Program P4, step 7. -/
theorem test_vand_too_large : after r0 0x0000000102020020 (fun t => t.statusWord == 0x600 &&
    t.errinfo0 == 0x02020020 && t.errinfo1 == 1 && t.readReg 0x080 == 0) := by decide

/-- Section 2.2: `mat_sub(A, 1, 3, 3, 5)` of the 5 × 3 Vandermonde matrix, onto its own register. -/
theorem test_subm_in_place :
    nextIs (exec (.subm 0 0 1 3 3 5) (withMr0 (matVandermonde 5 3)))
      (fun t => t.readReg 0x080 == 0x00020002 && bufBytes t 0 5 == [3, 5, 4, 0x10, 1]) := by decide

/-- Program P4, step 15: `xmin > xmax`. -/
theorem test_subm_order : after (withMr0 (mat 2 2 [[1, 0], [1, 1]])) 0x0008020000040321
    (fun t => t.statusWord == 0x600 && t.errinfo0 == 0x00040321 && t.errinfo1 == 0x00080200) := by decide

/-- Property S3: `MINV MR1, MR0`, the source ending as the identity. -/
theorem test_minv : after (withMr0 (mat 2 2 [[2, 3], [4, 5]])) 0x0000000000000122
    (fun t => bufBytes t 1 4 == [0x8F, 0x8E, 0xF5, 0xF4] && bufBytes t 0 4 == [1, 0, 0, 1]) := by decide

/-- Program P4, step 10, with `MR0` as source: the partly reduced matrix stays in it. -/
theorem test_minv_singular : after (withMr0 (mat 2 2 [[1, 2], [2, 4]])) 0x0000000000000222
    (fun t => t.statusWord == 0x200 && t.errinfo0 == 1 && t.errinfo1 == 2 && bufBytes t 0 4 == [1, 2, 0, 0] &&
      t.readReg 0x088 == 0) := by decide

/-- Section 2.2: a 1 × 3 by 3 × 1 product, `MMUL MR2, MR0, MR1`. -/
theorem test_mmul : after ((withMr0 (mat 1 3 [[1, 2, 3]])).wrMat 1 (mat 3 1 [[4], [5], [6]])) 0x0000000000004223
    (fun t => t.readReg 0x088 == 0x00010001 && bufBytes t 2 1 == [4]) := by decide

/-- Program P4, step 13. -/
theorem test_mmul_mismatch :
    after ((withMr0 (mat 2 2 [[1, 0], [1, 1]])).wrMat 5 (mat 3 1 [[1], [1], [1]])) 0x0000000000014323
      (fun t => t.statusWord == 0x300 && t.errinfo0 == 2 && t.errinfo1 == 3 && t.readReg 0x08C == 0) := by decide

/-- Section 2.3: `SHLEN = 2`, bytes beyond it untouched. -/
theorem test_addsv :
    after (({ r0 with shlen := 2 }.writeSlot 2 [8, 9, 0xA, 0xB]).writeSlot 4 [0, 0, 0, 0]) 0x0000000006020430
      (fun t => t.slotBytes 4 4 == [0x30, 0x36, 0, 0]) := by decide

/-- Section 2.3: `SHLEN = LMAX + 1`. -/
theorem test_addsv_too_long : after { r0 with shlen := 17 } 0x0000000006020430
    (fun t => t.statusWord == 0x600 && t.errinfo0 == 0x06020430 && t.shd == []) := by decide

/-- Program P3, step 1. -/
theorem test_init : after r0 0x0000000200060040 (fun t => t.statusWord == 2 && t.k == 3 && t.m == 2 && t.n == 5 &&
    (List.range 15).map t.genByte == [1, 0, 0, 0, 1, 0, 0, 0, 1, 1, 1, 1, 0x0F, 0x08, 0x06]) := by decide

/-- Section 2.4: `INIT 256, 1`; the coder of `p3` stays. -/
theorem test_init_too_many : after p3 0x0000000102000040
    (fun t => t.statusWord == 0x602 && t.k == 3 && t.genByte 12 == 0x0F) := by decide

/-- Section 2.4: ENCODE accumulates into what the parity slots hold. -/
theorem test_encode_accumulates :
    after ((p3.writeSlot 3 [0xFF, 0xFF, 0xFF, 0xFF]).writeSlot 4 [0, 0, 0, 0]) 0x0000000000000041
      (fun t => t.slotBytes 3 4 == [0xF3, 0xF2, 0xF1, 0xF0] && t.slotBytes 4 4 == [0x10, 0x11, 0x12, 0x13]) := by decide

/-- Program P4, step 1. -/
theorem test_encode_unconfigured : after r0 0x0000000000000041
    (fun t => t.statusWord == 0x800 && t.stickyWord == 0x100 && t.errinfo0 == 0x41) := by decide

/-- Program P3, step 10. -/
theorem test_recon :
    after (({ p3Full with present := 0x1A }.writeSlot 0 [0xEE, 0xEE, 0xEE, 0xEE]).writeSlot 2 [0x55, 0x55, 0x55, 0x55])
      0x0000000000000042 (fun t => t.slotBytes 0 4 == [0, 1, 2, 3] && t.slotBytes 2 4 == [8, 9, 0xA, 0xB] &&
        t.present == 0x1F && t.statusWord == 2) := by decide

/-- Program P4, step 31. -/
theorem test_recon_too_few : after { p3Full with present := 0x5 } 0x0000000000000042
    (fun t => t.statusWord == 0x102 && t.errinfo0 == 0x00020001 && t.errinfo1 == 0x00030002 && t.present == 5) := by decide

/-- Program P4, step 5: a word of no command, run as the first after reset. -/
theorem test_illegal_word : after State.reset 0x00000000000000FF
    (fun t => t.statusWord == 0x500 && t.stickyWord == 0x20 && t.errinfo0 == 0xFF && t.errinfo1 == 0 && t.pc == 1) := by decide

/-- The match word of each row of rule R96 decodes and runs as the first command after reset. -/
theorem test_each_row_runs_from_reset : ∀ r ∈ opRows,
    (decodeTableWord 64 r.pattern.toNat).isSome ∧
    nextIs (step (State.reset.withFetchWord 64 r.pattern.toNat)) (fun t => t.pc == 1 && t.err != 5) := by decide

/-- Program P4, step 23: each bit written as 1 is cleared. -/
theorem test_acknowledge :
    nextIs (step { r0 with errsticky := 0x1EC, host := [.wrReg 0x00C 0xE4] })
      (fun t => t.stickyWord == 0x108 && t.pc == 0) := by decide

/-- Rule R62: a host write at 0x80000, the first byte of `GEN`, is ignored and records no error. -/
theorem test_gen_write_ignored :
    nextIs (step { p3 with host := [.wrMat 0x80000 0x55] })
      (fun t => t.genByte 0 == 1 && t.statusWord == 2 && t.stickyWord == 0) := by decide

/-- Rules R26, R37: `MSHAPE6` at 0x098 keeps the counts as written, reserved bits dropped. -/
theorem test_mshape_write :
    nextIs (step { r0 with host := [.wrReg 0x098 0xFFFFFFFF] })
      (fun t => t.readReg 0x098 == 0x01FF01FF && t.readReg 0x094 == 0) := by decide

/-- Rules R29, R37: `PRESENT7` at 0x05C holds the bits of slots 224 to 255. -/
theorem test_present_write :
    nextIs (step { r0 with present := 0x1A, host := [.wrReg 0x05C 0x80000001] })
      (fun t => t.isPresent 255 == true && t.isPresent 224 == true && t.isPresent 225 == false && t.readReg 0x040 == 0x1A) := by decide

/-! ### Witnesses: for each statement with hypotheses, states and operands that meet them -/

theorem exists_of_nextIs {r : Result} {p : State → Bool} (h : nextIs r p = true) : ∃ t, r = .next t ∧ p t = true := by
  cases r with
  | next t => exact ⟨t, rfl, h⟩
  | fault _ => exact Bool.noConfusion h
  | refused _ => exact Bool.noConfusion h

/-- `p3` with its parity slots zeroed. -/
def p3Zero : State := (p3.writeSlot 3 [0, 0, 0, 0]).writeSlot 4 [0, 0, 0, 0]

/-- `p3Full` with data slots 0 and 2 absent. -/
def p3Lost : State := { p3Full with present := 0x1A }

/-- A singular matrix in `MR0`. -/
def singular : State := withMr0 (mat 2 2 [[1, 2], [2, 4]])

/-- A matrix of section 2.2, its inverse, and the state that holds it in `MR0`. -/
def a22 : Mat := mat 2 2 [[2, 3], [4, 5]]
def b22 : Mat := mat 2 2 [[0x8F, 0x8E], [0xF5, 0xF4]]
def invertible : State := withMr0 a22

theorem test_witness_DecodeOfEncode : (Instr.subm 7 6 511 0 511 1).WellFormed = true ∧
    (Instr.gfpow 255 4294967295).WellFormed = true := by decide

theorem test_witness_EncodeOfDecode : decode 0x03FE000200023721 = .ok (.subm 7 6 1 2 256 255) := by decide

theorem test_witness_DecodeFollowsMatchAndMask :
    (⟨.gfinv, 0x12, 0xFFFFFFFFFFFF00FF⟩ : OpRow) ∈ opRows ∧
    (⟨.gfinv, 0x12, 0xFFFFFFFFFFFF00FF⟩ : OpRow).matches 0x5312 = true := by decide

/-- A state whose host issues the word of `GFMUL 0x02, 0x80`. -/
def issuing : State := { r0 with host := [.wrReg 0x004 0x00800210] }

theorem test_witness_StepRunsDecodedCommand : issuing.Issues 0x00800210 [] ∧
    decode (cmdOf issuing.cmdh 0x00800210) = .ok (.gfmul 0x02 0x80) := ⟨rfl, by decide⟩

/-- The note under section 2.1: `CMDH` left at 8 makes GFINV's word illegal (program P1, step 7). -/
def issuingIllegal : State := { r0 with cmdh := 8, host := [.wrReg 0x004 0x00000012] }

theorem test_witness_IllegalWordFaults : issuingIllegal.Issues 0x00000012 [] ∧
    ∀ r ∈ opRows, cmdOf issuingIllegal.cmdh 0x00000012 &&& r.mask ≠ r.pattern := ⟨rfl, by decide⟩

theorem test_witness_FieldTablesInvert :
    (1 : Byte) ≠ 0 ∧ (255 : Byte) ≠ 0 ∧ (0 < 256 ∧ 255 < 256) ∧ (0 < 255 ∧ 254 < 255) := by decide

theorem test_witness_GfpowRaises : (1 : Byte) ≠ 0 ∧ (255 : Byte) ≠ 0 := by decide

theorem test_witness_GfinvInverts : (1 : Byte) ≠ 0 ∧ (255 : Byte) ≠ 0 ∧ (0 : Byte) = 0 := by decide

theorem test_witness_GflogReadsTable : (1 : Byte) ≠ 0 ∧ (255 : Byte) ≠ 0 ∧ (0 : Byte) = 0 := by decide

theorem test_witness_VandBuildsVandermonde :
    (256 ≤ 256 ∧ 0 ≤ 256) ∧ (255 < 256 ∧ 255 < 256) ∧ (257 > 256 ∨ 0 > 256) ∧ (0 > 256 ∨ 511 > 256) := by decide

/-- A copy of the whole 5 × 3 matrix, an empty region at its corner, one column too many, bounds in the wrong order, and
an illegal source. -/
theorem test_witness_SubmCopiesRegion :
    let s := withMr0 (matVandermonde 5 3)
    let inside := fun (s : State) (xmin ymin xmax ymax : Nat) =>
      (s.shape 0).rows.toNat ≤ 256 ∧ (s.shape 0).cols.toNat ≤ 256 ∧ xmin ≤ xmax ∧ xmax ≤ (s.shape 0).cols.toNat ∧
        ymin ≤ ymax ∧ ymax ≤ (s.shape 0).rows.toNat
    inside s 0 0 3 5 ∧ inside s 3 5 3 5 ∧ ¬ inside s 0 0 4 5 ∧ ¬ inside s 2 0 1 5 ∧
      ¬ inside (r0.setShape 0 ⟨257, 1⟩) 0 0 1 1 := by decide

theorem test_witness_MatInvertCorrect :
    matInvert (Mat.ofFn 2 2 a22.get) = .ok (matIdentity 2) b22 ∧
    matInvert (Mat.ofFn 2 2 (mat 2 2 [[1, 2], [2, 4]]).get) = .singular 1 (mat 2 2 [[1, 2], [0, 0]]) ∧
    (b22.rows = 2 ∧ b22.cols = 2 ∧ matMul (Mat.ofFn 2 2 a22.get) b22 = matIdentity 2) := by decide

theorem test_witness_MinvInverts :
    (1 : MReg) ≠ 0 ∧ (invertible.shape 0).rows.toNat ≤ 256 ∧ (invertible.shape 0).cols = (invertible.shape 0).rows ∧
    b22.rows = (invertible.shape 0).rows.toNat ∧ b22.cols = (invertible.shape 0).rows.toNat ∧
    matMul (invertible.rdMat 0) b22 = matIdentity (invertible.shape 0).rows.toNat := by decide

/-- One state or operand for each of the four `BAD_PARAM` conditions, and a singular source. -/
theorem test_witness_MinvFaults :
    (1 : MReg) = 1 ∧ ((r0.setShape 0 ⟨257, 257⟩).shape 0).rows.toNat > 256 ∧
    ((r0.setShape 0 ⟨256, 257⟩).shape 0).cols.toNat > 256 ∧
    ((r0.setShape 0 ⟨2, 3⟩).shape 0).rows.toNat ≠ ((r0.setShape 0 ⟨2, 3⟩).shape 0).cols.toNat ∧
    ((1 : MReg) ≠ 0 ∧ (singular.shape 0).rows.toNat ≤ 256 ∧ (singular.shape 0).cols.toNat = (singular.shape 0).rows.toNat ∧
      matInvert (singular.rdMat 0) = .singular 1 (mat 2 2 [[1, 2], [0, 0]])) := by decide

theorem test_witness_MmulMultiplies :
    let counts := fun (a b : Shape) => (a.rows.toNat ≤ 256 ∧ a.cols.toNat ≤ 256 ∧ b.rows.toNat ≤ 256 ∧ b.cols.toNat ≤ 256)
    let s := (r0.setShape 0 ⟨1, 256⟩).setShape 1 ⟨256, 2⟩
    let t := (r0.setShape 0 ⟨2, 2⟩).setShape 1 ⟨3, 1⟩
    let u := (r0.setShape 0 ⟨1, 257⟩).setShape 1 ⟨257, 1⟩
    (counts (s.shape 0) (s.shape 1) ∧ (s.shape 0).cols.toNat = (s.shape 1).rows.toNat) ∧
    ¬ counts (u.shape 0) (u.shape 1) ∧
    (counts (t.shape 0) (t.shape 1) ∧ (t.shape 0).cols.toNat ≠ (t.shape 1).rows.toNat) := by decide

theorem test_witness_AddsvAccumulates :
    (({ r0 with shlen := 16 } : State).shlen.toNat ≤ ({ r0 with shlen := 16 } : State).lmax ∧ 15 < 16) ∧
    ({ r0 with shlen := 17 } : State).lmax < ({ r0 with shlen := 17 } : State).shlen.toNat := by decide

theorem test_witness_AddsvToItself :
    ({ r0 with shlen := 16 } : State).shlen.toNat ≤ ({ r0 with shlen := 16 } : State).lmax ∧ 15 < 16 ∧
    (1 : Byte) = 1 ∧ (0 : Byte) = 0 := by decide

theorem test_witness_InitConstructsCoder :
    (1 ≤ 1 ∧ 1 + 255 ≤ 256) ∧ (1 ≤ 256 ∧ 256 + 0 ≤ 256) ∧ (255 < 1 + 255 ∧ 0 < 1) := by decide

theorem test_witness_InitRejectsParameters : (0 = 0 ∨ 0 + 2 > 256) ∧ (256 = 0 ∨ 256 + 1 > 256) := by decide

theorem test_witness_GeneratorIsSystematic : 1 ≤ 3 ∧ 3 + 2 ≤ 256 ∧ buildGenerator 3 2 = .ok gen32 := by decide

/-- Rows 1, 3 and 4, those of scenario S7. -/
theorem test_witness_GeneratorRowsInvertible :
    let pick := fun q => if q = 0 then 1 else q + 2
    1 ≤ 3 ∧ 3 + 2 ≤ 256 ∧ buildGenerator 3 2 = .ok gen32 ∧ (∀ q, q < 3 → pick q < 3 + 2) ∧
      ∀ p, p < 3 → ∀ q, q < 3 → pick p = pick q → p = q := by decide

theorem test_witness_GeneratorRowsStable :
    1 ≤ 2 ∧ 2 + 1 ≤ 256 ∧ 2 + 2 ≤ 256 ∧ buildGenerator 2 1 = .ok (mat 3 2 [[1, 0], [0, 1], [3, 2]]) ∧
    buildGenerator 2 2 = .ok (mat 4 2 [[1, 0], [0, 1], [3, 2], [2, 3]]) := by decide

theorem test_witness_EncodeAccumulatesParity :
    p3.cfgv = true ∧ p3.shlen.toNat ≤ p3.lmax ∧ 1 < p3.m.toNat ∧ 3 < p3.shlen.toNat := by decide

theorem test_witness_EncodeTwiceCancels :
    (p3Zero.cfgv = true ∧ p3Zero.shlen.toNat ≤ p3Zero.lmax ∧ p3Zero.slotByte (p3Zero.k.toNat + 1) 3 = 0) ∧
    ∃ t, exec .encode p3Zero = .next t ∧ (fun t => t.err == 0) t = true :=
  ⟨by decide, exists_of_nextIs (by decide)⟩

theorem test_witness_CoderGuards :
    r0.cfgv = false ∧ (({ p3 with shlen := 17 } : State).cfgv = true ∧
      ({ p3 with shlen := 17 } : State).lmax < ({ p3 with shlen := 17 } : State).shlen.toNat) := by decide

/-- Section 2.4, row 0x07: both parity slots absent. -/
theorem test_witness_ReconNothingMissing :
    let s := { p3Full with present := 0x07 }
    s.cfgv = true ∧ s.shlen.toNat ≤ s.lmax ∧ ∀ i, i < s.k.toNat → s.isPresent i = true := by decide

/-- Section 2.4, rows 0x18 and 0x05: one for each test, and an answer with code 1. -/
theorem test_witness_ReconInsufficientShards :
    (let s := { p3Full with present := 0x18 }
     s.cfgv = true ∧ s.shlen.toNat ≤ s.lmax ∧ 1 ≤ s.numMissing ∧ s.m.toNat < s.numMissing) ∧
    (let s := { p3Full with present := 0x05 }
     s.cfgv = true ∧ s.shlen.toNat ≤ s.lmax ∧ 1 ≤ s.numMissing ∧ s.numPresent < s.k.toNat) ∧
    ∃ t, exec .recon { p3Full with present := 0x05 } = .next t ∧ (fun t => t.err == 1) t = true :=
  ⟨by decide, by decide, exists_of_nextIs (by decide)⟩

theorem test_inv_p3Lost : p3Lost.Inv where
  total := by decide
  configured := by decide
  unconfigured := by decide
  errCode := by decide
  stickyBits := by decide
  matForm := by decide
  shdForm := by decide
  matBound := by decide
  shdBound := by decide
  lmaxPos := by decide

theorem test_genOk_p3Lost : p3Lost.GenOk := fun _ =>
  ⟨gen32, by decide, fun r c hr hc =>
    (by decide : ∀ r, r < 5 → ∀ c, c < 3 → p3Lost.genElem r c = gen32.get r c) r hr c hc⟩

/-- Scenario S7: the decode matrix of slots 1, 3, 4. -/
theorem test_witness_ReconRecovers :
    p3Lost.Inv ∧ p3Lost.cfgv = true ∧ p3Lost.shlen.toNat ≤ p3Lost.lmax ∧ 1 ≤ p3Lost.numMissing ∧
    p3Lost.numMissing ≤ p3Lost.m.toNat ∧ p3Lost.k.toNat ≤ p3Lost.numPresent ∧
    matInvert (Mat.ofFn 3 3 (fun q c => p3Lost.genElem
      ((((List.range p3Lost.n.toNat).filter (fun i => p3Lost.isPresent i)).take 3).getD q 0) c)) =
      .ok (matIdentity 3) (mat 3 3 [[0xF5, 0x69, 0x9D], [0x01, 0x00, 0x00], [0xF4, 0x68, 0x9D]]) :=
  ⟨test_inv_p3Lost, by decide⟩

theorem test_inv_p3Zero : p3Zero.Inv where
  total := by decide
  configured := by decide
  unconfigured := by decide
  errCode := by decide
  stickyBits := by decide
  matForm := by decide
  shdForm := by decide
  matBound := by decide
  shdBound := by decide
  lmaxPos := by decide

theorem test_genOk_p3Zero : p3Zero.GenOk := fun _ =>
  ⟨gen32, by decide, fun r c hr hc =>
    (by decide : ∀ r, r < 5 → ∀ c, c < 3 → p3Zero.genElem r c = gen32.get r c) r hr c hc⟩

/-- `p3Zero` after ENCODE, and then with data slots 0 and 2 lost and slot 0 overwritten (program P3, steps 7 to 9). -/
def p3Encoded : State :=
  match exec .encode p3Zero with
  | .next t => t
  | _ => p3Zero
def erase (e : State) : State := ({ e with present := 0x1A }).writeSlot 0 [0xEE, 0xEE, 0xEE, 0xEE]
def p3Erased : State := erase p3Encoded

theorem test_erase_keeps (e : State) :
    ((erase e).cfgv = e.cfgv ∧ (erase e).k = e.k ∧ (erase e).m = e.m ∧ (erase e).n = e.n ∧ (erase e).shlen = e.shlen ∧
      (erase e).lmax = e.lmax) ∧ ∀ o, (erase e).genByte o = e.genByte o :=
  ⟨⟨rfl, rfl, rfl, rfl, rfl, rfl⟩, fun _ => rfl⟩

theorem test_erase_slots : ∀ sl, sl < p3Encoded.n.toNat → ∀ b, b < p3Encoded.shlen.toNat →
    p3Erased.isPresent sl = true → p3Erased.slotByte sl b = p3Encoded.slotByte sl b := by decide

theorem test_erase_count :
    (List.range p3Encoded.n.toNat).countP (fun sl => !p3Erased.isPresent sl) ≤ p3Encoded.m.toNat := by decide

theorem test_encode_p3Zero : exec .encode p3Zero = .next p3Encoded := by
  obtain ⟨t, h, -⟩ := exists_of_nextIs (r := exec .encode p3Zero) (p := fun t => t.err == 0) (by decide)
  simp only [p3Encoded, h]

theorem test_witness_ReconRestoresData :
    (p3Zero.Inv ∧ p3Zero.GenOk ∧ p3Zero.cfgv = true ∧ p3Zero.shlen.toNat ≤ p3Zero.lmax) ∧
    (∀ j b, j < p3Zero.m.toNat → b < p3Zero.shlen.toNat → p3Zero.slotByte (p3Zero.k.toNat + j) b = 0) ∧
    exec .encode p3Zero = .next p3Encoded ∧
    (p3Erased.cfgv = p3Encoded.cfgv ∧ p3Erased.k = p3Encoded.k ∧ p3Erased.m = p3Encoded.m ∧ p3Erased.n = p3Encoded.n ∧
      p3Erased.shlen = p3Encoded.shlen ∧ p3Erased.lmax = p3Encoded.lmax) ∧
    (∀ o, p3Erased.genByte o = p3Encoded.genByte o) ∧
    (∀ sl b, sl < p3Encoded.n.toNat → p3Erased.isPresent sl = true → b < p3Encoded.shlen.toNat →
      p3Erased.slotByte sl b = p3Encoded.slotByte sl b) ∧
    (List.range p3Encoded.n.toNat).countP (fun sl => !p3Erased.isPresent sl) ≤ p3Encoded.m.toNat :=
  ⟨⟨test_inv_p3Zero, test_genOk_p3Zero, by decide⟩,
    fun j b hj hb => (by decide : ∀ j, j < 2 → ∀ b, b < 4 → p3Zero.slotByte (3 + j) b = 0) j hj b hb,
    test_encode_p3Zero, (test_erase_keeps p3Encoded).1, (test_erase_keeps p3Encoded).2,
    fun sl b hs hp hb => test_erase_slots sl hs b hb hp, test_erase_count⟩

theorem test_witness_ReconNeverSingular :
    p3Lost.Inv ∧ p3Lost.GenOk ∧ ∃ t, exec .recon p3Lost = .next t ∧ (fun t => t.err == 0) t = true :=
  ⟨test_inv_p3Lost, test_genOk_p3Lost, exists_of_nextIs (by decide)⟩

theorem test_witness_ReconThenNoOp :
    p3Lost.Inv ∧ ∃ t, exec .recon p3Lost = .next t ∧ (fun t => t.err == 0) t = true :=
  ⟨test_inv_p3Lost, exists_of_nextIs (by decide)⟩

theorem test_witness_ReconDataOnly :
    p3Lost.Inv ∧ (15 < p3Lost.lmax ∧ p3Lost.k.toNat ≤ 3 ∧ p3Lost.isPresent 1 = true) ∧
    ∃ t, exec .recon p3Lost = .next t ∧ (fun t => t.present == 0x1F) t = true :=
  ⟨test_inv_p3Lost, by decide, exists_of_nextIs (by decide)⟩

/-- The shard memory with the absent slot 0 overwritten. -/
def otherAbsent : List Host.Cell := (p3Lost.writeSlot 0 [0xEE, 0xEE, 0xEE, 0xEE]).shd

theorem test_witness_ReconIgnoresAbsentContent :
    p3Lost.Inv ∧ otherAbsent ≠ p3Lost.shd ∧
    (∀ sl b, sl < p3Lost.n.toNat → p3Lost.isPresent sl = true → b < p3Lost.shlen.toNat →
      ({ p3Lost with shd := otherAbsent } : State).slotByte sl b = p3Lost.slotByte sl b) ∧
    (∃ t, exec .recon p3Lost = .next t ∧ (fun t => t.err == 0) t = true) ∧
    ∃ u, exec .recon { p3Lost with shd := otherAbsent } = .next u ∧ (fun t => t.err == 0) u = true :=
  ⟨test_inv_p3Lost, by decide, fun sl b hs hp hb => (by decide : ∀ sl, sl < 5 → ∀ b, b < 4 →
      p3Lost.isPresent sl = true → ({ p3Lost with shd := otherAbsent } : State).slotByte sl b = p3Lost.slotByte sl b)
      sl hs b hb hp, exists_of_nextIs (by decide), exists_of_nextIs (by decide)⟩

/-- The shard memory with byte 2 of slot 1 changed, so that byte 0 of every slot is as before. -/
def otherLane : List Host.Cell := (p3Lost.writeShd (p3Lost.slotAddr 1 2) [0x99]).shd

theorem test_witness_LanesAreIndependent :
    0 < p3Lost.lmax ∧ otherLane ≠ p3Lost.shd ∧
    (∀ sl, ({ p3Lost with shd := otherLane } : State).slotByte sl 0 = p3Lost.slotByte sl 0) ∧
    ∀ i ∈ [Instr.encode, .recon, .addsv 4 2 6],
      nextIs (exec i p3Lost) (fun t => t.err == 0) ∧
      nextIs (exec i { p3Lost with shd := otherLane }) (fun t => t.err == 0) := by
  refine ⟨by decide, by decide, fun sl => ?_, by decide⟩
  have h := p3Lost.shdByte_writeShd (p3Lost.slotAddr 1 2) [0x99] (p3Lost.slotAddr sl 0)
  rw [if_neg (by
    have h16 : p3Lost.lmax = 16 := by decide
    simp only [State.slotAddr, h16, List.length_singleton]
    omega)] at h
  exact h

/-- Field commands, with and without a fault. -/
theorem test_witness_FieldCommandsFrame :
    (∀ i ∈ [Instr.gfmul 2 3, .gfpow 2 3, .gfinv 2, .gflog 2, .gfexp 2],
      isField i = true ∧ nextIs (exec i r0) (fun t => t.err == 0)) ∧
    ∀ i ∈ [Instr.gfinv 0, .gflog 0], isField i = true ∧ nextIs (exec i r0) (fun t => t.err == 7) := by decide

theorem test_witness_MatrixResultFrame :
    nextIs (exec (.vand 1 2 2) invertible) (fun t => t.err == 0) ∧
    nextIs (exec (.subm 1 0 0 0 2 2) invertible) (fun t => t.err == 0) ∧
    nextIs (exec (.mmul 1 0 0) invertible) (fun t => t.err == 0) ∧
    nextIs (exec (.vand 1 257 2) invertible) (fun t => t.err == 6) ∧
    nextIs (exec (.subm 1 0 0 0 3 2) invertible) (fun t => t.err == 6) ∧
    nextIs (exec (.mmul 1 0 2) invertible) (fun t => t.err == 3) := by decide

theorem test_witness_MinvFrame :
    nextIs (exec (.minv 1 0) invertible) (fun t => t.err == 0) ∧
    nextIs (exec (.minv 0 0) invertible) (fun t => t.err == 6) ∧
    nextIs (exec (.minv 1 0) singular) (fun t => t.err == 2) := by decide

theorem test_witness_AddsvFrame :
    nextIs (exec (.addsv 4 2 6) p3) (fun t => t.err == 0) ∧
    nextIs (exec (.addsv 4 2 6) { p3 with shlen := 17 }) (fun t => t.err == 6) := by decide

theorem test_witness_InitFrame :
    nextIs (exec (.init 3 2) r0) (fun t => t.err == 0) ∧ nextIs (exec (.init 0 0) r0) (fun t => t.err == 6) := by decide

theorem test_witness_EncodeFrame :
    nextIs (exec .encode p3) (fun t => t.err == 0) ∧ nextIs (exec .encode r0) (fun t => t.err == 8) := by decide

theorem test_witness_ReconFrame :
    nextIs (exec .recon p3Lost) (fun t => t.err == 0) ∧
    nextIs (exec .recon { p3Full with present := 0x05 }) (fun t => t.err == 1) := by decide

/-- A host at the edge of each space. -/
theorem test_witness_BlockNeverStops :
    ∀ a ∈ [HostAccess.wrReg 0x0FC 1, .rdReg 0x0FC, .wrMat 0x8FFFF 1, .rdMat 0x8FFFF, .wrShd 4095 1, .rdShd 4095],
      a.Offered r0.lmax := by
  intro a h
  simp only [List.mem_cons, List.not_mem_nil, or_false] at h
  rcases h with rfl | rfl | rfl | rfl | rfl | rfl <;> simp [HostAccess.Offered, r0]

theorem test_witness_CommandEndRecord :
    nextIs (exec (.gfinv 2) r0) (fun t => t.err == 0) ∧ nextIs (exec (.gfinv 0) r0) (fun t => t.err == 7) := by decide

theorem test_witness_FaultsOfEachCommand :
    nextIs (exec .encode r0) (fun t => t.err == 8) ∧ nextIs (exec (.minv 1 0) singular) (fun t => t.err == 2) := by decide

/-- A state whose host issues `GFPOW`'s neighbour `GFINV 0x00`. -/
def issuingZero : State := { r0 with host := [.wrReg 0x004 0x00000012] }

theorem test_witness_FaultRecordsCommandWord :
    issuingZero.Issues 0x00000012 [] ∧ decode (cmdOf issuingZero.cmdh 0x00000012) = .ok (.gfinv 0) ∧
    ∃ t, step issuingZero = .next t ∧ (fun t => decide (6 ≤ t.err.toNat)) t = true :=
  ⟨rfl, by decide, exists_of_nextIs (by decide)⟩

theorem test_witness_WritersOfEachState :
    nextIs (exec (.vand 1 2 2) r0) (fun t => t.err == 0) ∧ isField (.vand 1 2 2) = false ∧
    nextIs (exec (.addsv 4 2 6) p3) (fun t => t.err == 0) ∧ isMatrix (.addsv 4 2 6) = false ∧
    nextIs (exec (.init 3 2) p3) (fun t => t.err == 0) ∧ isShardWriter (.init 3 2) = false ∧
    nextIs (exec .encode p3) (fun t => t.err == 0) ∧ Instr.encode ≠ .recon := by decide

/-- A command that faults, another register write, and no access. -/
theorem test_witness_PcCountsCommands :
    nextIs (step issuingIllegal) (fun t => t.pc == 1) ∧
    nextIs (step { r0 with host := [.wrReg 0x01C 4] }) (fun t => t.pc == 0 && t.shlen == 4) ∧
    nextIs (step r0) (fun t => t.pc == 0) := by decide

/-- `p3Lost` with a host that issues RECON. -/
def p3Running : State := { p3Lost with host := [.wrReg 0x004 0x00000042] }

theorem test_inv_p3Running : p3Running.Inv :=
  have h := test_inv_p3Lost
  ⟨h.total, h.configured, h.unconfigured, h.errCode, h.stickyBits, h.matForm, h.shdForm, h.matBound, h.shdBound, h.lmaxPos⟩

theorem test_witness_StepKeepsInvariant :
    p3Running.Inv ∧ ∃ t, step p3Running = .next t ∧ (fun t => t.present == 0x1F) t = true :=
  ⟨test_inv_p3Running, exists_of_nextIs (by decide)⟩

theorem test_witness_StepKeepsGenerator :
    p3Running.Inv ∧ p3Running.GenOk ∧ ∃ t, step p3Running = .next t ∧ (fun t => t.present == 0x1F) t = true :=
  ⟨test_inv_p3Running, test_genOk_p3Lost, exists_of_nextIs (by decide)⟩

/-- The first and last offset of each bank and the edges of the unmapped ranges. -/
theorem test_witness_RegisterReads :
    ({ r0 with host := [.rdReg 0x05C] } : State).host = .rdReg 0x05C :: [] ∧
    (∀ off ∈ [0x000, 0x004, 0x008, 0x00C, 0x010, 0x014, 0x018, 0x01C, 0x020, 0x024, 0x028, 0x02C, 0x03C, 0x040, 0x05C,
      0x060, 0x07C, 0x080, 0x09C, 0x0A0, 0x0FC], off < 0x100 ∧ off % 4 = 0) ∧
    0x05C = 0x040 + 4 * 7 ∧ 0x09C = 0x080 + 4 * (7 : MReg).val := by decide

theorem test_witness_RegisterWrites :
    ({ r0 with host := [.wrReg 0x09C 5] } : State).host = .wrReg 0x09C 5 :: [] ∧
    (∀ off ∈ [0x000, 0x008, 0x00C, 0x010, 0x014, 0x018, 0x01C, 0x020, 0x024, 0x028, 0x02C, 0x03C, 0x040, 0x05C,
      0x060, 0x07C, 0x080, 0x09C, 0x0A0, 0x0FC], off < 0x100 ∧ off % 4 = 0 ∧ off ≠ 0x004) := by decide

theorem test_witness_HostMemoryAccess :
    (0x8FFFF < 0x90000 ∧ ({ r0 with host := [.rdMat 0x8FFFF] } : State).host = .rdMat 0x8FFFF :: []) ∧
    (0x80000 ≤ 0x80000 ∧ 0x80000 < 0x90000 ∧
      ({ p3 with host := [.wrMat 0x80000 1] } : State).host = .wrMat 0x80000 1 :: []) ∧
    (0x80000 ≤ 0x8FFFF ∧ 0x8FFFF < 0x90000 ∧
      ({ p3 with host := [.wrMat 0x8FFFF 1] } : State).host = .wrMat 0x8FFFF 1 :: []) ∧
    (0x7FFFF < 0x80000 ∧ ({ r0 with host := [.wrMat 0x7FFFF 1] } : State).host = .wrMat 0x7FFFF 1 :: []) ∧
    (255 < 256 ∧ 15 < r0.lmax) ∧
    ({ r0 with host := [.rdShd 4095] } : State).host = .rdShd (255 * r0.lmax + 15) :: [] ∧
    ({ r0 with host := [.wrShd 4095 1] } : State).host = .wrShd (255 * r0.lmax + 15) 1 :: [] := by decide

theorem test_witness_HostAccessStops :
    0x100 ≤ 0x100 ∧ (0x0FE < 0x100 ∧ 0x0FE % 4 ≠ 0) ∧ 0x90000 ≤ 0x90000 ∧ 256 * r0.lmax ≤ 4096 ∧
    ({ r0 with host := [.rdReg 0x0FE] } : State).host = .rdReg 0x0FE :: [] ∧
    ({ r0 with host := [.rdMat 0x90000] } : State).host = .rdMat 0x90000 :: [] ∧
    ({ r0 with host := [.wrShd 4096 1] } : State).host = .wrShd 4096 1 :: [] := by decide

theorem test_witness_IdleWithoutHost : State.reset.host = [] := by decide

end Sys2Proof.Tests
end

section
/-! PROOFS. The frame of VAND, SUBM and MMUL (rules R12, R25, R38, R64). -/

namespace Sys2Proof.Machine

/-! ### A fault's code, and what `wr_mat` leaves unchanged -/

theorem FaultCode.code_ne_zero (c : FaultCode) : c.code ≠ 0 := by
  cases c <;> decide

/-- `wr_mat` writes the counts of its own register only (rule R25). -/
theorem sameShapesBut_wrMat (s : State) (md : MReg) (A : Mat) : SameShapesBut [md] s (s.wrMat md A) := by
  intro i hi
  rw [State.shape_wrMat, if_neg (by simpa using hi)]

/-- `wr_mat` stores to the first `rows × cols` bytes of its buffer only (rule R12). -/
theorem sameMatBut_wrMat (s : State) (md : MReg) (A : Mat) :
    SameMatBut (InRun (bufAddr md 0) (A.rows * A.cols)) s (s.wrMat md A) := fun a ha =>
  (State.matByte_wrMat s md A a).trans (if_neg ha)

/-! ### How a command with one matrix result ends -/

/-- A command whose only result is a matrix of `len` elements for `md` ends in one of two ways: it raises a fault from
the state it found, or it writes the result and completes. -/
inductive MatrixResult (md : MReg) (len : Nat) (s : State) : State → Prop where
  | fault (c : FaultCode) (info0 info1 : Word) : MatrixResult md len s (s.endFault c info0 info1)
  | done (A : Mat) (hlen : A.rows * A.cols = len) : MatrixResult md len s (s.wrMat md A).endNormal

theorem matrixResult_vand {md : MReg} {rows cols : Nat} {s t : State} (h : exec (.vand md rows cols) s = .next t) :
    MatrixResult md (rows * cols) s t := by
  simp only [exec, execVand, raiseWord_eq, complete_eq] at h
  split at h <;> cases h
  · exact .fault ..
  · exact .done _ rfl

theorem matrixResult_subm {md ms : MReg} {xmin ymin xmax ymax : Nat} {s t : State}
    (h : exec (.subm md ms xmin ymin xmax ymax) s = .next t) :
    MatrixResult md ((ymax - ymin) * (xmax - xmin)) s t := by
  simp only [exec, execSubm, raiseWord_eq, complete_eq] at h
  split at h
  · cases h; exact .fault ..
  · split at h <;> cases h
    · exact .fault ..
    · exact .done _ rfl

theorem matrixResult_mmul {md ma mb : MReg} {s t : State} (h : exec (.mmul md ma mb) s = .next t) :
    MatrixResult md ((s.shape ma).rows.toNat * (s.shape mb).cols.toNat) s t := by
  simp only [exec, execMmul, raiseWord_eq, raise_eq, complete_eq] at h
  split at h
  · cases h; exact .fault ..
  · split at h <;> cases h
    · exact .fault ..
    · exact .done _ rfl

/-- What either ending leaves unchanged. -/
theorem MatrixResult.frame {md : MReg} {len : Nat} {s t : State} (h : MatrixResult md len s t) :
    SameHostSide s t ∧ SameCoder s t ∧ t.res = s.res ∧ t.present = s.present ∧ SameShdBut Nowhere s t ∧
    SameShapesBut [md] s t ∧ SameMatBut (InRun (bufAddr md 0) len) s t ∧
    (t.err = 0 → SameRecord s t) ∧ (t.err ≠ 0 → SameShapesBut [] s t ∧ SameMatBut Nowhere s t) := by
  cases h with
  | fault c info0 info1 =>
    exact ⟨⟨rfl, rfl, rfl, rfl, rfl⟩, ⟨rfl, rfl, rfl, rfl⟩, rfl, rfl, fun _ _ => rfl, fun _ _ => rfl, fun _ _ => rfl,
      fun h0 => absurd h0 c.code_ne_zero, fun _ => ⟨fun _ _ => rfl, fun _ _ => rfl⟩⟩
  | done A hlen =>
    subst hlen
    exact ⟨⟨rfl, rfl, rfl, rfl, rfl⟩, ⟨rfl, rfl, rfl, rfl⟩, rfl, rfl, fun _ _ => rfl,
      sameShapesBut_wrMat s md A, sameMatBut_wrMat s md A, fun _ => ⟨rfl, rfl, rfl⟩, fun h0 => absurd rfl h0⟩

/-- Settles O40: each of the three commands ends as a `MatrixResult`, which has this frame. -/
theorem matrixResultFrame : Obligations.MatrixResultFrame := by
  rintro i md len s t (⟨rows, cols, rfl, rfl⟩ | ⟨ms, xmin, ymin, xmax, ymax, rfl, rfl⟩ | ⟨ma, mb, rfl, rfl⟩) h
  · exact (matrixResult_vand h).frame
  · exact (matrixResult_subm h).frame
  · exact (matrixResult_mmul h).frame

end Sys2Proof.Machine
end

section
/-! PROOFS. How a command ends: one inversion lemma for `exec`, over the kinds of effects commands have (rules R38, R240). -/

namespace Sys2Proof.Machine

/-! ### Counts that the matrix functions keep (rules R150 to R156) -/

/-- Two values have the same counts. -/
def Mat.SameCounts (A B : Mat) : Prop := B.rows = A.rows ∧ B.cols = A.cols

/-- However an inversion returns, its values have the counts of the working matrix and of the accumulator. -/
def InvResult.KeepsCounts (W R : Mat) : InvResult → Prop
  | .ok W' R' => W.SameCounts W' ∧ R.SameCounts R'
  | .singular _ W' => W.SameCounts W'

/-- The passes of `mat_invert` keep the counts of both matrices (rule R153). -/
theorem invertLoop_keepsCounts (rs : List Nat) (W R : Mat) : (invertLoop rs W R).KeepsCounts W R := by
  induction rs generalizing W R with
  | nil => exact ⟨⟨rfl, rfl⟩, rfl, rfl⟩
  | cons r rs ih =>
    rw [invertLoop]
    split
    · exact ⟨rfl, rfl⟩
    · exact ih _ _

/-- `mat_invert` of a square value: both values have its counts (rule R153). -/
theorem matInvert_ok_counts {A W R : Mat} (h : matInvert A = .ok W R) :
    A.SameCounts W ∧ R.rows = A.rows ∧ R.cols = A.rows := by
  have hk := invertLoop_keepsCounts (List.range A.rows) A (matIdentity A.rows)
  rw [← matInvert, h] at hk
  exact hk

theorem matInvert_singular_counts {A W : Mat} {r : Nat} (h : matInvert A = .singular r W) : A.SameCounts W := by
  have hk := invertLoop_keepsCounts (List.range A.rows) A (matIdentity A.rows)
  rw [← matInvert, h] at hk
  exact hk

/-- The generator matrix has `k + m` rows of `k` elements (rule R191). -/
theorem buildGenerator_counts {k m : Nat} {G : Mat} (h : buildGenerator k m = .ok G) : G.rows = k + m ∧ G.cols = k := by
  simp only [buildGenerator] at h
  split at h
  · cases h
  · next hinv =>
    cases h
    have hcols := (matInvert_ok_counts hinv).2.2
    exact ⟨rfl, by simpa [matMul, matSub] using hcols⟩

/-! ### The two kinds of end -/

/-- No command raises `SHARD_LENGTH_MISMATCH` (rules R235, R242). -/
theorem ne_shardLengthMismatch_of_mem_faultsOf {i : Instr} {c : FaultCode} (h : c.code.toNat ∈ faultsOf i) :
    c ≠ .shardLengthMismatch := by
  rintro rfl
  cases i <;> simp [faultsOf, FaultCode.code] at h

/-- What a command that ends normally has done to the shard memory and the `PRESENT` bits (rules R181, R195, R200). -/
inductive ShardEffect (s : State) : Instr → State → Prop where
  | addsv (sd ss : Slot) (c : Byte) : ShardEffect s (.addsv sd ss c) (s.addScaledSlot sd.val ss.val c s.shardLen)
  | encode (hcfg : s.cfgv = true) : ShardEffect s .encode s.encodeAll
  | recon (hcfg : s.cfgv = true) (D : Mat) : ShardEffect s .recon (s.restore D)

/-- Every way a command can end: a fault that finds the state as it was, MINV's fault on a singular source, or a normal
end after the command's own effect, under the guards that let it through (rules R38, R240 to R242). -/
inductive CommandEnd (s : State) : Instr → State → Prop where
  | fault {i : Instr} {c : FaultCode} {info0 info1 : Word}
      (hc : c.code.toNat ∈ faultsOf i := by simp [faultsOf, FaultCode.code]) :
      CommandEnd s i (s.endFault c info0 info1)
  | field (i : Instr) (v : Byte) (hi : isField i = true) : CommandEnd s i (s.setRes v).endNormal
  | matrix (i : Instr) (md : MReg) (A : Mat) (hi : isMatrix i = true) (hne : ∀ md ms, i ≠ .minv md ms)
      (hrows : A.rows ≤ 256) (hcols : A.cols ≤ 256) : CommandEnd s i (s.wrMat md A).endNormal
  | minv (md ms : MReg) (W R : Mat) (hlegal : (s.shape ms).rows.toNat ≤ 256)
      (hsquare : (s.shape ms).rows = (s.shape ms).cols) (hinv : matInvert (s.rdMat ms) = .ok W R) :
      CommandEnd s (.minv md ms) ((s.wrMat ms W).wrMat md R).endNormal
  | minvSingular (md ms : MReg) (r : Nat) (W : Mat) (info0 info1 : Word) (hlegal : (s.shape ms).rows.toNat ≤ 256)
      (hsquare : (s.shape ms).rows = (s.shape ms).cols) (hinv : matInvert (s.rdMat ms) = .singular r W) :
      CommandEnd s (.minv md ms) ((s.wrMat ms W).endFault .singularMatrix info0 info1)
  | shards (i : Instr) (u : State) (hu : ShardEffect s i u) (hlen : s.shlen.toNat ≤ s.lmax) : CommandEnd s i u.endNormal
  | init (k m : Nat) (G : Mat) (hk : 1 ≤ k) (hkm : k + m ≤ 256) (hG : buildGenerator k m = .ok G) :
      CommandEnd s (.init k m) ((s.setCoder k m).wrGen G).endNormal

/-- Both counts of a legal register are at most 256 (rule R155). -/
theorem State.legal_eq_true_iff (s : State) (i : MReg) :
    s.legal i = true ↔ (s.shape i).rows.toNat ≤ 256 ∧ (s.shape i).cols.toNat ≤ 256 := by
  simp [State.legal]

/-- The bounds of SUBM (rule R159). -/
theorem subBounds_eq_true_iff (A : Mat) (xmin ymin xmax ymax : Nat) :
    subBounds A xmin ymin xmax ymax = true ↔ (xmin ≤ xmax ∧ xmax ≤ A.cols) ∧ ymin ≤ ymax ∧ ymax ≤ A.rows := by
  simp [subBounds, and_assoc]

section
variable {s t : State}

theorem commandEnd_gfinv {a : Byte} (h : exec (.gfinv a) s = .next t) : CommandEnd s (.gfinv a) t := by
  simp only [exec, execGfinv, raiseWord_eq, complete_eq] at h
  split at h <;> cases h
  · exact .fault
  · exact .field _ _ rfl

theorem commandEnd_gflog {a : Byte} (h : exec (.gflog a) s = .next t) : CommandEnd s (.gflog a) t := by
  simp only [exec, execGflog, raiseWord_eq, complete_eq] at h
  split at h <;> cases h
  · exact .fault
  · exact .field _ _ rfl

theorem commandEnd_vand {md : MReg} {rows cols : Nat} (h : exec (.vand md rows cols) s = .next t) :
    CommandEnd s (.vand md rows cols) t := by
  simp only [exec, execVand, raiseWord_eq, complete_eq] at h
  split at h <;> cases h
  · exact .fault
  · next hsize =>
    have hs : rows ≤ 256 ∧ cols ≤ 256 := by simpa [not_or] using hsize
    exact .matrix _ _ _ rfl (by simp) hs.1 hs.2

theorem commandEnd_subm {md ms : MReg} {xmin ymin xmax ymax : Nat}
    (h : exec (.subm md ms xmin ymin xmax ymax) s = .next t) : CommandEnd s (.subm md ms xmin ymin xmax ymax) t := by
  simp only [exec, execSubm, raiseWord_eq, complete_eq] at h
  split at h
  · cases h; exact .fault
  · next hlegal =>
    split at h <;> cases h
    · exact .fault
    · next hbounds =>
      have hl := (s.legal_eq_true_iff ms).mp (by simpa using hlegal)
      have hb := (subBounds_eq_true_iff ..).mp (by simpa using hbounds)
      simp only [State.rdMat_rows, State.rdMat_cols] at hb
      exact .matrix _ _ _ rfl (by simp) (by simp only [matSub, Mat.ofFn_rows]; omega)
        (by simp only [matSub, Mat.ofFn_cols]; omega)

theorem commandEnd_minv {md ms : MReg} (h : exec (.minv md ms) s = .next t) : CommandEnd s (.minv md ms) t := by
  simp only [exec, execMinv, raiseWord_eq, raise_eq, complete_eq] at h
  split at h
  · cases h; exact .fault
  · split at h
    · cases h; exact .fault
    · next hlegal =>
      have hl := (s.legal_eq_true_iff ms).mp (by simpa using hlegal)
      split at h
      · cases h; exact .fault
      · next hsquare =>
        split at h <;> cases h
        · next hinv => exact .minv _ _ _ _ hl.1 (not_not.mp hsquare) hinv
        · next hinv => exact .minvSingular _ _ _ _ _ _ hl.1 (not_not.mp hsquare) hinv

theorem commandEnd_mmul {md ma mb : MReg} (h : exec (.mmul md ma mb) s = .next t) :
    CommandEnd s (.mmul md ma mb) t := by
  simp only [exec, execMmul, raiseWord_eq, raise_eq, complete_eq] at h
  split at h
  · cases h; exact .fault
  · next hlegal =>
    split at h <;> cases h
    · exact .fault
    · simp only [not_or, Bool.not_eq_false, State.legal_eq_true_iff] at hlegal
      exact .matrix _ _ _ rfl (by simp) hlegal.1.1 hlegal.2.2

theorem commandEnd_addsv {sd ss : Slot} {c : Byte} (h : exec (.addsv sd ss c) s = .next t) :
    CommandEnd s (.addsv sd ss c) t := by
  simp only [exec, execAddsv, raiseWord_eq, complete_eq] at h
  split at h <;> cases h
  · exact .fault
  · next hlen => exact .shards _ _ (.addsv ..) (s.shlenTooLong_eq_false_iff.mp (by simpa using hlen))

theorem commandEnd_init {k m : Nat} (h : exec (.init k m) s = .next t) : CommandEnd s (.init k m) t := by
  simp only [exec, execInit, raiseWord_eq, raise_eq, complete_eq] at h
  split at h
  · cases h; exact .fault
  · next hguard =>
    split at h <;> cases h
    · exact .fault
    · next hG => exact .init _ _ _ (by omega) (by simp only [Config.nslot] at hguard; omega) hG

theorem commandEnd_encode (h : exec .encode s = .next t) : CommandEnd s .encode t := by
  simp only [exec, execEncode, raiseWord_eq, complete_eq] at h
  split at h
  · cases h; exact .fault
  · next hcfg =>
    split at h <;> cases h
    · exact .fault
    · next hlen =>
      exact .shards _ _ (.encode (by simpa using hcfg)) (s.shlenTooLong_eq_false_iff.mp (by simpa using hlen))

/-- With no data slot absent there is nothing to restore (rule R201). -/
theorem State.restore_of_missing_eq_nil {s : State} (h : s.missing = []) (D : Mat) : s.restore D = s := by
  rw [State.restore, h, List.foldl_nil]

theorem commandEnd_recon (h : exec .recon s = .next t) : CommandEnd s .recon t := by
  simp only [exec, execRecon, raiseWord_eq, raise_eq, complete_eq] at h
  split at h
  · cases h; exact .fault
  · next hcfg =>
    have hc : s.cfgv = true := by simpa using hcfg
    split at h
    · cases h; exact .fault
    · next hlen =>
      have hl := s.shlenTooLong_eq_false_iff.mp (by simpa using hlen)
      split at h
      · next hmiss =>
        cases h
        have hend := CommandEnd.shards .recon _ (.recon hc s.decodeSource) hl
        rwa [State.restore_of_missing_eq_nil hmiss] at hend
      · split at h
        · cases h; exact .fault
        · split at h
          · cases h; exact .fault
          · split at h <;> cases h
            · exact .fault
            · exact .shards _ _ (.recon hc _) hl

/-- Every command ends in one of these ways. -/
theorem commandEnd_of_exec {i : Instr} (h : exec i s = .next t) : CommandEnd s i t := by
  cases i with
  | gfmul a b => cases h; exact .field _ _ rfl
  | gfpow a n => cases h; exact .field _ _ rfl
  | gfinv a => exact commandEnd_gfinv h
  | gflog a => exact commandEnd_gflog h
  | gfexp j => cases h; exact .field _ _ rfl
  | vand md rows cols => exact commandEnd_vand h
  | subm md ms xmin ymin xmax ymax => exact commandEnd_subm h
  | minv md ms => exact commandEnd_minv h
  | mmul md ma mb => exact commandEnd_mmul h
  | addsv sd ss c => exact commandEnd_addsv h
  | init k m => exact commandEnd_init h
  | encode => exact commandEnd_encode h
  | recon => exact commandEnd_recon h

end

end Sys2Proof.Machine
end

section
/-! PROOFS. What the shard commands store to, and which commands can change which state (rules R38, R64, R195, R206, R240). -/

namespace Sys2Proof.Machine

/-! ### Stored sets -/

theorem SameShdBut.trans {P : Nat → Prop} {s t u : State} (h : SameShdBut P s t) (h' : SameShdBut P t u) :
    SameShdBut P s u := fun a ha => (h' a ha).trans (h a ha)

theorem SameShdBut.mono {P Q : Nat → Prop} {s t : State} (h : SameShdBut P s t) (hPQ : ∀ a, P a → Q a) :
    SameShdBut Q s t := fun a ha => h a fun hp => ha (hPQ a hp)

/-- `add_scaled` stores to bytes `[0, len)` of its destination slot (rule R180). -/
theorem sameShdBut_addScaledSlot (s : State) (sd ss : Nat) (c : Byte) (len : Nat) :
    SameShdBut (InRun (s.slotAddr sd 0) len) s (s.addScaledSlot sd ss c len) :=
  fun a ha => s.shdByte_addScaledSlot_of_outside sd ss c len a ha

/-- Accumulating parity shard `j` stores to slot `K + j` (rule R195). -/
theorem sameShdBut_encodeRow (s : State) (j : Nat) :
    SameShdBut (InRun (s.slotAddr (s.k.toNat + j) 0) s.shlen.toNat) s (s.encodeRow j) := by
  suffices h : SameButShd s (s.encodeRow j) ∧
      SameShdBut (InRun (s.slotAddr (s.k.toNat + j) 0) s.shlen.toNat) s (s.encodeRow j) from h.2
  refine forRange_induction (fun _ t => SameButShd s t ∧
    SameShdBut (InRun (s.slotAddr (s.k.toNat + j) 0) s.shlen.toNat) s t) ⟨.refl s, fun _ _ => rfl⟩ ?_
  rintro i t - ⟨ho, ht⟩
  have haddr : t.slotAddr (s.k.toNat + j) 0 = s.slotAddr (s.k.toNat + j) 0 := by rw [ho]; rfl
  refine ⟨ho.trans (sameButShd_addScaledSlot _ _ _ _ _), ht.trans ?_⟩
  rw [← haddr]
  exact sameShdBut_addScaledSlot t _ _ _ _

/-- Offset `a` is one of the first `SHLEN` bytes of a parity slot. -/
def State.InParityBytes (s : State) (a : Nat) : Prop :=
  ∃ j, j < s.m.toNat ∧ InRun (s.slotAddr (s.k.toNat + j) 0) s.shlen.toNat a

/-- ENCODE stores to the parity slots (rule R195). -/
theorem sameShdBut_encodeAll (s : State) : SameShdBut s.InParityBytes s s.encodeAll := by
  suffices h : SameButShd s s.encodeAll ∧ SameShdBut s.InParityBytes s s.encodeAll from h.2
  refine forRange_induction (fun _ t => SameButShd s t ∧ SameShdBut s.InParityBytes s t) ⟨.refl s, fun _ _ => rfl⟩ ?_
  rintro j t hj ⟨ho, ht⟩
  refine ⟨ho.trans (sameButShd_encodeRow t j), ht.trans ((sameShdBut_encodeRow t j).mono fun a ha => ⟨j, hj, ?_⟩)⟩
  rw [ho] at ha
  exact ha

/-! ### RECON's write-back (rules R204 to R206) -/

/-- The states differ in `SHD` and the `PRESENT` bits at most. -/
def SameButShards (s t : State) : Prop := t = { s with shd := t.shd, present := t.present }

theorem SameButShd.sameButShards {s t : State} (h : SameButShd s t) : SameButShards s t := by
  unfold SameButShards
  rw [h]

/-- A recovered shard has the bytes of the shard length (rule R200, steps 7 and 8). -/
@[simp] theorem State.recovered_length (s : State) (coeff : Nat → Byte) : (s.recovered coeff).length = s.shardLen :=
  forRange_induction (fun _ (out : List Byte) => out.length = s.shardLen) List.length_replicate fun q out _ h => by simp [h]

/-- One pass of the write-back: missing slot `i` gets its recovered bytes and its `PRESENT` bit. -/
def State.restoreSlot (s t : State) (D : Mat) (i : Nat) : State :=
  (t.writeSlot i (s.recovered (fun q => D.get i q))).markPresent i

/-- What holds before the write-back and is kept by each missing slot's pass holds after it. -/
theorem State.restore_induction {s : State} {D : Mat} {P : State → Prop} (h0 : P s)
    (hstep : ∀ t i, i < s.k.toNat → s.isPresent i = false → P t → P (s.restoreSlot t D i)) : P (s.restore D) :=
  List.foldlRecOn s.missing _ h0 fun t ht i hi =>
    have hm := (s.mem_missing i).mp hi
    hstep t i hm.1 hm.2 ht

theorem sameButShards_restoreSlot {s t : State} (h : SameButShards s t) (D : Mat) (i : Nat) :
    SameButShards s (s.restoreSlot t D i) := by
  unfold SameButShards at *
  rw [h]
  rfl

/-- The write-back changes `SHD` and the `PRESENT` bits alone. -/
theorem sameButShards_restore (s : State) (D : Mat) : SameButShards s (s.restore D) :=
  State.restore_induction rfl fun _ i _ _ h => sameButShards_restoreSlot h D i

/-- Offset `a` is one of the first `SHLEN` bytes of an absent data slot. -/
def State.InAbsentDataBytes (s : State) (a : Nat) : Prop :=
  ∃ i, i < s.k.toNat ∧ s.isPresent i = false ∧ InRun (s.slotAddr i 0) s.shlen.toNat a

/-- The write-back stores to the absent data slots (rules R206, R208). -/
theorem sameShdBut_restore (s : State) (D : Mat) : SameShdBut s.InAbsentDataBytes s (s.restore D) := by
  suffices h : SameButShards s (s.restore D) ∧ SameShdBut s.InAbsentDataBytes s (s.restore D) from h.2
  refine State.restore_induction (P := fun t => SameButShards s t ∧ SameShdBut s.InAbsentDataBytes s t) ⟨rfl, fun _ _ => rfl⟩ ?_
  rintro t i hi habs ⟨ho, ht⟩
  have haddr : t.slotAddr i 0 = s.slotAddr i 0 := by rw [ho]; rfl
  refine ⟨sameButShards_restoreSlot ho D i, ht.trans fun a ha => ?_⟩
  refine (t.shdByte_writeSlot i _ a).trans (if_neg fun hin => ha ⟨i, hi, habs, ?_⟩)
  rw [haddr, State.recovered_length] at hin
  exact hin

theorem State.isPresent_markPresent_of_ne (s : State) {i j : Nat} (h : i ≠ j) :
    (s.markPresent j).isPresent i = s.isPresent i := by
  simp [State.isPresent, State.markPresent, Ne.symm h]

/-- The write-back sets `PRESENT` bits of absent data slots only (rules R206, R208). -/
theorem State.isPresent_restore (s : State) (D : Mat) {i : Nat} (hi : ¬ (i < s.k.toNat ∧ s.isPresent i = false)) :
    (s.restore D).isPresent i = s.isPresent i := by
  refine State.restore_induction (P := fun t => t.isPresent i = s.isPresent i) rfl fun t j hj habs ht => ?_
  have hij : i ≠ j := by rintro rfl; exact hi ⟨hj, habs⟩
  exact ((t.writeSlot j _).isPresent_markPresent_of_ne hij).trans ht

/-! ### Which commands can change which state (rule R38) -/

section
variable {s t : State} {i : Instr}

/-- A shard command changes `SHD` and the `PRESENT` bits alone. -/
theorem ShardEffect.sameButShards (h : ShardEffect s i t) : SameButShards s t := by
  cases h with
  | addsv => rfl
  | encode => exact (sameButShd_encodeAll s).sameButShards
  | recon => exact sameButShards_restore s _

theorem ShardEffect.isShardWriter (h : ShardEffect s i t) : isShardWriter i = true := by
  cases h <;> rfl

theorem ShardEffect.present_eq (h : ShardEffect s i t) (hi : i ≠ .recon) : t.present = s.present := by
  cases h with
  | addsv => rfl
  | encode => rw [sameButShd_encodeAll s]
  | recon => exact absurd rfl hi

/-- No command changes what only the host writes. -/
theorem CommandEnd.sameHostSide (h : CommandEnd s i t) : SameHostSide s t := by
  cases h with
  | shards i u hu => rw [hu.sameButShards]; exact ⟨rfl, rfl, rfl, rfl, rfl⟩
  | _ => constructor <;> simp [State.wrMat, State.wrGen]

/-- A normal end leaves the record of faults (rule R240). -/
theorem CommandEnd.sameRecord (h : CommandEnd s i t) (herr : t.err = 0) : SameRecord s t := by
  cases h with
  | fault => exact absurd herr (FaultCode.code_ne_zero _)
  | minvSingular => exact absurd herr (FaultCode.code_ne_zero .singularMatrix)
  | shards i u hu => rw [hu.sameButShards]; exact ⟨rfl, rfl, rfl⟩
  | _ => constructor <;> simp [State.wrMat, State.wrGen]

theorem CommandEnd.res_eq (h : CommandEnd s i t) (hi : isField i = false) : t.res = s.res := by
  cases h with
  | field i v hf => rw [hf] at hi; cases hi
  | shards i u hu => rw [hu.sameButShards]; rfl
  | _ => simp [State.wrMat, State.wrGen]

theorem CommandEnd.present_eq (h : CommandEnd s i t) (hi : i ≠ .recon) : t.present = s.present := by
  cases h with
  | shards i u hu => exact hu.present_eq hi
  | _ => simp [State.wrMat, State.wrGen]

theorem CommandEnd.sameCoder (h : CommandEnd s i t) (hi : ∀ k m, i ≠ .init k m) : SameCoder s t := by
  cases h with
  | init k m => exact absurd rfl (hi k m)
  | shards i u hu => rw [hu.sameButShards]; exact ⟨rfl, rfl, rfl, rfl⟩
  | _ => constructor <;> simp [State.wrMat]

theorem CommandEnd.shapes_eq (h : CommandEnd s i t) (hi : isMatrix i = false) : t.shapes = s.shapes := by
  cases h with
  | matrix i md A hm => rw [hm] at hi; cases hi
  | minv => cases hi
  | minvSingular => cases hi
  | shards i u hu => rw [hu.sameButShards]; rfl
  | _ => simp [State.wrGen]

theorem CommandEnd.mat_eq (h : CommandEnd s i t) (hi : isMatrix i = false) (hne : ∀ k m, i ≠ .init k m) :
    t.mat = s.mat := by
  cases h with
  | matrix i md A hm => rw [hm] at hi; cases hi
  | minv => cases hi
  | minvSingular => cases hi
  | init k m => exact absurd rfl (hne k m)
  | shards i u hu => rw [hu.sameButShards]; rfl
  | _ => simp

theorem CommandEnd.shd_eq (h : CommandEnd s i t) (hi : isShardWriter i = false) : t.shd = s.shd := by
  cases h with
  | shards i u hu => rw [hu.isShardWriter] at hi; cases hi
  | _ => simp [State.wrMat, State.wrGen]

/-- Only MINV has an effect beside a fault it raises (rule R161). -/
theorem CommandEnd.eq_endFault (h : CommandEnd s i t) (herr : t.err ≠ 0) (hi : ∀ md ms, i ≠ .minv md ms) :
    ∃ c info0 info1, t = s.endFault c info0 info1 := by
  cases h with
  | fault => exact ⟨_, _, _, rfl⟩
  | minvSingular md ms => exact absurd rfl (hi md ms)
  | _ => exact absurd rfl herr

/-- Counts that are the same list are the same counts. -/
theorem sameShapesBut_of_eq {l : List MReg} (h : t.shapes = s.shapes) : SameShapesBut l s t := fun i _ => by
  simp only [State.shape, h]

theorem sameMatBut_of_eq {P : Nat → Prop} (h : t.mat = s.mat) : SameMatBut P s t := fun a _ => State.matByte_congr h a

theorem sameShdBut_of_eq {P : Nat → Prop} (h : t.shd = s.shd) : SameShdBut P s t := fun a _ => State.shdByte_congr h a

end

/-! ### The generator matrix and the matrix buffers lie apart (rule R62) -/

/-- Counts of at most 256 make a matrix of at most 65536 bytes. -/
theorem Mat.size_le {A : Mat} (hrows : A.rows ≤ 256) (hcols : A.cols ≤ 256) : A.rows * A.cols ≤ 65536 :=
  Nat.mul_le_mul hrows hcols

/-- `wr_mat` of legal counts leaves `GEN`. -/
theorem State.genByte_wrMat (s : State) (md : MReg) {A : Mat} (hrows : A.rows ≤ 256) (hcols : A.cols ≤ 256) (o : Nat) :
    (s.wrMat md A).genByte o = s.genByte o := by
  have hsize := A.size_le hrows hcols
  have hmd := md.isLt
  refine sameMatBut_wrMat s md A _ fun hin => ?_
  simp only [InRun, bufAddr, Config.genBase, Config.matBuf] at hin
  omega

/-- Writing the generator matrix leaves every matrix buffer. -/
theorem State.bufByte_wrGen (s : State) (G : Mat) (r : MReg) {o : Nat} (ho : o < 65536) :
    (s.wrGen G).bufByte r o = s.bufByte r o := by
  have hr := r.isLt
  refine (s.matByte_wrGen G _).trans (if_neg fun hin => ?_)
  simp only [bufAddr, Config.genBase, Config.matBuf] at hin
  omega

/-- MINV's values have the size of its source (rule R161). -/
theorem State.minv_counts {s : State} {ms : MReg} {W R : Mat} (hsquare : (s.shape ms).rows = (s.shape ms).cols)
    (h : matInvert (s.rdMat ms) = .ok W R) :
    W.rows = (s.shape ms).rows.toNat ∧ W.cols = (s.shape ms).rows.toNat ∧
    R.rows = (s.shape ms).rows.toNat ∧ R.cols = (s.shape ms).rows.toNat := by
  obtain ⟨⟨hWr, hWc⟩, hRr, hRc⟩ := matInvert_ok_counts h
  exact ⟨hWr, hWc.trans (by rw [State.rdMat_cols, hsquare]), hRr, hRc⟩

theorem State.minvSingular_counts {s : State} {ms : MReg} {r : Nat} {W : Mat}
    (hsquare : (s.shape ms).rows = (s.shape ms).cols) (h : matInvert (s.rdMat ms) = .singular r W) :
    W.rows = (s.shape ms).rows.toNat ∧ W.cols = (s.shape ms).rows.toNat := by
  obtain ⟨hWr, hWc⟩ := matInvert_singular_counts h
  exact ⟨hWr, hWc.trans (by rw [State.rdMat_cols, hsquare])⟩

section
variable {s t : State} {i : Instr}

/-- No command but INIT changes `GEN` (rule R38). -/
theorem CommandEnd.genByte_eq (h : CommandEnd s i t) (hi : ∀ k m, i ≠ .init k m) (o : Nat) :
    t.genByte o = s.genByte o := by
  cases h with
  | matrix i md A _ _ hrows hcols => exact s.genByte_wrMat md hrows hcols o
  | minv md ms W R hlegal hsquare hinv =>
    obtain ⟨hWr, hWc, hRr, hRc⟩ := State.minv_counts hsquare hinv
    exact ((s.wrMat ms W).genByte_wrMat md (hRr.trans_le hlegal) (hRc.trans_le hlegal) o).trans
      (s.genByte_wrMat ms (hWr.trans_le hlegal) (hWc.trans_le hlegal) o)
  | minvSingular md ms r W info0 info1 hlegal hsquare hinv =>
    obtain ⟨hWr, hWc⟩ := State.minvSingular_counts hsquare hinv
    exact s.genByte_wrMat ms (hWr.trans_le hlegal) (hWc.trans_le hlegal) o
  | init k m => exact absurd rfl (hi k m)
  | shards i u hu => rw [hu.sameButShards]; rfl
  | _ => rfl

/-- No command but the matrix commands changes a matrix buffer (rule R38). -/
theorem CommandEnd.bufByte_eq (h : CommandEnd s i t) (hi : isMatrix i = false) (r : MReg) {o : Nat} (ho : o < 65536) :
    t.bufByte r o = s.bufByte r o := by
  by_cases hinit : ∃ k m, i = .init k m
  · obtain ⟨k, m, rfl⟩ := hinit
    cases h with
    | init k m G => exact (s.setCoder k m).bufByte_wrGen G r ho
    | matrix i md A hm => cases hm
    | shards i u hu => cases hu
    | _ => rfl
  · exact State.matByte_congr (h.mat_eq hi fun k m he => hinit ⟨k, m, he⟩) _

end

/-- Settles O50: the clauses of the table of writers, each from the ways a command can end. -/
theorem writersOfEachState : Obligations.WritersOfEachState := fun i s t hexec =>
  have h : CommandEnd s i t := commandEnd_of_exec hexec
  ⟨h.sameHostSide, h.res_eq, fun hm => ⟨sameShapesBut_of_eq (h.shapes_eq hm), fun r _ ho => h.bufByte_eq hm r ho⟩,
    fun hw => sameShdBut_of_eq (h.shd_eq hw), h.present_eq,
    fun hi => ⟨h.sameCoder hi, fun o _ => h.genByte_eq hi o⟩, h.sameRecord⟩

/-- Bit `j` of `ERRSTICKY` after a fault (rule R240). -/
theorem getLsbD_endFault_errsticky (s : State) (c : FaultCode) (info0 info1 : Word) (j : Nat) :
    (s.endFault c info0 info1).errsticky.getLsbD j = (s.errsticky.getLsbD j || decide (j = c.code.toNat)) := by
  have hc : c.code.toNat < 32 := by have := c.code_range; omega
  simp [hc, eq_comm]

/-- Settles O47: a command ends normally, with the record kept, or by a fault entry, which sets the bit of its code. -/
theorem commandEndRecord : Obligations.CommandEndRecord := by
  intro i s t hexec
  have h := commandEnd_of_exec hexec
  by_cases h0 : t.err = 0
  · exact .inl ⟨h0, h.sameRecord h0⟩
  · right
    cases h with
    | fault => exact ⟨(FaultCode.code_range _).1, (FaultCode.code_range _).2, getLsbD_endFault_errsticky s _ _ _⟩
    | minvSingular md ms r W info0 info1 =>
      exact ⟨(FaultCode.code_range _).1, (FaultCode.code_range _).2, getLsbD_endFault_errsticky (s.wrMat ms W) _ _ _⟩
    | _ => exact absurd rfl h0

end Sys2Proof.Machine
end

section
/-! PROOFS. The frames of the field commands, MINV, ADDSV, INIT, ENCODE and RECON (rules R38, R64, R240). -/

namespace Sys2Proof.Machine

/-! ### The field commands -/

/-- A field command writes neither a matrix register nor the shard memory (rule R38). -/
theorem not_matrix_not_shardWriter_of_isField {i : Instr} (hi : isField i = true) :
    isMatrix i = false ∧ isShardWriter i = false := by
  cases i <;> simp [isField, isMatrix, isShardWriter] at hi ⊢

/-- Settles O39: a field command faults with the state as it was, or writes `RES`. -/
theorem fieldCommandsFrame : Obligations.FieldCommandsFrame := by
  intro i s t hi hexec
  have h : CommandEnd s i t := commandEnd_of_exec hexec
  have hinit : ∀ k m, i ≠ .init k m := by rintro k m rfl; cases hi
  have hminv : ∀ md ms, i ≠ .minv md ms := by rintro md ms rfl; cases hi
  have hrecon : i ≠ .recon := by rintro rfl; cases hi
  obtain ⟨hmat, hshd⟩ := not_matrix_not_shardWriter_of_isField hi
  refine ⟨h.sameHostSide, h.sameCoder hinit, h.present_eq hrecon, sameShapesBut_of_eq (h.shapes_eq hmat),
    sameMatBut_of_eq (h.mat_eq hmat hinit), sameShdBut_of_eq (h.shd_eq hshd), h.sameRecord, fun herr => ?_⟩
  obtain ⟨c, info0, info1, rfl⟩ := h.eq_endFault herr hminv
  rfl

/-! ### MINV -/

theorem SameShapesBut.trans {l : List MReg} {s t u : State} (h : SameShapesBut l s t) (h' : SameShapesBut l t u) :
    SameShapesBut l s u := fun i hi => (h' i hi).trans (h i hi)

theorem SameMatBut.trans {P : Nat → Prop} {s t u : State} (h : SameMatBut P s t) (h' : SameMatBut P t u) :
    SameMatBut P s u := fun a ha => (h' a ha).trans (h a ha)

theorem SameMatBut.mono {P Q : Nat → Prop} {s t : State} (h : SameMatBut P s t) (hPQ : ∀ a, P a → Q a) :
    SameMatBut Q s t := fun a ha => h a fun hp => ha (hPQ a hp)

/-- A result with the counts its register already has leaves every count. -/
theorem sameShapesBut_wrMat_of_same_counts {s : State} {ms : MReg} {W : Mat}
    (hsquare : (s.shape ms).rows = (s.shape ms).cols) (hrows : W.rows = (s.shape ms).rows.toNat)
    (hcols : W.cols = (s.shape ms).rows.toNat) (l : List MReg) : SameShapesBut l s (s.wrMat ms W) := by
  intro i _
  rw [State.shape_wrMat]
  split
  · next h =>
    subst h
    rw [hrows, hcols, BitVec.ofNat_toNat, BitVec.setWidth_eq]
    exact congrArg (Shape.mk _) hsquare
  · rfl

/-- MINV stores to the first `size × size` bytes of its source, and when it ends normally of its destination; the counts
of the source stay (rule R161). -/
theorem CommandEnd.minv_stores {md ms : MReg} {s t : State} (h : CommandEnd s (.minv md ms) t) :
    let len := (s.shape ms).rows.toNat * (s.shape ms).rows.toNat
    (SameShapesBut [] s t ∧ SameMatBut Nowhere s t ∧ t.err ≠ 0) ∨
    (SameShapesBut [] s t ∧ SameMatBut (InRun (bufAddr ms 0) len) s t ∧ t.err = 2) ∨
    (SameShapesBut [md] s t ∧
      SameMatBut (fun a => InRun (bufAddr md 0) len a ∨ InRun (bufAddr ms 0) len a) s t ∧ t.err = 0) := by
  intro len
  cases h with
  | fault => exact .inl ⟨fun _ _ => rfl, fun _ _ => rfl, FaultCode.code_ne_zero _⟩
  | field _ _ hf => cases hf
  | matrix _ _ _ _ hne => exact absurd rfl (hne md ms)
  | shards _ _ hu => cases hu
  | minvSingular _ _ r W info0 info1 _ hsquare hinv =>
    obtain ⟨hWr, hWc⟩ := State.minvSingular_counts hsquare hinv
    have hstored := sameMatBut_wrMat s ms W
    rw [hWr, hWc] at hstored
    exact .inr (.inl ⟨sameShapesBut_wrMat_of_same_counts hsquare hWr hWc [], hstored, rfl⟩)
  | minv _ _ W R _ hsquare hinv =>
    obtain ⟨hWr, hWc, hRr, hRc⟩ := State.minv_counts hsquare hinv
    have hsource := sameMatBut_wrMat s ms W
    have hdest := sameMatBut_wrMat (s.wrMat ms W) md R
    rw [hWr, hWc] at hsource
    rw [hRr, hRc] at hdest
    exact .inr (.inr ⟨(sameShapesBut_wrMat_of_same_counts hsquare hWr hWc [md]).trans (sameShapesBut_wrMat _ md R),
      (hsource.mono fun _ => .inr).trans (hdest.mono fun _ => .inl), rfl⟩)

/-- Settles O41: the three ways MINV can end, each with what it stores to. -/
theorem minvFrame : Obligations.MinvFrame := by
  intro md ms s t hexec len
  have h : CommandEnd s (.minv md ms) t := commandEnd_of_exec hexec
  have key : SameShapesBut [md] s t ∧
      SameMatBut (fun a => InRun (bufAddr md 0) len a ∨ InRun (bufAddr ms 0) len a) s t ∧
      (t.err = 6 → SameShapesBut [] s t ∧ SameMatBut Nowhere s t) ∧
      (t.err = 2 → SameShapesBut [] s t ∧ SameMatBut (InRun (bufAddr ms 0) len) s t) := by
    rcases h.minv_stores with ⟨hshape, hmat, -⟩ | ⟨hshape, hmat, herr⟩ | ⟨hshape, hmat, herr⟩
    · exact ⟨fun i _ => hshape i List.not_mem_nil, hmat.mono fun _ => False.elim, fun _ => ⟨hshape, hmat⟩,
        fun _ => ⟨hshape, hmat.mono fun _ => False.elim⟩⟩
    · exact ⟨fun i _ => hshape i List.not_mem_nil, hmat.mono fun _ => .inr, fun h6 => by simp [herr] at h6,
        fun _ => ⟨hshape, hmat⟩⟩
    · exact ⟨hshape, hmat, fun h6 => by simp [herr] at h6, fun h2 => by simp [herr] at h2⟩
  obtain ⟨hshape, hmat, hparam, hsing⟩ := key
  exact ⟨h.sameHostSide, h.sameCoder (by simp), h.res_eq rfl, h.present_eq (by simp), sameShdBut_of_eq (h.shd_eq rfl),
    hshape, hmat, h.sameRecord, hparam, hsing⟩

/-! ### INIT -/

/-- Settles O43: INIT faults with the state as it was, or sets the coder and writes the `n × k` bytes of its matrix. -/
theorem initFrame : Obligations.InitFrame := by
  intro k m s t hexec
  have h : CommandEnd s (.init k m) t := commandEnd_of_exec hexec
  have hstored : SameMatBut (InRun 0x80000 ((k + m) * k)) s t := by
    cases h with
    | fault => exact fun _ _ => rfl
    | field _ _ hf => cases hf
    | matrix _ _ _ hm => cases hm
    | shards _ _ hu => cases hu
    | init _ _ G _ _ hG =>
      obtain ⟨hrows, hcols⟩ := buildGenerator_counts hG
      refine fun a ha => ((s.setCoder k m).matByte_wrGen G a).trans (if_neg ?_)
      rw [hrows, hcols]
      exact ha
  refine ⟨h.sameHostSide, h.res_eq rfl, h.present_eq (by simp), sameShapesBut_of_eq (h.shapes_eq rfl),
    sameShdBut_of_eq (h.shd_eq rfl), hstored, h.sameRecord, fun herr => ?_⟩
  obtain ⟨c, info0, info1, rfl⟩ := h.eq_endFault herr (by simp)
  exact ⟨⟨rfl, rfl, rfl, rfl⟩, fun _ _ => rfl⟩

/-! ### The shard commands -/

/-- A shard command ends with a fault that finds the state as it was, or normally after its effect. -/
theorem CommandEnd.shardEffect {i : Instr} {s t : State} (h : CommandEnd s i t) (hi : isShardWriter i = true) :
    (∃ c info0 info1, t = s.endFault c info0 info1) ∨ ∃ u, ShardEffect s i u ∧ t = u.endNormal := by
  cases h with
  | fault => exact .inl ⟨_, _, _, rfl⟩
  | shards _ u hu => exact .inr ⟨u, hu, rfl⟩
  | field i _ hf => rw [(not_matrix_not_shardWriter_of_isField hf).2] at hi; cases hi
  | matrix i _ _ hm => cases i <;> simp [isMatrix, isShardWriter] at hm hi
  | minv => cases hi
  | minvSingular => cases hi
  | init => cases hi

/-- What the effect of a shard command stores to, the whole command stores to. -/
theorem CommandEnd.sameShdBut {i : Instr} {s t : State} {P : Nat → Prop} (h : CommandEnd s i t)
    (hi : isShardWriter i = true) (heff : ∀ u, ShardEffect s i u → SameShdBut P s u) : SameShdBut P s t := by
  rcases h.shardEffect hi with ⟨c, info0, info1, rfl⟩ | ⟨u, hu, rfl⟩
  · exact fun _ _ => rfl
  · exact heff u hu

/-- Settles O42: ADDSV accumulates into its destination slot alone. -/
theorem addsvFrame : Obligations.AddsvFrame := by
  intro sd ss c s t hexec
  have h : CommandEnd s (.addsv sd ss c) t := commandEnd_of_exec hexec
  refine ⟨h.sameHostSide, h.sameCoder (by simp), h.res_eq rfl, h.present_eq (by simp),
    sameShapesBut_of_eq (h.shapes_eq rfl), sameMatBut_of_eq (h.mat_eq rfl (by simp)), h.sameShdBut rfl ?_,
    h.sameRecord, fun herr => ?_⟩
  · rintro u ⟨⟩
    exact sameShdBut_addScaledSlot s _ _ _ _
  · obtain ⟨c, info0, info1, rfl⟩ := h.eq_endFault herr (by simp)
    exact fun _ _ => rfl

/-- Settles O44: ENCODE accumulates into the parity slots alone. -/
theorem encodeFrame : Obligations.EncodeFrame := by
  intro s t hexec
  have h : CommandEnd s .encode t := commandEnd_of_exec hexec
  refine ⟨h.sameHostSide, h.sameCoder (by simp), h.res_eq rfl, h.present_eq (by simp),
    sameShapesBut_of_eq (h.shapes_eq rfl), sameMatBut_of_eq (h.mat_eq rfl (by simp)), h.sameShdBut rfl ?_,
    h.sameRecord, fun herr => ?_⟩
  · rintro u ⟨⟩
    exact sameShdBut_encodeAll s
  · obtain ⟨c, info0, info1, rfl⟩ := h.eq_endFault herr (by simp)
    exact fun _ _ => rfl

/-- Settles O45: RECON writes back to the absent data slots alone, and marks them alone. -/
theorem reconFrame : Obligations.ReconFrame := by
  intro s t hexec
  have h : CommandEnd s .recon t := commandEnd_of_exec hexec
  refine ⟨h.sameHostSide, h.sameCoder (by simp), h.res_eq rfl, sameShapesBut_of_eq (h.shapes_eq rfl),
    sameMatBut_of_eq (h.mat_eq rfl (by simp)), h.sameShdBut rfl ?_, fun i hi => ?_, h.sameRecord, fun herr => ?_⟩
  · rintro u ⟨⟩
    exact sameShdBut_restore s _
  · rcases h.shardEffect rfl with ⟨c, info0, info1, rfl⟩ | ⟨u, hu, rfl⟩
    · rfl
    · cases hu
      exact s.isPresent_restore _ hi
  · obtain ⟨c, info0, info1, rfl⟩ := h.eq_endFault herr (by simp)
    exact ⟨rfl, fun _ _ => rfl⟩

end Sys2Proof.Machine
end

section
/-! PROOFS. The registers as the host reads and writes them (rules R26, R29, R30, R33 to R37). -/

namespace Sys2Proof.Machine

/-! ### Reads -/

/-- A register at an aligned offset of `REG` is accessed, not refused (rule R61). -/
theorem regStop_eq_none {off : Nat} (hlt : off < 0x100) (hal : off % 4 = 0) : regStop off = none := by
  rw [regStop, if_neg (by omega), if_neg (by omega)]

/-- A register access that answers a next state was not stopped. -/
theorem eq_of_regStop_getD_eq_next {off : Nat} {t u : State} (h : (regStop off).getD (.next u) = .next t) : t = u := by
  unfold regStop at h
  split_ifs at h <;> cases h
  rfl

theorem State.readReg_present (s : State) (i : MReg) : s.readReg (0x040 + 4 * i.val) = s.presentWord i.val := by
  rw [State.readReg]
  iterate 10 rw [if_neg (by omega)]
  rw [bankIndex_of_eq i rfl rfl]

theorem State.readReg_mshape (s : State) (i : MReg) : s.readReg (0x080 + 4 * i.val) = shapeWord (s.shape i) := by
  rw [State.readReg]
  iterate 10 rw [if_neg (by omega)]
  rw [bankIndex_of_outside (by omega), bankIndex_of_eq i rfl rfl]

/-- `CMDL` and the unmapped offsets read 0 (rule R37). -/
theorem State.readReg_unmapped (s : State) {off : Nat}
    (h : off = 0x004 ∨ (0x02C ≤ off ∧ off < 0x040) ∨ (0x060 ≤ off ∧ off < 0x080) ∨ 0x0A0 ≤ off) :
    s.readReg off = 0 := by
  rw [State.readReg]
  iterate 10 rw [if_neg (by omega)]
  rw [bankIndex_of_outside (by omega), bankIndex_of_outside (by omega)]

theorem countWord_toNat (c : Count) : (countWord c).toNat = c.toNat := by
  have := c.isLt
  simp only [countWord, BitVec.toNat_setWidth]
  omega

/-! ### Writes -/

/-- An offset with an index in a bank is that register's. -/
theorem eq_of_bankIndex_eq_some {base off : Nat} {i : MReg} (hb : base % 4 = 0) (h : bankIndex base off = some i) :
    off = base + 4 * i.val := by
  rw [bankIndex] at h
  split at h
  · cases h
    simp only
    omega
  · cases h

/-- What a write to a register other than `CMDL` can do: set the one state of its offset, or nothing (rule R37). -/
inductive RegWrite (s : State) (off : Nat) (v : Word) : State → Prop where
  | cmdh (h : off = 0x000) : RegWrite s off v (s.setCmdh v)
  | acknowledge (h : off = 0x00C) : RegWrite s off v (s.acknowledge v)
  | shlen (h : off = 0x01C) : RegWrite s off v (s.setShlen v)
  | present (i : MReg) (h : off = 0x040 + 4 * i.val) : RegWrite s off v (s.setPresent (s.presentWith i.val v))
  | mshape (i : MReg) (h : off = 0x080 + 4 * i.val) : RegWrite s off v (s.setShape i (shapeOf v))
  | ignored (hcmdh : off ≠ 0x000) (hack : off ≠ 0x00C) (hshlen : off ≠ 0x01C)
      (hpresent : ∀ i : MReg, off ≠ 0x040 + 4 * i.val) (hmshape : ∀ i : MReg, off ≠ 0x080 + 4 * i.val) :
      RegWrite s off v s

theorem regWrite_writeReg (s : State) (off : Nat) (v : Word) : RegWrite s off v (s.writeReg off v) := by
  have notIn : ∀ {base}, base % 4 = 0 → bankIndex base off = none → ∀ i : MReg, off ≠ base + 4 * i.val := by
    intro base hb hnone i hi
    rw [bankIndex_of_eq i hi hb] at hnone
    cases hnone
  unfold State.writeReg
  split
  · next h => exact .cmdh h
  · next hcmdh =>
    split
    · next h => exact .acknowledge h
    · next hack =>
      split
      · next h => exact .shlen h
      · next hshlen =>
        split
        · next i h => exact .present i (eq_of_bankIndex_eq_some rfl h)
        · next hp =>
          split
          · next i h => exact .mshape i (eq_of_bankIndex_eq_some rfl h)
          · next hs => exact .ignored hcmdh hack hshlen (notIn rfl hp) (notIn rfl hs)

section
variable {s t : State} {off : Nat} {v : Word}

/-- What no register write changes (rule R37). -/
theorem RegWrite.frame (h : RegWrite s off v t) :
    SameCoder s t ∧ t.res = s.res ∧ t.err = s.err ∧ t.errinfo0 = s.errinfo0 ∧ t.errinfo1 = s.errinfo1 ∧
    t.mat = s.mat ∧ t.shd = s.shd ∧ t.pc = s.pc ∧ t.lmax = s.lmax ∧ t.host = s.host ∧ t.readData = s.readData := by
  cases h <;> exact ⟨⟨rfl, rfl, rfl, rfl⟩, rfl, rfl, rfl, rfl, rfl, rfl, rfl, rfl, rfl, rfl⟩

theorem RegWrite.cmdh_eq (h : RegWrite s off v t) : t.cmdh = if off = 0x000 then v else s.cmdh := by
  cases h with
  | cmdh h => exact (if_pos h).symm
  | _ => exact (if_neg (by omega)).symm

theorem RegWrite.shlen_eq (h : RegWrite s off v t) : t.shlen = if off = 0x01C then v else s.shlen := by
  cases h with
  | shlen h => exact (if_pos h).symm
  | _ => exact (if_neg (by omega)).symm

/-- Each bit written as 1 to `ERRSTICKY` is cleared (rule R35). -/
theorem RegWrite.errsticky_eq (h : RegWrite s off v t) :
    t.errsticky = if off = 0x00C then s.errsticky &&& ~~~v else s.errsticky := by
  cases h with
  | acknowledge h => exact (if_pos h).symm
  | _ => exact (if_neg (by omega)).symm

theorem RegWrite.isPresent_eq (h : RegWrite s off v t) {i j : Nat} (hi : i < 8) (hj : j < 32) :
    t.isPresent (32 * i + j) = if off = 0x040 + 4 * i then v.getLsbD j else s.isPresent (32 * i + j) := by
  cases h with
  | present i' h =>
    have hoff : off = 0x040 + 4 * i ↔ i = i'.val := by omega
    simp only [hoff]
    exact s.getLsbD_presentWith hi hj v
  | ignored _ _ _ hpresent => exact (if_neg (hpresent ⟨i, hi⟩)).symm
  | _ => exact (if_neg (by omega)).symm

theorem RegWrite.shape_eq (h : RegWrite s off v t) (i : MReg) :
    t.shape i = if off = 0x080 + 4 * i.val then shapeOf v else s.shape i := by
  cases h with
  | mshape i' h =>
    have hoff : off = 0x080 + 4 * i.val ↔ i = i' := by rw [Fin.ext_iff]; omega
    simp only [hoff]
    exact s.shape_setShape i' i _
  | ignored _ _ _ _ hmshape => exact (if_neg (hmshape i)).symm
  | _ => exact (if_neg (by omega)).symm

end

end Sys2Proof.Machine
end

section
/-! PROOFS. What one step can do with the host's next access (rules R22, R61 to R63, R91, R97). -/

namespace Sys2Proof.Machine

/-! ### What comes of each access -/

/-- A write to a register other than `CMDL` (rule R37). -/
theorem State.access_wrReg (s : State) {off : Nat} (v : Word) (hne : off ≠ 0x004) :
    s.access (.wrReg off v) = .done ((regStop off).getD (.next (s.writeReg off v))) := by
  simp only [State.access]
  split
  · next h => rw [h, Option.getD_some]
  · next h => rw [h, Option.getD_none]; exact if_neg hne

theorem State.access_rdReg (s : State) (off : Nat) :
    s.access (.rdReg off) = .done ((regStop off).getD (.next (s.setReadData (.reg (s.readReg off))))) := by
  simp only [State.access]
  split
  · next h => rw [h, Option.getD_some]
  · next h => rw [h, Option.getD_none]

theorem State.access_wrMat (s : State) (off : Nat) (b : Byte) : s.access (.wrMat off b) =
    .done (if off < Config.matSize then .next (s.hostWriteMat off b) else .fault (.matOutside off)) :=
  (apply_ite ..).symm

theorem State.access_rdMat (s : State) (off : Nat) : s.access (.rdMat off) =
    .done (if off < Config.matSize then .next (s.setReadData (.byte (s.matByte off))) else .fault (.matOutside off)) :=
  (apply_ite ..).symm

theorem State.access_wrShd (s : State) (off : Nat) (b : Byte) : s.access (.wrShd off b) =
    .done (if off < s.shdSize then .next (s.writeShd off [b]) else .fault (.shdOutside off)) :=
  (apply_ite ..).symm

theorem State.access_rdShd (s : State) (off : Nat) : s.access (.rdShd off) =
    .done (if off < s.shdSize then .next (s.setReadData (.byte (s.shdByte off))) else .fault (.shdOutside off)) :=
  (apply_ite ..).symm

/-! ### A step on each kind of access -/

/-- With no access to come a step changes nothing (rule R271). -/
theorem step_of_host_nil {s : State} (h : s.host = []) : step s = .next s := by
  simp only [step, State.nextAccess, h]

/-- A step answers what comes of the host's next access, when that issues no command. -/
theorem step_of_done {s : State} {a : HostAccess} {rest : List HostAccess} {r : Result} (h : s.host = a :: rest)
    (ha : (s.setHost rest).access a = .done r) : step s = r := by
  simp only [step, State.nextAccess, h, ha]

/-- The command of an issued word runs with the access taken off the host's list (rule R91). -/
theorem step_of_command {s : State} {v : Word} {rest : List HostAccess} {i : Instr} (h : s.Issues v rest)
    (hd : decode (cmdOf s.cmdh v) = .ok i) : step s = exec i (s.setHost rest) := by
  have ha : (s.setHost rest).access (.wrReg 0x004 v) = .issue (cmdOf s.cmdh v) (s.setHost rest) := rfl
  unfold State.Issues at h
  simp only [step, State.nextAccess, h, ha, hd]

/-- An issued word that is no command ends with `ILLEGAL_COMMAND` (rules R97, R236). -/
theorem step_of_illegal {s : State} {v : Word} {rest : List HostAccess} {e : DecodeError} (h : s.Issues v rest)
    (hd : decode (cmdOf s.cmdh v) = .error e) :
    step s = .next ((s.setHost rest).endFault .illegalCommand v s.cmdh) := by
  have ha : (s.setHost rest).access (.wrReg 0x004 v) = .issue (cmdOf s.cmdh v) (s.setHost rest) := rfl
  unfold State.Issues at h
  simp only [step, State.nextAccess, h, ha, hd, raiseIllegal, raiseWord_eq, cmdLo_cmdOf, cmdHi_cmdOf]

/-- What a step can do with the host's next access, in the state with that access taken off the host's list. -/
inductive AccessEnd (s : State) : HostAccess → State → Prop where
  | command (v : Word) (i : Instr) (t : State) (hd : decode (cmdOf s.cmdh v) = .ok i) (h : exec i s = .next t) :
      AccessEnd s (.wrReg 0x004 v) t
  | illegal (v : Word) (e : DecodeError) (hd : decode (cmdOf s.cmdh v) = .error e) :
      AccessEnd s (.wrReg 0x004 v) (s.endFault .illegalCommand v s.cmdh)
  | wrReg (off : Nat) (v : Word) (t : State) (hne : off ≠ 0x004) (h : RegWrite s off v t) : AccessEnd s (.wrReg off v) t
  | rdReg (off : Nat) : AccessEnd s (.rdReg off) (s.setReadData (.reg (s.readReg off)))
  | wrMat (off : Nat) (b : Byte) (h : off < Config.matSize) : AccessEnd s (.wrMat off b) (s.hostWriteMat off b)
  | rdMat (off : Nat) (h : off < Config.matSize) : AccessEnd s (.rdMat off) (s.setReadData (.byte (s.matByte off)))
  | wrShd (off : Nat) (b : Byte) (h : off < s.shdSize) : AccessEnd s (.wrShd off b) (s.writeShd off [b])
  | rdShd (off : Nat) (h : off < s.shdSize) : AccessEnd s (.rdShd off) (s.setReadData (.byte (s.shdByte off)))

/-- An access to `MAT` or `SHD` that answers a next state was inside its space. -/
theorem of_ite_eq_next {p : Prop} [Decidable p] {t u : State} {f : Fault}
    (h : (if p then .next u else .fault f : Result) = .next t) : p ∧ t = u := by
  split at h <;> cases h
  exact ⟨‹p›, rfl⟩

/-- A step with an access to come that answers a next state makes that access, and runs the command it issues. -/
theorem accessEnd_of_step {s t : State} {a : HostAccess} {rest : List HostAccess} (hhost : s.host = a :: rest)
    (h : step s = .next t) : AccessEnd (s.setHost rest) a t := by
  cases a with
  | wrReg off v =>
    by_cases hcmdl : off = 0x004
    · subst hcmdl
      cases hd : decode (cmdOf s.cmdh v) with
      | ok i => exact .command v i t hd (step_of_command hhost hd ▸ h)
      | error e =>
        rw [step_of_illegal hhost hd] at h
        cases h
        exact .illegal v e hd
    · rw [step_of_done hhost (State.access_wrReg _ v hcmdl)] at h
      rw [eq_of_regStop_getD_eq_next h]
      exact .wrReg off v _ hcmdl (regWrite_writeReg _ off v)
  | rdReg off =>
    rw [step_of_done hhost (State.access_rdReg _ off)] at h
    rw [eq_of_regStop_getD_eq_next h]
    exact .rdReg off
  | wrMat off b =>
    rw [step_of_done hhost (State.access_wrMat _ off b)] at h
    obtain ⟨hin, rfl⟩ := of_ite_eq_next h
    exact .wrMat off b hin
  | rdMat off =>
    rw [step_of_done hhost (State.access_rdMat _ off)] at h
    obtain ⟨hin, rfl⟩ := of_ite_eq_next h
    exact .rdMat off hin
  | wrShd off b =>
    rw [step_of_done hhost (State.access_wrShd _ off b)] at h
    obtain ⟨hin, rfl⟩ := of_ite_eq_next h
    exact .wrShd off b hin
  | rdShd off =>
    rw [step_of_done hhost (State.access_rdShd _ off)] at h
    obtain ⟨hin, rfl⟩ := of_ite_eq_next h
    exact .rdShd off hin

/-- A step that answers a next state is idle and changes nothing, or makes the host's next access. -/
theorem step_cases {s t : State} (h : step s = .next t) :
    (s.host = [] ∧ t = s) ∨ ∃ a rest, s.host = a :: rest ∧ AccessEnd (s.setHost rest) a t := by
  cases hhost : s.host with
  | nil =>
    rw [step_of_host_nil hhost] at h
    cases h
    exact .inl ⟨rfl, rfl⟩
  | cons a rest => exact .inr ⟨a, rest, rfl, accessEnd_of_step hhost h⟩

/-! ### The statements about one step -/

/-- Settles O60: an empty host list is the idle event. -/
theorem idleWithoutHost : Obligations.IdleWithoutHost := fun _ h => step_of_host_nil h

/-- A word that matches no row of rule R96 does not decode. -/
theorem decode_error_of_no_match {I : Cmd} (h : ∀ r ∈ opRows, I &&& r.mask ≠ r.pattern) :
    ∃ e, decode I = .error e := by
  have hnone : opRows.find? (fun r => r.matches I) = none :=
    List.find?_eq_none.mpr fun r hr => by simpa [OpRow.matches] using h r hr
  unfold decode
  rw [hnone]
  cases opRows.find? (fun r => r.pattern.extractLsb' 0 8 == fieldOp I) with
  | some r => exact ⟨_, rfl⟩
  | none => exact ⟨_, rfl⟩

/-- Settles O6: the word does not decode, and its fault records the halves the host wrote. -/
theorem illegalWordFaults : Obligations.IllegalWordFaults := by
  intro s v rest hissues hnomatch
  obtain ⟨e, he⟩ := decode_error_of_no_match hnomatch
  rw [step_of_illegal hissues he, State.endFault_eq_faulted]
  rfl

/-- Every command counts as one command end (rule R22). -/
theorem CommandEnd.pc_eq {s t : State} {i : Instr} (h : CommandEnd s i t) : t.pc = s.pc + 1 := by
  cases h with
  | shards i u hu => rw [hu.sameButShards]; rfl
  | _ => simp [State.wrMat, State.wrGen]

/-- Settles O51: a command end adds 1, by each access that issues none the pc stays. -/
theorem pcCountsCommands : Obligations.PcCountsCommands := by
  refine ⟨rfl, fun s t h => ?_⟩
  rcases step_cases h with ⟨hnil, rfl⟩ | ⟨a, rest, hhost, ha⟩
  · rw [hnil]
  · rw [hhost]
    cases ha with
    | command v i _ _ hexec => exact (commandEnd_of_exec hexec).pc_eq
    | illegal => rfl
    | wrReg off v _ hne hw =>
      obtain ⟨-, -, -, -, -, -, -, hpc, -⟩ := hw.frame
      simp only [if_neg hne]
      exact hpc
    | wrMat off b =>
      unfold State.hostWriteMat
      split <;> rfl
    | _ => rfl

/-- Settles O56: the value of each register by the equations of `readReg`. -/
theorem registerReads : Obligations.RegisterReads := by
  intro s off rest hhost hlt hal
  have hstep := step_of_done hhost (State.access_rdReg _ off)
  rw [regStop_eq_none hlt hal] at hstep
  refine ⟨s.readReg off, hstep, ?_, ?_, ?_, ?_, ?_, ?_, ?_, ?_, ?_, ?_, ?_, ?_, s.readReg_unmapped⟩
  · rintro rfl; rfl
  · rintro rfl; rfl
  · rintro rfl; rfl
  · rintro rfl; rfl
  · rintro rfl; exact BitVec.toNat_setWidth_of_le (by decide : 8 ≤ 32)
  · rintro rfl; exact countWord_toNat s.k
  · rintro rfl; exact countWord_toNat s.m
  · rintro rfl; exact countWord_toNat s.n
  · rintro rfl; exact s.getLsbD_statusWord
  · rintro rfl; exact s.getLsbD_stickyWord
  · rintro i hi rfl j hj
    rw [s.readReg_present ⟨i, hi⟩]
    exact s.getLsbD_presentWord i hj
  · rintro i rfl
    rw [s.readReg_mshape]
    exact shapeWord_toNat _

/-- Settles O57: a register write sets the one state of its offset, or nothing. -/
theorem registerWrites : Obligations.RegisterWrites := by
  intro s off v rest hhost hlt hal hne
  have hstep := step_of_done hhost (State.access_wrReg _ v hne)
  rw [regStop_eq_none hlt hal] at hstep
  have hw := regWrite_writeReg (s.setHost rest) off v
  obtain ⟨hcoder, hres, herr, hinfo0, hinfo1, hmat, hshd, hpc, hlmax, hhost', hread⟩ := hw.frame
  refine ⟨_, hstep, hhost', ⟨hcoder.cfgv, hcoder.k, hcoder.m, hcoder.n⟩, hres, herr, hinfo0, hinfo1, hmat, hshd, hpc, hlmax, hread, hw.cmdh_eq, hw.shlen_eq,
    fun j _ hj => ?_, fun i j hi hj => hw.isPresent_eq hi hj, hw.shape_eq⟩
  rw [hw.errsticky_eq]
  have hj32 : j < 32 := by omega
  by_cases h : off = 0x00C <;> simp [h, hj32]

end Sys2Proof.Machine
end

section
/-! PROOFS. The invariants of rule R40: they hold at reset, each operation of the state keeps them, so every step does. -/

namespace Sys2Proof.Machine

/-! ### At reset -/

/-- Settles O54: reset lists no byte, has no coder and no fault recorded. -/
theorem resetMeetsInvariant : Obligations.ResetMeetsInvariant where
  left := {
    total := rfl
    configured := fun h => Bool.noConfusion h
    unconfigured := fun _ => ⟨rfl, rfl, rfl⟩
    errCode := by decide
    stickyBits := rfl
    matForm := State.reset_wf.1
    shdForm := State.reset_wf.2
    matBound := fun _ h => absurd h List.not_mem_nil
    shdBound := fun _ h => absurd h List.not_mem_nil
    lmaxPos := Nat.le_add_left 1 _ }
  right := fun h => Bool.noConfusion h

/-! ### Operations of the state -/

section
variable {s : State} (h : s.Inv)
include h

theorem State.Inv.setRes (v : Byte) : (s.setRes v).Inv := { h with }

theorem State.Inv.setHost (l : List HostAccess) : (s.setHost l).Inv := { h with }

theorem State.Inv.setReadData (d : ReadData) : (s.setReadData d).Inv := { h with }

theorem State.Inv.setShape (i : MReg) (sh : Shape) : (s.setShape i sh).Inv := { h with }

theorem State.Inv.markPresent (i : Nat) : (s.markPresent i).Inv := { h with }

theorem State.Inv.endNormal : s.endNormal.Inv := { h with errCode := by simp }

/-- A write inside `MAT` keeps its canonical form (rule R62). -/
theorem State.Inv.writeMat {base : Nat} {bytes : List Byte} (hin : base + bytes.length ≤ Config.matSize) :
    (s.writeMat base bytes).Inv :=
  { h with
    matForm := Memory.wf_write h.matForm base bytes
    matBound := fun c hc => (Memory.mem_write hc).elim (h.matBound c) fun hrun => hrun.2.trans_le hin }

/-- A write inside `SHD` keeps its canonical form (rule R63). -/
theorem State.Inv.writeShd {base : Nat} {bytes : List Byte} (hin : base + bytes.length ≤ s.shdSize) :
    (s.writeShd base bytes).Inv :=
  { h with
    shdForm := Memory.wf_write h.shdForm base bytes
    shdBound := fun c hc => (Memory.mem_write hc).elim (h.shdBound c) fun hrun => hrun.2.trans_le hin }

/-- The counts of a legal INIT (rules R31, R193). -/
theorem State.Inv.setCoder {k m : Nat} (hk : 1 ≤ k) (hkm : k + m ≤ 256) : (s.setCoder k m).Inv :=
  { h with
    total := by simp only [State.setCoder_k, State.setCoder_m, State.setCoder_n, BitVec.toNat_ofNat]; omega
    configured := fun _ => by simp only [State.setCoder_k, State.setCoder_n, BitVec.toNat_ofNat]; omega
    unconfigured := fun hc => by simp at hc }

/-- Fault entry by a fault some command or the decoder raises (rules R35, R240). -/
theorem State.Inv.endFault {c : FaultCode} (hc : c ≠ .shardLengthMismatch) (info0 info1 : Word) :
    (s.endFault c info0 info1).Inv :=
  { h with
    errCode := by cases c <;> simp [FaultCode.code] at hc ⊢
    stickyBits := by
      have hbit : BitVec.twoPow 32 c.code.toNat &&& ~~~stickyMask = 0 := by cases c <;> decide
      rw [State.endFault_errsticky, BitVec.and_or_distrib_right, h.stickyBits, hbit]
      rfl }

/-- The host's acknowledgement clears bits only (rule R35). -/
theorem State.Inv.acknowledge (v : Word) : (s.acknowledge v).Inv :=
  { h with
    stickyBits := by
      rw [State.acknowledge_errsticky, BitVec.and_assoc, BitVec.and_comm (~~~v), ← BitVec.and_assoc, h.stickyBits]
      exact BitVec.zero_and }

/-! ### Results of commands -/

/-- A matrix of legal counts fits its buffer (rules R25, R62). -/
theorem State.Inv.wrMat (md : MReg) {A : Mat} (hrows : A.rows ≤ 256) (hcols : A.cols ≤ 256) : (s.wrMat md A).Inv := by
  have hsize := A.size_le hrows hcols
  have hmd := md.isLt
  refine (h.setShape md _).writeMat ?_
  simp only [Mat.bytes_length, bufAddr, Config.matSize, Config.matBuf]
  omega

/-- A generator matrix of legal counts fits `GEN` (rules R32, R62). -/
theorem State.Inv.wrGen {G : Mat} (hrows : G.rows ≤ 256) (hcols : G.cols ≤ 256) : (s.wrGen G).Inv := by
  have hsize := G.size_le hrows hcols
  refine h.writeMat ?_
  simp only [Mat.bytes_length, Config.genBase, Config.matSize, Config.matBuf]
  omega

/-- A shard that fits a slot fits `SHD` (rule R63). -/
theorem State.Inv.writeSlot {sl : Nat} {bytes : List Byte} (hsl : sl < 256) (hlen : bytes.length ≤ s.lmax) :
    (s.writeSlot sl bytes).Inv := by
  refine h.writeShd ?_
  have hslots := Nat.mul_le_mul_right s.lmax (Nat.succ_le_of_lt hsl)
  rw [Nat.succ_mul] at hslots
  simp only [State.slotAddr, State.shdSize, Config.nslot]
  omega

theorem State.Inv.addScaledSlot {sd : Nat} (ss : Nat) (c : Byte) {len : Nat} (hsd : sd < 256) (hlen : len ≤ s.lmax) :
    (s.addScaledSlot sd ss c len).Inv :=
  h.writeSlot hsd (by simpa using hlen)

/-- Every parity slot of a constructed coder exists (rules R31, R40). -/
theorem State.Inv.parity_slot_lt (hcfg : s.cfgv = true) {j : Nat} (hj : j < s.m.toNat) : s.k.toNat + j < 256 := by
  have htotal := h.total
  have hn := (h.configured hcfg).2
  omega

theorem State.Inv.encodeRow (hcfg : s.cfgv = true) (hlen : s.shlen.toNat ≤ s.lmax) {j : Nat} (hj : j < s.m.toNat) :
    (s.encodeRow j).Inv := by
  suffices hr : SameButShd s (s.encodeRow j) ∧ (s.encodeRow j).Inv from hr.2
  refine forRange_induction (fun _ t => SameButShd s t ∧ t.Inv) ⟨.refl s, h⟩ ?_
  rintro i t - ⟨ho, ht⟩
  have hlmax : t.lmax = s.lmax := by rw [ho]
  exact ⟨ho.trans (sameButShd_addScaledSlot _ _ _ _ _),
    ht.addScaledSlot _ _ (h.parity_slot_lt hcfg hj) (hlmax ▸ hlen)⟩

theorem State.Inv.encodeAll (hcfg : s.cfgv = true) (hlen : s.shlen.toNat ≤ s.lmax) : s.encodeAll.Inv := by
  suffices hr : SameButShd s s.encodeAll ∧ s.encodeAll.Inv from hr.2
  refine forRange_induction (fun _ t => SameButShd s t ∧ t.Inv) ⟨.refl s, h⟩ ?_
  rintro j t hj ⟨ho, ht⟩
  refine ⟨ho.trans (sameButShd_encodeRow t j), ht.encodeRow ?_ ?_ ?_⟩
  · rw [ho]; exact hcfg
  · rw [ho]; exact hlen
  · rw [ho]; exact hj

theorem State.Inv.restore (hcfg : s.cfgv = true) (hlen : s.shlen.toNat ≤ s.lmax) (D : Mat) : (s.restore D).Inv := by
  suffices hr : SameButShards s (s.restore D) ∧ (s.restore D).Inv from hr.2
  refine State.restore_induction (P := fun t => SameButShards s t ∧ t.Inv) ⟨rfl, h⟩ ?_
  rintro t i hi - ⟨ho, ht⟩
  have htotal := h.total
  have hn := (h.configured hcfg).2
  have hlmax : t.lmax = s.lmax := by rw [ho]
  refine ⟨sameButShards_restoreSlot ho D i, (ht.writeSlot (by omega) ?_).markPresent i⟩
  rw [State.recovered_length, hlmax]
  exact hlen

theorem ShardEffect.inv {i : Instr} {u : State} (hu : ShardEffect s i u) (hlen : s.shlen.toNat ≤ s.lmax) : u.Inv := by
  cases hu with
  | addsv sd ss c => exact h.addScaledSlot _ _ sd.isLt hlen
  | encode hcfg => exact h.encodeAll hcfg hlen
  | recon hcfg D => exact h.restore hcfg hlen D

/-! ### Commands and steps -/

/-- However a command ends, the invariants hold. -/
theorem CommandEnd.inv {i : Instr} {t : State} (hend : CommandEnd s i t) : t.Inv := by
  cases hend with
  | fault hc => exact h.endFault (ne_shardLengthMismatch_of_mem_faultsOf hc) _ _
  | field _ v => exact (h.setRes v).endNormal
  | matrix _ md A _ _ hrows hcols => exact (h.wrMat md hrows hcols).endNormal
  | minv md ms W R hlegal hsquare hinv =>
    obtain ⟨hWr, hWc, hRr, hRc⟩ := State.minv_counts hsquare hinv
    exact ((h.wrMat ms (hWr.trans_le hlegal) (hWc.trans_le hlegal)).wrMat md (hRr.trans_le hlegal)
      (hRc.trans_le hlegal)).endNormal
  | minvSingular md ms r W _ _ hlegal hsquare hinv =>
    obtain ⟨hWr, hWc⟩ := State.minvSingular_counts hsquare hinv
    exact (h.wrMat ms (hWr.trans_le hlegal) (hWc.trans_le hlegal)).endFault (by simp) _ _
  | shards _ u hu hlen => exact (hu.inv h hlen).endNormal
  | init k m G hk hkm hG =>
    obtain ⟨hrows, hcols⟩ := buildGenerator_counts hG
    exact ((h.setCoder hk hkm).wrGen (hrows.trans_le hkm) (by omega)).endNormal

theorem RegWrite.inv {off : Nat} {v : Word} {t : State} (hw : RegWrite s off v t) : t.Inv := by
  cases hw with
  | acknowledge => exact h.acknowledge v
  | _ => exact { h with }

theorem State.Inv.hostWriteMat (off : Nat) (b : Byte) : (s.hostWriteMat off b).Inv := by
  unfold State.hostWriteMat
  split
  · next hoff =>
    refine h.writeMat ?_
    simp only [Config.genBase, Config.matSize, Config.matBuf, List.length_singleton] at hoff ⊢
    omega
  · exact h

/-- Whatever the host's access asks, the invariants hold after it. -/
theorem AccessEnd.inv {a : HostAccess} {t : State} (ha : AccessEnd s a t) : t.Inv := by
  cases ha with
  | command v i _ _ hexec => exact (commandEnd_of_exec hexec).inv h
  | illegal => exact h.endFault (by simp) _ _
  | wrReg _ _ _ _ hw => exact hw.inv h
  | wrMat off b => exact h.hostWriteMat off b
  | wrShd off b hin => exact h.writeShd (Nat.succ_le_of_lt hin)
  | _ => exact h.setReadData _

end

/-- Settles O52: the host's next access, with the command it issues, keeps the invariants. -/
theorem stepKeepsInvariant : Obligations.StepKeepsInvariant := by
  intro s t hs hstep
  rcases step_cases hstep with ⟨-, rfl⟩ | ⟨a, rest, -, ha⟩
  · exact hs
  · exact ha.inv (hs.setHost rest)

/-! ### The generator matrix -/

/-- `GEN` stays the coder's generator matrix when the coder and the bytes of `GEN` stay. -/
theorem State.GenOk.of_same {s t : State} (hgen : s.GenOk) (hcoder : SameCoder s t)
    (hbytes : ∀ o, t.genByte o = s.genByte o) : t.GenOk := by
  intro hcfg
  obtain ⟨G, hG, hget⟩ := hgen (hcoder.cfgv ▸ hcfg)
  refine ⟨G, by rw [hcoder.k, hcoder.m]; exact hG, fun r c hr hc => ?_⟩
  rw [hcoder.n] at hr
  rw [hcoder.k] at hc
  rw [State.genElem, hcoder.k, hbytes]
  exact hget r c hr hc

/-- Byte `r × cols + c` of `GEN` after a matrix is written there (rule R32). -/
theorem State.genByte_wrGen_elem (s : State) (G : Mat) {r c : Nat} (hr : r < G.rows) (hc : c < G.cols) :
    (s.wrGen G).genByte (r * G.cols + c) = G.get r c := by
  have hlt : r * G.cols + c < G.rows * G.cols := by
    have hrow := Nat.mul_le_mul_right G.cols (Nat.succ_le_of_lt hr)
    rw [Nat.succ_mul] at hrow
    omega
  rw [State.genByte, State.matByte_wrGen, if_pos (by omega), Nat.add_sub_cancel_left]
  exact G.bytes_getD hr hc

/-- INIT leaves `GEN` holding the generator matrix it built (rules R191, R193). -/
theorem genOk_of_init (s : State) {k m : Nat} {G : Mat} (hkm : k + m ≤ 256) (hG : buildGenerator k m = .ok G) :
    ((s.setCoder k m).wrGen G).endNormal.GenOk := by
  obtain ⟨hrows, hcols⟩ := buildGenerator_counts hG
  have count : ∀ x, x ≤ 256 → (BitVec.ofNat 9 x).toNat = x := fun x hx => Nat.mod_eq_of_lt (by omega)
  intro _
  simp only [State.genElem, State.endNormal_k, State.endNormal_m, State.endNormal_n, State.wrGen, State.writeMat_k,
    State.writeMat_m, State.writeMat_n, State.setCoder_k, State.setCoder_m, State.setCoder_n, count k (by omega),
    count m (by omega), count (k + m) hkm]
  refine ⟨G, hG, fun r c hr hc => ?_⟩
  have helem := (s.setCoder k m).genByte_wrGen_elem G (hrows ▸ hr) (hcols ▸ hc)
  rw [hcols] at helem
  exact helem

section
variable {s t : State} (h : s.GenOk)
include h

/-- However a command ends, `GEN` is the coder's generator matrix. -/
theorem CommandEnd.genOk {i : Instr} (hend : CommandEnd s i t) : t.GenOk := by
  by_cases hinit : ∃ k m, i = .init k m
  · obtain ⟨k, m, rfl⟩ := hinit
    cases hend with
    | init _ _ G _ hkm hG => exact genOk_of_init s hkm hG
    | fault => exact h
    | field _ _ hf => cases hf
    | matrix _ _ _ hm => cases hm
    | shards _ _ hu => cases hu
  · have hne : ∀ k m, i ≠ .init k m := fun k m he => hinit ⟨k, m, he⟩
    exact h.of_same (hend.sameCoder hne) (hend.genByte_eq hne)

/-- A host write leaves `GEN`: an offset there is ignored (rule R62). -/
theorem State.GenOk.hostWriteMat (off : Nat) (b : Byte) : (s.hostWriteMat off b).GenOk := by
  unfold State.hostWriteMat
  split
  · next hoff =>
    refine h.of_same ⟨rfl, rfl, rfl, rfl⟩ fun o => (s.matByte_writeMat off [b] _).trans (if_neg ?_)
    simp only [List.length_singleton]
    omega
  · exact h

/-- Whatever the host's access asks, `GEN` is the coder's generator matrix after it. -/
theorem AccessEnd.genOk {a : HostAccess} (ha : AccessEnd s a t) : t.GenOk := by
  cases ha with
  | command v i _ _ hexec => exact (commandEnd_of_exec hexec).genOk h
  | illegal => exact h
  | wrReg off v _ _ hw =>
    obtain ⟨hcoder, -, -, -, -, hmat, -⟩ := hw.frame
    exact h.of_same hcoder fun o => State.matByte_congr hmat _
  | wrMat off b => exact h.hostWriteMat off b
  | _ => exact h

end

/-- Settles O53: the host's next access, with the command it issues, keeps both. -/
theorem stepKeepsGenerator : Obligations.StepKeepsGenerator := by
  intro s t hs hgen hstep
  refine ⟨stepKeepsInvariant s t hs hstep, ?_⟩
  rcases step_cases hstep with ⟨-, rfl⟩ | ⟨a, rest, -, ha⟩
  · exact hgen
  · exact ha.genOk (s := s.setHost rest) hgen

end Sys2Proof.Machine
end

section
/-! PROOFS. The shard memory byte by byte: what ENCODE and RECON's write-back leave in each lane, and that no shard command moves information between lanes (rules R66, R180, R195, R200, R284). -/

namespace Sys2Proof.Machine

/-! ### Every byte of every slot after a shard command -/

/-- Every byte of every slot after ENCODE's loops: each parity slot has its own sum added (rule R195). -/
theorem State.slotByte_encodeAll (s : State) (sl : Nat) {b : Nat} (hl : s.shlen.toNat ≤ s.lmax) (hb : b < s.lmax) :
    s.encodeAll.slotByte sl b =
      if (s.k.toNat ≤ sl ∧ sl < s.k.toNat + s.m.toNat) ∧ b < s.shlen.toNat then
        gfAdd (s.slotByte sl b) (gfSum s.k.toNat (fun i => gfMul (s.genElem sl i) (s.slotByte i b)))
      else s.slotByte sl b := by
  have main := forRange_induction (n := s.m.toNat) (s := s) (body := fun j t => t.encodeRow j)
    (fun n t => SameButShd s t ∧ ∀ sl, t.slotByte sl b =
      if (s.k.toNat ≤ sl ∧ sl < s.k.toNat + n) ∧ b < s.shlen.toNat then
        gfAdd (s.slotByte sl b) (gfSum s.k.toNat (fun i => gfMul (s.genElem sl i) (s.slotByte i b)))
      else s.slotByte sl b)
    ⟨.refl s, fun sl => (if_neg (by omega)).symm⟩ ?_
  · exact main.2 sl
  · rintro j t - ⟨ho, ht⟩
    refine ⟨ho.trans (sameButShd_encodeRow t j), fun sl => ?_⟩
    have hk : t.k = s.k := by rw [ho]
    have hshlen : t.shlen = s.shlen := by rw [ho]
    have hlmax : t.lmax = s.lmax := by rw [ho]
    have hgen : ∀ r c, t.genElem r c = s.genElem r c := by rw [ho]; exact fun _ _ => rfl
    have hdata : ∀ i, i < s.k.toNat → t.slotByte i b = s.slotByte i b := fun i hi => by rw [ht, if_neg (by omega)]
    rw [t.slotByte_encodeRow j sl (by rwa [hshlen, hlmax]) (by rwa [hlmax]), hk, hshlen]
    by_cases hsl : sl = s.k.toNat + j ∧ b < s.shlen.toNat
    · obtain ⟨rfl, hlt⟩ := hsl
      rw [if_pos ⟨rfl, hlt⟩, if_pos (by omega), ht, if_neg (by omega)]
      simp only [hgen]
      rw [gfSum_congr fun i hi => by rw [hdata i hi]]
    · rw [if_neg hsl, ht]
      exact if_congr (by omega) rfl rfl

/-- Byte `b` of a recovered shard is the sum of the chosen shards' bytes `b` under its coefficients (rule R200, steps 7
and 8). -/
theorem State.recovered_getD (s : State) (coeff : Nat → Byte) {b : Nat} (hb : b < s.shlen.toNat) :
    (s.recovered coeff).getD b 0 =
      gfSum s.k.toNat (fun q => gfMul (coeff q) (s.slotByte (s.chosen.getD q 0) b)) := by
  suffices h : (s.recovered coeff).length = s.shardLen ∧ (s.recovered coeff).getD b 0 =
      gfSum s.k.toNat (fun q => gfMul (coeff q) (s.slotByte (s.chosen.getD q 0) b)) from h.2
  refine forRange_induction (fun n (out : List Byte) => out.length = s.shardLen ∧
    out.getD b 0 = gfSum n (fun q => gfMul (coeff q) (s.slotByte (s.chosen.getD q 0) b))) ⟨List.length_replicate, ?_⟩ ?_
  · have hlt : b < s.shardLen := hb
    simp [List.getD_eq_getElem?_getD, hlt]
  · rintro q out - ⟨hlen, hout⟩
    refine ⟨by simp [hlen], ?_⟩
    rw [addScaled_getD _ (by rw [hlen]; exact hb) (by rw [State.slotBytes_length]; exact hb), hout,
      State.slotBytes_getD (len := s.shardLen) _ _ hb, gfSum_succ, gfAdd]

/-- Every byte of every slot after a list of write-backs, each of bytes computed from `s` (rules R204 to R206). -/
theorem State.slotByte_foldl_restoreSlot (s : State) (D : Mat) (sl : Nat) {b : Nat} (hl : s.shlen.toNat ≤ s.lmax)
    (hb : b < s.lmax) (l : List Nat) {t : State} (ht : SameButShards s t) :
    (l.foldl (fun t i => s.restoreSlot t D i) t).slotByte sl b =
      if sl ∈ l ∧ b < s.shlen.toNat then (s.recovered (fun q => D.get sl q)).getD b 0 else t.slotByte sl b := by
  induction l generalizing t with
  | nil => simp
  | cons i l ih =>
    have hlmax : t.lmax = s.lmax := by rw [ht]
    have hslot : (s.restoreSlot t D i).slotByte sl b =
        if sl = i ∧ b < s.shlen.toNat then (s.recovered (fun q => D.get i q)).getD b 0 else t.slotByte sl b := by
      have h := t.slotByte_writeSlot i sl (s.recovered (fun q => D.get i q)) (by rwa [State.recovered_length, hlmax])
        (hlmax ▸ hb)
      rwa [State.recovered_length] at h
    rw [List.foldl_cons, ih (sameButShards_restoreSlot ht D i), hslot]
    by_cases hi : sl = i
    · subst hi
      by_cases hlt : b < s.shlen.toNat <;> simp [hlt]
    · simp [hi]

/-- Every byte of every slot after RECON's write-back: each missing slot holds its recovered bytes (rules R200, R206). -/
theorem State.slotByte_restore (s : State) (D : Mat) (sl : Nat) {b : Nat} (hl : s.shlen.toNat ≤ s.lmax)
    (hb : b < s.lmax) :
    (s.restore D).slotByte sl b =
      if sl ∈ s.missing ∧ b < s.shlen.toNat then
        gfSum s.k.toNat (fun q => gfMul (D.get sl q) (s.slotByte (s.chosen.getD q 0) b))
      else s.slotByte sl b := by
  refine (s.slotByte_foldl_restoreSlot D sl hl hb s.missing (t := s) rfl).trans ?_
  split
  · next h => exact s.recovered_getD _ h.2
  · rfl

/-! ### Operations that work lane by lane -/

/-- The state with another shard memory. -/
def State.withShd (s : State) (bytes : Memory) : State := { s with shd := bytes }

/-- Lane `b` after `f` depends on lane `b` before it alone, the rest of the state being the same (rule R66). -/
def LaneWise (f : State → State) : Prop :=
  ∀ (s : State) (bytes : Memory) (b : Nat), s.shlen.toNat ≤ s.lmax → b < s.lmax →
    (∀ sl, (s.withShd bytes).slotByte sl b = s.slotByte sl b) →
    ∀ sl, (f (s.withShd bytes)).slotByte sl b = (f s).slotByte sl b

theorem laneWise_addScaledSlot (sd ss : Nat) (c : Byte) : LaneWise (fun s => s.addScaledSlot sd ss c s.shardLen) := by
  intro s bytes b hl hb hbytes sl
  refine ((s.withShd bytes).slotByte_addScaledSlot sd ss sl c hl hb).trans
    (.trans ?_ (s.slotByte_addScaledSlot sd ss sl c hl hb).symm)
  simp only [hbytes]

theorem laneWise_encodeAll : LaneWise State.encodeAll := by
  intro s bytes b hl hb hbytes sl
  refine ((s.withShd bytes).slotByte_encodeAll sl hl hb).trans (.trans ?_ (s.slotByte_encodeAll sl hl hb).symm)
  simp only [hbytes]
  rfl

theorem laneWise_restore (D : Mat) : LaneWise (fun s => s.restore D) := by
  intro s bytes b hl hb hbytes sl
  refine ((s.withShd bytes).slotByte_restore D sl hl hb).trans (.trans ?_ (s.slotByte_restore D sl hl hb).symm)
  simp only [hbytes]
  rfl

/-! ### RECON, case by case (rule R200) -/

section
variable {s : State}

theorem exec_recon_of_not_configured (hcfg : s.cfgv = false) :
    exec .recon s = .next (s.endFault .notConfigured (cmdLo (encode .recon)) (cmdHi (encode .recon))) :=
  if_pos hcfg

theorem exec_recon_of_too_long (hcfg : s.cfgv = true) (hlen : s.lmax < s.shlen.toNat) :
    exec .recon s = .next (s.endFault .badParam (cmdLo (encode .recon)) (cmdHi (encode .recon))) := by
  simp [exec, execRecon, hcfg, s.shlenTooLong_eq_true_iff.mpr hlen]

variable (hcfg : s.cfgv = true) (hlen : s.shlen.toNat ≤ s.lmax)
include hcfg hlen

/-- With every data slot present RECON does nothing (rule R201). -/
theorem exec_recon_of_none_missing (hnone : s.missing = []) : exec .recon s = .next s.endNormal := by
  simp [exec, execRecon, hcfg, s.shlenTooLong_eq_false_iff.mpr hlen, hnone]

/-- Either count of shards falls short (rules R200, R233). -/
theorem exec_recon_of_insufficient (hsome : s.missing ≠ [])
    (hfew : s.m.toNat < s.missing.length ∨ s.presentSlots.length < s.k.toNat) :
    exec .recon s = .next (s.endFault .insufficientShards s.shardInfo0 s.shardInfo1) := by
  simp only [exec, execRecon, hcfg, s.shlenTooLong_eq_false_iff.mpr hlen, hsome, raise_eq]
  by_cases hmany : s.m.toNat < s.missing.length
  · simp [hmany]
  · simp [hmany, hfew.resolve_left hmany]

variable (hsome : s.missing ≠ []) (henough : ¬ (s.m.toNat < s.missing.length ∨ s.presentSlots.length < s.k.toNat))
include hsome henough

theorem exec_recon_of_singular {r : Nat} {W : Mat} (hinv : matInvert s.decodeSource = .singular r W) :
    exec .recon s = .next (s.endFault .singularMatrix (BitVec.ofNat 32 r) (BitVec.ofNat 32 s.k.toNat)) := by
  obtain ⟨hmany, hfew⟩ := not_or.mp henough
  simp [exec, execRecon, hcfg, s.shlenTooLong_eq_false_iff.mpr hlen, hsome, hmany, hfew, hinv]

/-- The chosen rows invert, and the missing slots are restored (rule R200, steps 5 to 9). -/
theorem exec_recon_of_ok {W D : Mat} (hinv : matInvert s.decodeSource = .ok W D) :
    exec .recon s = .next (s.restore D).endNormal := by
  obtain ⟨hmany, hfew⟩ := not_or.mp henough
  simp [exec, execRecon, hcfg, s.shlenTooLong_eq_false_iff.mpr hlen, hsome, hmany, hfew, hinv]

end

/-! ### What a shard command does is decided without reading the shard memory -/

/-- The one outcome of a command for every content of the shard memory: the same fault, or the same lane-wise effect. -/
inductive ShardOutcome (s : State) (i : Instr) : Prop where
  | fault (c : FaultCode) (info0 info1 : Word)
      (hexec : ∀ bytes, exec i (s.withShd bytes) = .next ((s.withShd bytes).endFault c info0 info1))
  | normal (f : State → State) (hf : LaneWise f) (hlen : s.shlen.toNat ≤ s.lmax)
      (hexec : ∀ bytes, exec i (s.withShd bytes) = .next (f (s.withShd bytes)).endNormal)

theorem shardOutcome_addsv (s : State) (sd ss : Slot) (c : Byte) : ShardOutcome s (.addsv sd ss c) := by
  by_cases hlen : s.shlenTooLong = true
  · exact .fault _ _ _ fun bytes => if_pos hlen
  · exact .normal _ (laneWise_addScaledSlot sd.val ss.val c) (s.shlenTooLong_eq_false_iff.mp (by simpa using hlen))
      fun bytes => if_neg hlen

theorem shardOutcome_encode (s : State) : ShardOutcome s .encode := by
  by_cases hcfg : s.cfgv = false
  · exact .fault _ _ _ fun bytes => if_pos hcfg
  · by_cases hlen : s.shlenTooLong = true
    · exact .fault _ _ _ fun bytes => (if_neg hcfg).trans (if_pos hlen)
    · exact .normal _ laneWise_encodeAll (s.shlenTooLong_eq_false_iff.mp (by simpa using hlen))
        fun bytes => (if_neg hcfg).trans (if_neg hlen)

theorem shardOutcome_recon (s : State) : ShardOutcome s .recon := by
  by_cases hcfg : s.cfgv = false
  · exact .fault _ _ _ fun bytes => exec_recon_of_not_configured (s := s.withShd bytes) hcfg
  replace hcfg : s.cfgv = true := by simpa using hcfg
  by_cases hlen : s.lmax < s.shlen.toNat
  · exact .fault _ _ _ fun bytes => exec_recon_of_too_long (s := s.withShd bytes) hcfg hlen
  replace hlen : s.shlen.toNat ≤ s.lmax := Nat.not_lt.mp hlen
  by_cases hnone : s.missing = []
  · exact .normal id (fun _ _ _ _ _ h => h) hlen fun bytes =>
      exec_recon_of_none_missing (s := s.withShd bytes) hcfg hlen hnone
  by_cases hfew : s.m.toNat < s.missing.length ∨ s.presentSlots.length < s.k.toNat
  · exact .fault .insufficientShards s.shardInfo0 s.shardInfo1 fun bytes =>
      exec_recon_of_insufficient (s := s.withShd bytes) hcfg hlen hnone hfew
  cases hinv : matInvert s.decodeSource with
  | singular r W =>
    exact .fault .singularMatrix (BitVec.ofNat 32 r) (BitVec.ofNat 32 s.k.toNat) fun bytes =>
      exec_recon_of_singular (s := s.withShd bytes) hcfg hlen hnone hfew hinv
  | ok W D =>
    exact .normal _ (laneWise_restore D) hlen fun bytes =>
      exec_recon_of_ok (s := s.withShd bytes) hcfg hlen hnone hfew hinv

/-- Settles O38: both runs take the same branch, and each effect of a shard command works lane by lane. -/
theorem lanesAreIndependent : Obligations.LanesAreIndependent := by
  intro s bytes i t u b hb hi hbytes ht hu
  have hout : ShardOutcome s i := by
    rcases hi with rfl | rfl | ⟨sd, ss, c, rfl⟩
    · exact shardOutcome_encode s
    · exact shardOutcome_recon s
    · exact shardOutcome_addsv s sd ss c
  cases hout with
  | fault c info0 info1 hexec =>
    cases (hexec s.shd).symm.trans ht
    cases (hexec bytes).symm.trans hu
    exact ⟨rfl, hbytes⟩
  | normal f hf hlen hexec =>
    cases (hexec s.shd).symm.trans ht
    cases (hexec bytes).symm.trans hu
    exact ⟨rfl, hf s bytes b hlen hb hbytes⟩

end Sys2Proof.Machine
end

section
/-! PROOFS. The byte accesses of the host to `MAT` and `SHD`, and the accesses that stop (rules R61 to R63, R68). -/

namespace Sys2Proof.Machine

/-- The byte of `MAT` a host write leaves at each offset (rule R62). -/
theorem State.matByte_writeMat_singleton (s : State) (off : Nat) (v : Byte) (a : Nat) :
    (s.writeMat off [v]).matByte a = if a = off then v else s.matByte a := by
  rw [State.matByte_writeMat, List.length_singleton]
  by_cases h : a = off
  · subst h; simp
  · rw [if_neg h, if_neg (by omega)]

/-- The byte of `SHD` a host write leaves at each offset (rule R63). -/
theorem State.shdByte_writeShd_singleton (s : State) (off : Nat) (v : Byte) (a : Nat) :
    (s.writeShd off [v]).shdByte a = if a = off then v else s.shdByte a := by
  rw [State.shdByte_writeShd, List.length_singleton]
  by_cases h : a = off
  · subst h; simp
  · rw [if_neg h, if_neg (by omega)]

/-- Every byte of every slot lies in `SHD` (rule R63). -/
theorem State.slotAddr_lt_shdSize (s : State) {sl b : Nat} (hsl : sl < 256) (hb : b < s.lmax) :
    s.slotAddr sl b < s.shdSize := by
  have hslots := Nat.mul_le_mul_right s.lmax (Nat.succ_le_of_lt hsl)
  rw [Nat.succ_mul] at hslots
  simp only [State.slotAddr, State.shdSize, Config.nslot]
  omega

/-- A host write to byte `b` of slot `sl` changes that byte of that slot and no other (rules R63, R68). -/
theorem State.slotByte_writeShd_singleton (s : State) {sl b sl' b' : Nat} (v : Byte) (hb : b < s.lmax)
    (hb' : b' < s.lmax) :
    (s.writeShd (s.slotAddr sl b) [v]).slotByte sl' b' = if sl' = sl ∧ b' = b then v else s.slotByte sl' b' := by
  have haddr : s.slotAddr sl' b' = s.slotAddr sl b ↔ sl' = sl ∧ b' = b :=
    ⟨s.slotAddr_inj hb' hb, by rintro ⟨rfl, rfl⟩; rfl⟩
  refine (s.shdByte_writeShd_singleton _ v (s.slotAddr sl' b')).trans ?_
  simp only [haddr, State.slotByte]

/-- Settles O58: a read answers the byte; a write reaches its own byte, or none when it lies in `GEN`. -/
theorem hostMemoryAccess : Obligations.HostMemoryAccess := by
  intro s v rest
  refine ⟨fun off hoff hhost => ?_, fun off hgen hoff hhost => ?_, fun off hoff hhost => ?_,
    fun sl b hsl hb => ⟨fun hhost => ?_, fun hhost => ?_⟩⟩
  · exact (step_of_done hhost (State.access_rdMat _ off)).trans (if_pos hoff)
  · refine (step_of_done hhost (State.access_wrMat _ off v)).trans ((if_pos hoff).trans ?_)
    rw [State.hostWriteMat, if_neg (by simp only [Config.genBase, Config.matBuf]; omega)]
    rfl
  · refine ⟨(s.setHost rest).writeMat off [v], (step_of_done hhost (State.access_wrMat _ off v)).trans ?_, rfl, ?_⟩
    · refine (if_pos (by simp only [Config.matSize, Config.matBuf]; omega)).trans (congrArg _ ?_)
      exact if_pos hoff
    · exact (s.setHost rest).matByte_writeMat_singleton off v
  · exact (step_of_done hhost (State.access_rdShd _ _)).trans (if_pos (s.slotAddr_lt_shdSize hsl hb))
  · refine ⟨(s.setHost rest).writeShd (s.slotAddr sl b) [v],
      (step_of_done hhost (State.access_wrShd _ _ v)).trans ?_, rfl, ?_⟩
    · exact if_pos (s.slotAddr_lt_shdSize hsl hb)
    · exact fun sl' b' hb' => (s.setHost rest).slotByte_writeShd_singleton v hb hb'

/-- A register offset of 0x100 or more does not exist (rule R61). -/
theorem regStop_of_outside {off : Nat} (h : 0x100 ≤ off) : regStop off = some (.fault (.regOutside off)) := if_pos h

/-- A register is accessed whole, at a multiple of 4 (rule R61). -/
theorem regStop_of_misaligned {off : Nat} (hlt : off < 0x100) (hal : off % 4 ≠ 0) :
    regStop off = some (.refused (.regMisaligned off)) :=
  (if_neg (Nat.not_le.mpr hlt)).trans (if_pos hal)

/-- A step on a register access that stops stops in the same way (rule R61). -/
theorem step_of_regStop {s : State} {off : Nat} {v : Word} {rest : List HostAccess} {r : Result}
    (hhost : s.host = .wrReg off v :: rest ∨ s.host = .rdReg off :: rest) (hstop : regStop off = some r) :
    step s = r := by
  rcases hhost with hhost | hhost
  · exact step_of_done hhost (by simp only [State.access, hstop])
  · exact step_of_done hhost (by simp only [State.access, hstop])

/-- Settles O59: each access outside its space, or misaligned in `REG`, stops under its name. -/
theorem hostAccessStops : Obligations.HostAccessStops := by
  intro s off v b rest
  refine ⟨fun hhost => ⟨fun hout => ?_, fun hlt hal => ?_⟩, fun hhost hout => ?_, fun hhost hout => ?_⟩
  · exact step_of_regStop hhost (regStop_of_outside hout)
  · exact step_of_regStop hhost (regStop_of_misaligned hlt hal)
  · have hnot : ¬ off < Config.matSize := Nat.not_lt.mpr hout
    rcases hhost with hhost | hhost
    · exact (step_of_done hhost (State.access_wrMat _ off b)).trans (if_neg hnot)
    · exact (step_of_done hhost (State.access_rdMat _ off)).trans (if_neg hnot)
  · have hnot : ¬ off < (s.setHost rest).shdSize := Nat.not_lt.mpr hout
    rcases hhost with hhost | hhost
    · exact (step_of_done hhost (State.access_wrShd _ off b)).trans (if_neg hnot)
    · exact (step_of_done hhost (State.access_rdShd _ off)).trans (if_neg hnot)

end Sys2Proof.Machine
end

section
/-! PROOFS. Decoding and encoding undo each other (rules R90 to R102): which row of rule R96 a word matches, what the
fields of an encoded command hold, and how a matching word is put together again from its fields. -/

namespace Sys2Proof

open Sys2Proof.Laws.EncodeMatches (opOf Statement)

/-! ### The rows of rule R96 -/

theorem OpRow.matches_iff (r : OpRow) (I : Cmd) : r.matches I = true ↔ I &&& r.mask = r.pattern := by
  rw [OpRow.matches, beq_iff_eq]

/-- Two different rows ask for different bits somewhere under both masks. -/
theorem row_eq_of_patterns_agree :
    ∀ r₁ ∈ opRows, ∀ r₂ ∈ opRows, r₁.pattern &&& r₂.mask = r₂.pattern &&& r₁.mask → r₁ = r₂ := by decide

/-- The mnemonic of a row is on no other row. -/
theorem row_eq_of_op_eq : ∀ r₁ ∈ opRows, ∀ r₂ ∈ opRows, r₁.op = r₂.op → r₁ = r₂ := by decide

/-- No word matches two rows (rule R96). -/
theorem row_eq_of_matches {r₁ r₂ : OpRow} {I : Cmd} (h₁ : r₁ ∈ opRows) (h₂ : r₂ ∈ opRows)
    (hm₁ : r₁.matches I = true) (hm₂ : r₂.matches I = true) : r₁ = r₂ := by
  rw [OpRow.matches_iff] at hm₁ hm₂
  refine row_eq_of_patterns_agree r₁ h₁ r₂ h₂ ?_
  rw [← hm₁, ← hm₂, BitVec.and_assoc, BitVec.and_assoc, BitVec.and_comm r₁.mask]

/-- Rule R102: a word that matches a row decodes to the used fields of that row's command. -/
theorem decode_of_matches {r : OpRow} {I : Cmd} (hr : r ∈ opRows) (hm : r.matches I = true) :
    decode I = .ok (instrOf r.op I) := by
  have hsome : (opRows.find? (fun r => r.matches I)).isSome = true := List.find?_isSome.mpr ⟨r, hr, hm⟩
  obtain ⟨r', hfind⟩ := Option.isSome_iff_exists.mp hsome
  have hm' : r'.matches I = true := List.find?_some (p := fun r : OpRow => r.matches I) hfind
  have heq : r' = r := row_eq_of_matches (List.mem_of_find?_eq_some hfind) hr hm' hm
  rw [decode, hfind, heq]

/-- A word that decodes matches a row, and the command is that row's. -/
theorem exists_row_of_decode {I : Cmd} {i : Instr} (h : decode I = .ok i) :
    ∃ r ∈ opRows, r.matches I = true ∧ instrOf r.op I = i := by
  by_cases hex : ∃ r ∈ opRows, r.matches I = true
  · obtain ⟨r, hr, hm⟩ := hex
    rw [decode_of_matches hr hm] at h
    exact ⟨r, hr, hm, Except.ok.inj h⟩
  · obtain ⟨e, he⟩ := Machine.decode_error_of_no_match (I := I)
      fun r hr hand => hex ⟨r, hr, (r.matches_iff I).mpr hand⟩
    rw [he] at h
    cases h

/-! ### Encoding, then decoding -/

section
variable (op : Byte) (md ma mb : BitVec 3) (p0 p1 p2 p3 : BitVec 9)

theorem fieldMd_formatM : fieldMd (formatM op md ma mb p0 p1 p2 p3) = md.toFin := by
  rw [fieldMd, extract_md_formatM]

theorem fieldMa_formatM : fieldMa (formatM op md ma mb p0 p1 p2 p3) = ma.toFin := by
  rw [fieldMa, extract_ma_formatM]

theorem fieldMb_formatM : fieldMb (formatM op md ma mb p0 p1 p2 p3) = mb.toFin := by
  rw [fieldMb, extract_mb_formatM]

theorem fieldP0_formatM : fieldP0 (formatM op md ma mb p0 p1 p2 p3) = p0.toNat := by
  rw [fieldP0, extract_p0_formatM]

theorem fieldP1_formatM : fieldP1 (formatM op md ma mb p0 p1 p2 p3) = p1.toNat := by
  rw [fieldP1, extract_p1_formatM]

theorem fieldP2_formatM : fieldP2 (formatM op md ma mb p0 p1 p2 p3) = p2.toNat := by
  rw [fieldP2, extract_p2_formatM]

theorem fieldP3_formatM : fieldP3 (formatM op md ma mb p0 p1 p2 p3) = p3.toNat := by
  rw [fieldP3, extract_p3_formatM]

end

theorem toFin_regField (r : MReg) : (regField r).toFin = r :=
  Fin.ext (Nat.mod_eq_of_lt r.isLt)

theorem slotOf_slotField (sl : Slot) : slotOf (slotField sl) = sl :=
  Fin.ext (Nat.mod_eq_of_lt sl.isLt)

theorem toNat_paramField {n : Nat} (h : fitsParam n = true) : (paramField n).toNat = n :=
  Nat.mod_eq_of_lt (of_decide_eq_true h)

theorem toNat_ofNat_of_fitsWord {n : Nat} (h : fitsWord n = true) : (BitVec.ofNat 32 n).toNat = n :=
  Nat.mod_eq_of_lt (of_decide_eq_true h)

/-- The used fields of a well-formed command's word are its operands (rules R92, R93, R95). -/
theorem instrOf_encode {i : Instr} (h : i.WellFormed = true) : instrOf (opOf i) (encode i) = i := by
  cases i with
  | gfmul a b => simp only [opOf, instrOf, encode, fieldB0_formatB, fieldB1_formatB]
  | gfpow a n => simp only [opOf, instrOf, encode, fieldB0_formatB, fieldW_formatB, toNat_ofNat_of_fitsWord h]
  | gfinv a => simp only [opOf, instrOf, encode, fieldB0_formatB]
  | gflog a => simp only [opOf, instrOf, encode, fieldB0_formatB]
  | gfexp j => simp only [opOf, instrOf, encode, fieldB0_formatB]
  | vand md rows cols =>
    obtain ⟨hrows, hcols⟩ := (Bool.and_eq_true_iff ..).mp h
    simp only [opOf, instrOf, encode, fieldMd_formatM, fieldP0_formatM, fieldP1_formatM, toFin_regField,
      toNat_paramField hrows, toNat_paramField hcols]
  | subm md ms xmin ymin xmax ymax =>
    simp only [Instr.WellFormed, Bool.and_eq_true] at h
    obtain ⟨⟨⟨hxmin, hymin⟩, hxmax⟩, hymax⟩ := h
    simp only [opOf, instrOf, encode, fieldMd_formatM, fieldMa_formatM, fieldP0_formatM, fieldP1_formatM,
      fieldP2_formatM, fieldP3_formatM, toFin_regField, toNat_paramField hxmin, toNat_paramField hymin,
      toNat_paramField hxmax, toNat_paramField hymax]
  | minv md ms => simp only [opOf, instrOf, encode, fieldMd_formatM, fieldMa_formatM, toFin_regField]
  | mmul md ma mb =>
    simp only [opOf, instrOf, encode, fieldMd_formatM, fieldMa_formatM, fieldMb_formatM, toFin_regField]
  | addsv sd ss c =>
    simp only [opOf, instrOf, encode, fieldB0_formatB, fieldB1_formatB, fieldB2_formatB, slotOf_slotField]
  | init k m =>
    obtain ⟨hk, hm⟩ := (Bool.and_eq_true_iff ..).mp h
    simp only [opOf, instrOf, encode, fieldP0_formatM, fieldP1_formatM, toNat_paramField hk, toNat_paramField hm]
  | encode => rfl
  | recon => rfl

/-- The word of every command matches the row of its mnemonic (rules R95, R96). -/
theorem encode_matches_row (i : Instr) : Statement i := by
  cases i with
  | gfmul a b => exact Laws.EncodeMatches.gfmul a b
  | gfpow a n => exact Laws.EncodeMatches.gfpow a n
  | gfinv a => exact Laws.EncodeMatches.gfinv a
  | gflog a => exact Laws.EncodeMatches.gflog a
  | gfexp j => exact Laws.EncodeMatches.gfexp j
  | vand md rows cols => exact Laws.EncodeMatches.vand md rows cols
  | subm md ms xmin ymin xmax ymax => exact Laws.EncodeMatches.subm md ms xmin ymin xmax ymax
  | minv md ms => exact Laws.EncodeMatches.minv md ms
  | mmul md ma mb => exact Laws.EncodeMatches.mmul md ma mb
  | addsv sd ss c => exact Laws.EncodeMatches.addsv sd ss c
  | init k m => exact Laws.EncodeMatches.init k m
  | encode => exact Laws.EncodeMatches.encode
  | recon => exact Laws.EncodeMatches.recon

/-- Settles O2: the word matches the row of its own mnemonic, and its fields are the operands. -/
theorem decodeOfEncode : Obligations.DecodeOfEncode := by
  intro i hwf
  obtain ⟨r, hr, hop, hm⟩ := encode_matches_row i
  rw [decode_of_matches hr hm, hop, instrOf_encode hwf]

/-- Settles O1: sixteen closed rows, each evaluated. -/
theorem encodingExamplesDecode : Obligations.EncodingExamplesDecode := by
  unfold Obligations.EncodingExamplesDecode
  decide

/-! ### Decoding, then encoding -/

/-- A field that lies under a row's mask holds, in every word of the row, what the row's pattern holds there. -/
theorem extract_of_matches {r : OpRow} {I : Cmd} {start len : Nat} {v : BitVec len} (hm : r.matches I = true)
    (hmask : r.mask.extractLsb' start len = BitVec.allOnes len := by decide)
    (hv : r.pattern.extractLsb' start len = v := by decide) : I.extractLsb' start len = v := by
  rw [← hv, ← (r.matches_iff I).mp hm, BitVec.extractLsb'_and, hmask, BitVec.and_allOnes]

/-- Every bit of a field that is 0 is 0. -/
theorem getLsbD_of_extract_eq_zero {I : Cmd} {start len j : Nat} (h : I.extractLsb' start len = 0) (hle : start ≤ j)
    (hlt : j < start + len) : I.getLsbD j = false := by
  have hbit : (I.extractLsb' start len).getLsbD (j - start) = false := by rw [h]; exact BitVec.getLsbD_zero
  rwa [BitVec.getLsbD_extractLsb', decide_eq_true (by omega), Bool.true_and, Nat.add_sub_cancel' hle] at hbit

/-- A word is the format B word of its fields (rule R92). -/
theorem formatB_of_fields {I : Cmd} {op b0 b1 b2 : Byte} {w : Word} (hop : fieldOp I = op) (h0 : fieldB0 I = b0)
    (h1 : fieldB1 I = b1) (h2 : fieldB2 I = b2) (hw : fieldW I = w) : formatB op b0 b1 b2 w = I := by
  subst hop h0 h1 h2 hw
  refine BitVec.eq_of_getLsbD_eq fun j hj => ?_
  rw [getLsbD_formatB, fieldOp, fieldB0, fieldB1, fieldB2, fieldW]
  simp only [BitVec.getLsbD_extractLsb']
  split_ifs <;> grind

/-- A word whose two `zero` fields are 0 is the format M word of its fields (rule R93). -/
theorem formatM_of_fields {I : Cmd} {op : Byte} {md ma mb : BitVec 3} {p0 p1 p2 p3 : BitVec 9} (hop : fieldOp I = op)
    (hmd : I.extractLsb' 8 3 = md) (hma : I.extractLsb' 11 3 = ma) (hmb : I.extractLsb' 14 3 = mb)
    (h0 : I.extractLsb' 17 9 = p0) (h1 : I.extractLsb' 32 9 = p1) (h2 : I.extractLsb' 41 9 = p2)
    (h3 : I.extractLsb' 50 9 = p3) (hlo : I.extractLsb' 26 6 = 0) (hhi : I.extractLsb' 59 5 = 0) :
    formatM op md ma mb p0 p1 p2 p3 = I := by
  subst hop hmd hma hmb h0 h1 h2 h3
  refine BitVec.eq_of_getLsbD_eq fun j hj => ?_
  have hlo' : 26 ≤ j → j < 32 → I.getLsbD j = false := getLsbD_of_extract_eq_zero hlo
  have hhi' : 59 ≤ j → j < 64 → I.getLsbD j = false := getLsbD_of_extract_eq_zero hhi
  rw [getLsbD_formatM, fieldOp]
  simp only [BitVec.getLsbD_extractLsb']
  split_ifs <;> grind

/-- A register field read as a number and encoded again is the field. -/
theorem regField_toFin (b : BitVec 3) : regField b.toFin = b := BitVec.eq_of_toNat_eq (Nat.mod_eq_of_lt b.isLt)

theorem slotField_slotOf (b : Byte) : slotField (slotOf b) = b := BitVec.eq_of_toNat_eq (Nat.mod_eq_of_lt b.isLt)

/-- A parameter field read as a number and encoded again is the field. -/
theorem paramField_toNat (b : BitVec 9) : paramField b.toNat = b := BitVec.eq_of_toNat_eq (Nat.mod_eq_of_lt b.isLt)

/-- Rules R95, R97: the used fields of a word that matches a row, encoded again, are the word: in the order of `opRows`,
the row's mask holds the opcode and each unused field to what encoding puts there. -/
theorem encode_instrOf {r : OpRow} {I : Cmd} (hr : r ∈ opRows) (hm : r.matches I = true) :
    encode (instrOf r.op I) = I := by
  have hb0 : fieldB0 I = slotField (slotOf (fieldB0 I)) := (slotField_slotOf _).symm
  have hb1 : fieldB1 I = slotField (slotOf (fieldB1 I)) := (slotField_slotOf _).symm
  have hw : fieldW I = BitVec.ofNat 32 (fieldW I).toNat := by rw [BitVec.ofNat_toNat, BitVec.setWidth_eq]
  have hmd : I.extractLsb' 8 3 = regField (fieldMd I) := (regField_toFin _).symm
  have hma : I.extractLsb' 11 3 = regField (fieldMa I) := (regField_toFin _).symm
  have hmb : I.extractLsb' 14 3 = regField (fieldMb I) := (regField_toFin _).symm
  have hp0 : I.extractLsb' 17 9 = paramField (fieldP0 I) := (paramField_toNat _).symm
  have hp1 : I.extractLsb' 32 9 = paramField (fieldP1 I) := (paramField_toNat _).symm
  have hp2 : I.extractLsb' 41 9 = paramField (fieldP2 I) := (paramField_toNat _).symm
  have hp3 : I.extractLsb' 50 9 = paramField (fieldP3 I) := (paramField_toNat _).symm
  simp only [opRows, List.mem_cons, List.not_mem_nil, or_false] at hr
  rcases hr with rfl | rfl | rfl | rfl | rfl | rfl | rfl | rfl | rfl | rfl | rfl | rfl | rfl
  · refine formatB_of_fields ?_ rfl rfl ?_ ?_ <;> exact extract_of_matches hm
  · refine formatB_of_fields ?_ rfl ?_ ?_ hw <;> exact extract_of_matches hm
  · refine formatB_of_fields ?_ rfl ?_ ?_ ?_ <;> exact extract_of_matches hm
  · refine formatB_of_fields ?_ rfl ?_ ?_ ?_ <;> exact extract_of_matches hm
  · refine formatB_of_fields ?_ rfl ?_ ?_ ?_ <;> exact extract_of_matches hm
  · refine formatM_of_fields ?_ hmd ?_ ?_ hp0 hp1 ?_ ?_ ?_ ?_ <;> exact extract_of_matches hm
  · refine formatM_of_fields ?_ hmd hma ?_ hp0 hp1 hp2 hp3 ?_ ?_ <;> exact extract_of_matches hm
  · refine formatM_of_fields ?_ hmd hma ?_ ?_ ?_ ?_ ?_ ?_ ?_ <;> exact extract_of_matches hm
  · refine formatM_of_fields ?_ hmd hma hmb ?_ ?_ ?_ ?_ ?_ ?_ <;> exact extract_of_matches hm
  · refine formatB_of_fields ?_ hb0 hb1 rfl ?_ <;> exact extract_of_matches hm
  · refine formatM_of_fields ?_ ?_ ?_ ?_ hp0 hp1 ?_ ?_ ?_ ?_ <;> exact extract_of_matches hm
  · refine formatM_of_fields ?_ ?_ ?_ ?_ ?_ ?_ ?_ ?_ ?_ ?_ <;> exact extract_of_matches hm
  · refine formatM_of_fields ?_ ?_ ?_ ?_ ?_ ?_ ?_ ?_ ?_ ?_ <;> exact extract_of_matches hm

theorem fitsParam_toNat (b : BitVec 9) : fitsParam b.toNat = true := decide_eq_true b.isLt

theorem fitsWord_toNat (b : Word) : fitsWord b.toNat = true := decide_eq_true b.isLt

/-- Every used field of a word fits (rule R94). -/
theorem wellFormed_instrOf (op : Op) (I : Cmd) : (instrOf op I).WellFormed = true := by
  cases op with
  | gfpow => exact fitsWord_toNat _
  | vand => exact (Bool.and_eq_true_iff ..).mpr ⟨fitsParam_toNat _, fitsParam_toNat _⟩
  | subm => simp only [instrOf, Instr.WellFormed, fieldP0, fieldP1, fieldP2, fieldP3, fitsParam_toNat, Bool.and_self]
  | init => exact (Bool.and_eq_true_iff ..).mpr ⟨fitsParam_toNat _, fitsParam_toNat _⟩
  | _ => rfl

/-- Settles O3: the word matches a row, whose command has the word's used fields. -/
theorem encodeOfDecode : Obligations.EncodeOfDecode := by
  intro I i h
  obtain ⟨r, hr, hm, rfl⟩ := exists_row_of_decode h
  exact ⟨encode_instrOf hr hm, wellFormed_instrOf r.op I⟩

/-! ### The thirteen patterns -/

theorem opOf_instrOf (op : Op) (I : Cmd) : opOf (instrOf op I) = op := by
  cases op <;> rfl

section
variable {pattern mask I : Cmd}

/-- A word that decodes to a command matches that command's row. -/
theorem masked_of_decode {i : Instr} (op : Op) (h : decode I = .ok i) (hop : opOf i = op)
    (hr : ⟨op, pattern, mask⟩ ∈ opRows := by decide) : I &&& mask = pattern := by
  obtain ⟨r, hr', hm, rfl⟩ := exists_row_of_decode h
  rw [opOf_instrOf] at hop
  obtain rfl := row_eq_of_op_eq r hr' _ hr hop
  exact (OpRow.matches_iff _ I).mp hm

theorem decode_of_masked (op : Op) (h : I &&& mask = pattern) (hr : ⟨op, pattern, mask⟩ ∈ opRows := by decide) :
    decode I = .ok (instrOf op I) :=
  decode_of_matches hr ((OpRow.matches_iff _ I).mpr h)

end

/-- Settles O4: each pattern is the row of its mnemonic, and no word matches two rows. -/
theorem decodeFollowsMatchAndMask : Obligations.DecodeFollowsMatchAndMask := by
  intro I
  refine ⟨?gfmul, ?gfpow, ?gfinv, ?gflog, ?gfexp, ?vand, ?subm, ?minv, ?mmul, ?addsv, ?init, ?encode, ?recon,
    fun _ h₁ _ h₂ => row_eq_of_matches h₁ h₂⟩
  case gfmul => exact ⟨fun ⟨_, _, h⟩ => masked_of_decode .gfmul h rfl, fun h => ⟨_, _, decode_of_masked .gfmul h⟩⟩
  case gfpow => exact ⟨fun ⟨_, _, h⟩ => masked_of_decode .gfpow h rfl, fun h => ⟨_, _, decode_of_masked .gfpow h⟩⟩
  case gfinv => exact ⟨fun ⟨_, h⟩ => masked_of_decode .gfinv h rfl, fun h => ⟨_, decode_of_masked .gfinv h⟩⟩
  case gflog => exact ⟨fun ⟨_, h⟩ => masked_of_decode .gflog h rfl, fun h => ⟨_, decode_of_masked .gflog h⟩⟩
  case gfexp => exact ⟨fun ⟨_, h⟩ => masked_of_decode .gfexp h rfl, fun h => ⟨_, decode_of_masked .gfexp h⟩⟩
  case vand => exact ⟨fun ⟨_, _, _, h⟩ => masked_of_decode .vand h rfl, fun h => ⟨_, _, _, decode_of_masked .vand h⟩⟩
  case subm =>
    exact ⟨fun ⟨_, _, _, _, _, _, h⟩ => masked_of_decode .subm h rfl,
      fun h => ⟨_, _, _, _, _, _, decode_of_masked .subm h⟩⟩
  case minv => exact ⟨fun ⟨_, _, h⟩ => masked_of_decode .minv h rfl, fun h => ⟨_, _, decode_of_masked .minv h⟩⟩
  case mmul => exact ⟨fun ⟨_, _, _, h⟩ => masked_of_decode .mmul h rfl, fun h => ⟨_, _, _, decode_of_masked .mmul h⟩⟩
  case addsv => exact ⟨fun ⟨_, _, _, h⟩ => masked_of_decode .addsv h rfl, fun h => ⟨_, _, _, decode_of_masked .addsv h⟩⟩
  case init => exact ⟨fun ⟨_, _, h⟩ => masked_of_decode .init h rfl, fun h => ⟨_, _, decode_of_masked .init h⟩⟩
  case encode => exact ⟨fun h => masked_of_decode .encode h rfl, fun h => decode_of_masked .encode h⟩
  case recon => exact ⟨fun h => masked_of_decode .recon h rfl, fun h => decode_of_masked .recon h⟩

end Sys2Proof
end

section
/-! PROOFS. A CMDL write runs the command of the issued word, and the faults that record a word record that one (rules
R91, R102, R232). -/

namespace Sys2Proof.Machine

/-- Placing a command by its number places the command's word (rule R91). -/
theorem State.withFetchWord_toNat (s : State) (I : Cmd) : s.withFetchWord 64 I.toNat = s.withCommand I := by
  rw [State.withFetchWord, Nat.mod_eq_of_lt I.isLt, BitVec.ofNat_toNat, BitVec.setWidth_eq]

/-- Settles O5: the word issued is the one placed, the two halves the host wrote. -/
theorem stepRunsDecodedCommand : Obligations.StepRunsDecodedCommand := by
  refine ⟨fun s v rest i hissues hd => step_of_command hissues hd, fun s I i hd => ?_⟩
  have hissues : (s.withCommand I).Issues (cmdLo I) s.host := rfl
  have hword : cmdOf (s.withCommand I).cmdh (cmdLo I) = I := cmdOf_halves I
  rw [State.withFetchWord_toNat, step_of_command hissues (hword.symm ▸ hd)]
  rfl

/-! ### The word a fault records -/

/-- The faults numbered 6 and up, `BAD_PARAM`, `ZERO_OPERAND` and `NOT_CONFIGURED`, record the halves of `I` (rule R232). -/
def RecordsWord (I : Cmd) (r : Result) : Prop :=
  ∀ t, r = .next t → 6 ≤ t.err.toNat → t.errinfo0 = cmdLo I ∧ t.errinfo1 = cmdHi I

section
variable {I : Cmd}

theorem recordsWord_complete {s : State} : RecordsWord I (complete s) := by
  intro t h herr
  cases h
  exact absurd herr (by decide : ¬ 6 ≤ (0 : BitVec 4).toNat)

theorem recordsWord_raiseWord {c : FaultCode} {s : State} : RecordsWord I (raiseWord c I s) := by
  intro t h _
  cases h
  exact ⟨rfl, rfl⟩

/-- A fault below 6 records words of its own kind. -/
theorem recordsWord_raise {c : FaultCode} {info0 info1 : Word} {s : State} (hc : c.code.toNat < 6 := by decide) :
    RecordsWord I (raise c info0 info1 s) := by
  intro t h herr
  cases h
  exact absurd herr (Nat.not_le.mpr hc)

theorem RecordsWord.ite {p : Prop} [Decidable p] {r₁ r₂ : Result} (h₁ : RecordsWord I r₁) (h₂ : RecordsWord I r₂) :
    RecordsWord I (if p then r₁ else r₂) := by
  split
  · exact h₁
  · exact h₂

end

/-- Each command gives its own encoding to every fault numbered 6 and up; the others it raises are numbered below 6. -/
theorem recordsWord_exec (i : Instr) (s : State) : RecordsWord (encode i) (exec i s) := by
  cases i with
  | gfmul a b => exact recordsWord_complete
  | gfpow a n => exact recordsWord_complete
  | gfinv a => exact .ite recordsWord_raiseWord recordsWord_complete
  | gflog a => exact .ite recordsWord_raiseWord recordsWord_complete
  | gfexp j => exact recordsWord_complete
  | vand md rows cols => exact .ite recordsWord_raiseWord recordsWord_complete
  | subm md ms xmin ymin xmax ymax =>
    exact .ite recordsWord_raiseWord (.ite recordsWord_raiseWord recordsWord_complete)
  | minv md ms =>
    refine .ite recordsWord_raiseWord (.ite recordsWord_raiseWord (.ite recordsWord_raiseWord ?_))
    split
    · exact recordsWord_complete
    · exact recordsWord_raise
  | mmul md ma mb => exact .ite recordsWord_raiseWord (.ite recordsWord_raise recordsWord_complete)
  | addsv sd ss c => exact .ite recordsWord_raiseWord recordsWord_complete
  | init k m =>
    refine .ite recordsWord_raiseWord ?_
    split
    · exact recordsWord_raise
    · exact recordsWord_complete
  | encode => exact .ite recordsWord_raiseWord (.ite recordsWord_raiseWord recordsWord_complete)
  | recon =>
    refine .ite recordsWord_raiseWord (.ite recordsWord_raiseWord (.ite recordsWord_complete
      (.ite recordsWord_raise (.ite recordsWord_raise ?_))))
    split
    · exact recordsWord_raise
    · exact recordsWord_complete

/-- Settles O49: a fault records the encoding of the decoded command, which is the word the host issued (O3). -/
theorem faultRecordsCommandWord : Obligations.FaultRecordsCommandWord := by
  intro s t v rest i hissues hd hstep herr
  rw [step_of_command hissues hd] at hstep
  obtain ⟨hinfo0, hinfo1⟩ := recordsWord_exec i _ t hstep herr
  rw [(encodeOfDecode _ i hd).1] at hinfo0 hinfo1
  exact ⟨hinfo0.trans (cmdLo_cmdOf ..), hinfo1.trans (cmdHi_cmdOf ..)⟩

end Sys2Proof.Machine
end

section
/-! PROOFS. The field: every nonzero byte is a power of `x`, the tables hold the exponents, and the field functions
compute with them (rules R120 to R129). -/

namespace Sys2Proof.Machine

/-! ### Multiplication by `x` (rules R120, R122) -/

/-- Multiplication by `x` is linear. -/
theorem timesX_xor (a b : Byte) : timesX (a ^^^ b) = timesX a ^^^ timesX b := by
  have hfold : (if (a ^^^ b).getLsbD 7 then 0x1D else 0 : Byte) =
      (if a.getLsbD 7 then 0x1D else 0) ^^^ (if b.getLsbD 7 then 0x1D else 0) := by
    rw [BitVec.getLsbD_xor]
    cases a.getLsbD 7 <;> cases b.getLsbD 7 <;> rfl
  unfold timesX
  rw [hfold, BitVec.shiftLeft_xor_distrib]
  ac_rfl

theorem timesX_zero : timesX 0 = 0 := rfl

theorem timesX_ite (p : Prop) [Decidable p] (a : Byte) : timesX (if p then a else 0) = if p then timesX a else 0 := by
  rw [apply_ite timesX, timesX_zero]

theorem iterate_timesX_zero (n : Nat) : timesX^[n] 0 = 0 := Function.iterate_fixed timesX_zero n

/-- The field polynomial: `x^8` is `x^4 + x^3 + x^2 + 1` (rule R120). -/
theorem iterate_timesX_eight (a : Byte) :
    timesX^[8] a = a ^^^ timesX^[2] a ^^^ timesX^[3] a ^^^ timesX^[4] a := by
  revert a
  decide +kernel

/-- `x^n` in the field. -/
def xPow (n : Nat) : Byte := timesX^[n] 1

@[simp] theorem xPow_zero : xPow 0 = 1 := rfl

theorem xPow_one : xPow 1 = 2 := rfl

theorem xPow_succ (n : Nat) : xPow (n + 1) = timesX (xPow n) := Function.iterate_succ_apply' timesX n 1

theorem iterate_timesX_xPow (m n : Nat) : timesX^[m] (xPow n) = xPow (m + n) :=
  (Function.iterate_add_apply timesX m n 1).symm

/-! ### The tables hold the powers of `x` and their exponents (rules R122 to R125)

The tables are printed data, so their four facts below are computed, entry by entry; all else follows from these. -/

/-- Each entry of `EXP` is the one before multiplied by `x`. -/
theorem expTab_succ : ∀ i, i < 255 → expTab (i + 1) = timesX (expTab i) := by
  decide +kernel

theorem logTab_expTab : ∀ i, i < 255 → (logTab (expTab i)).toNat = i := by
  decide +kernel

theorem expTab_logTab : ∀ a : Byte, a ≠ 0 → expTab (logTab a).toNat = a := by
  decide +kernel

theorem logTab_lt : ∀ a : Byte, a ≠ 0 → (logTab a).toNat < 255 := by
  decide +kernel

theorem expTab_eq_xPow {i : Nat} (h : i < 256) : expTab i = xPow i := by
  induction i with
  | zero => rfl
  | succ i ih => rw [expTab_succ i (by omega), ih (by omega), xPow_succ]

/-- `EXP[255]` is `EXP[0]` (rule R122). -/
theorem xPow_255 : xPow 255 = 1 := (expTab_eq_xPow (by decide)).symm

/-- The powers of `x` repeat after 255 steps. -/
theorem xPow_mod (n : Nat) : xPow (n % 255) = xPow n :=
  Function.IsPeriodicPt.iterate_mod_apply (f := timesX) xPow_255 n

theorem expTab_mod (n : Nat) : expTab (n % 255) = xPow n := by
  rw [expTab_eq_xPow (by omega), xPow_mod]

theorem xPow_logTab {a : Byte} (h : a ≠ 0) : xPow (logTab a).toNat = a := by
  rw [← expTab_eq_xPow (by have := logTab_lt a h; omega), expTab_logTab a h]

theorem logTab_xPow (n : Nat) : (logTab (xPow n)).toNat = n % 255 := by
  rw [← expTab_mod, logTab_expTab _ (by omega)]

/-- A power of `x` is never 0: going on to an exponent that 255 divides gives 1. -/
theorem xPow_ne_zero (n : Nat) : xPow n ≠ 0 := by
  intro h
  have hone : timesX^[254 * n] (xPow n) = 1 := by
    rw [iterate_timesX_xPow, ← xPow_mod, show (254 * n + n) % 255 = 0 by omega, xPow_zero]
  rw [h, iterate_timesX_zero] at hone
  exact absurd hone (by decide)

/-- Every byte is 0 or a power of `x`. -/
theorem eq_zero_or_xPow (a : Byte) : a = 0 ∨ ∃ i, i < 255 ∧ a = xPow i := by
  by_cases h : a = 0
  · exact .inl h
  · exact .inr ⟨_, logTab_lt a h, (xPow_logTab h).symm⟩

/-! ### The field functions on powers of `x` (rules R126 to R129) -/

theorem gfMul_zero (a : Byte) : gfMul a 0 = 0 := if_pos (.inr rfl)

theorem zero_gfMul (a : Byte) : gfMul 0 a = 0 := if_pos (.inl rfl)

/-- Multiplying adds the exponents. -/
theorem gfMul_xPow (i j : Nat) : gfMul (xPow i) (xPow j) = xPow (i + j) := by
  rw [gfMul, if_neg (not_or.mpr ⟨xPow_ne_zero i, xPow_ne_zero j⟩), logTab_xPow, logTab_xPow, ← Nat.add_mod, expTab_mod]

/-- Raising to a power multiplies the exponent. -/
theorem gfPow_xPow (i n : Nat) : gfPow (xPow i) n = xPow (i * n) := by
  rw [gfPow, if_neg (xPow_ne_zero i), logTab_xPow, Nat.mod_mul_mod, expTab_mod]
  split
  · next h => rw [h, Nat.mul_zero, xPow_zero]
  · rfl

theorem iterate_gfMul_xPow (i n : Nat) : (gfMul (xPow i))^[n] 1 = xPow (i * n) := by
  induction n with
  | zero => rfl
  | succ n ih => rw [Function.iterate_succ_apply', ih, gfMul_xPow, Nat.mul_succ, Nat.add_comm]

theorem iterate_gfMul_zero {n : Nat} (h : n ≠ 0) : (gfMul 0)^[n] 1 = 0 := by
  obtain ⟨m, rfl⟩ := Nat.exists_eq_succ_of_ne_zero h
  rw [Function.iterate_succ_apply', zero_gfMul]

theorem gfInv_of_ne_zero {a : Byte} (h : a ≠ 0) : gfInv a = expTab (255 - (logTab a).toNat) := if_neg h

theorem gfInv_xPow {i : Nat} (h : i < 255) : gfInv (xPow i) = xPow (255 - i) := by
  rw [gfInv_of_ne_zero (xPow_ne_zero i), logTab_xPow, Nat.mod_eq_of_lt h, expTab_eq_xPow (by omega)]

/-- `gf_pow` is repeated multiplication (rule R129 (b)). -/
theorem gfPow_eq_iterate (a : Byte) (n : Nat) : gfPow a n = (gfMul a)^[n] 1 := by
  obtain rfl | ⟨i, -, rfl⟩ := eq_zero_or_xPow a
  · by_cases h : n = 0
    · subst h
      rfl
    · rw [iterate_gfMul_zero h, gfPow, if_neg h, if_pos rfl]
  · rw [gfPow_xPow, iterate_gfMul_xPow]

/-- The 255th power of a nonzero byte is 1 (rule R129 (e)). -/
theorem gfPow_255 {a : Byte} (h : a ≠ 0) : gfPow a 255 = 1 := by
  rw [← xPow_logTab h, gfPow_xPow, ← xPow_mod, Nat.mul_mod_left, xPow_zero]

/-- The 254th power of a nonzero byte is its inverse (rule R129 (e)). -/
theorem gfPow_254 {a : Byte} (h : a ≠ 0) : gfPow a 254 = gfInv a := by
  obtain rfl | ⟨i, hi, rfl⟩ := eq_zero_or_xPow a
  · exact absurd rfl h
  · rw [gfPow_xPow, gfInv_xPow hi, ← xPow_mod, ← xPow_mod (255 - i)]
    congr 1
    omega

theorem gfMul_gfInv {a : Byte} (h : a ≠ 0) : gfMul a (gfInv a) = 1 := by
  obtain rfl | ⟨i, hi, rfl⟩ := eq_zero_or_xPow a
  · exact absurd rfl h
  · rw [gfInv_xPow hi, gfMul_xPow, Nat.add_sub_cancel' hi.le, ← xPow_mod, Nat.mod_self, xPow_zero]

/-! ### The product of polynomials (rule R129 (d)) -/

theorem gfSum_xor (n : Nat) (f g : Nat → Byte) : gfSum n (fun i => f i ^^^ g i) = gfSum n f ^^^ gfSum n g := by
  induction n with
  | zero => exact BitVec.xor_self.symm
  | succ n ih =>
    simp only [gfSum_succ, gfAdd, ih]
    ac_rfl

theorem timesX_gfSum (n : Nat) (f : Nat → Byte) : timesX (gfSum n f) = gfSum n (fun i => timesX (f i)) := by
  induction n with
  | zero => exact timesX_zero
  | succ n ih => simp only [gfSum_succ, gfAdd, timesX_xor, ih]

/-- The sum with its first term taken off. -/
theorem gfSum_succ' (n : Nat) (f : Nat → Byte) : gfSum (n + 1) f = f 0 ^^^ gfSum n (fun i => f (i + 1)) := by
  induction n with
  | zero => simp [gfSum_succ, gfAdd]
  | succ n ih => rw [gfSum_succ, ih, gfSum_succ, gfAdd, gfAdd, BitVec.xor_assoc]

theorem polyMul_xor (a b c : Byte) : polyMul a (b ^^^ c) = polyMul a b ^^^ polyMul a c := by
  rw [polyMul, polyMul, polyMul, ← gfSum_xor]
  refine gfSum_congr fun i _ => ?_
  rw [BitVec.getLsbD_xor]
  cases b.getLsbD i <;> cases c.getLsbD i <;> simp

/-- A sum of zeros is 0. -/
theorem gfSum_eq_zero {n : Nat} {f : Nat → Byte} (h : ∀ i, f i = 0) : gfSum n f = 0 := by
  induction n with
  | zero => rfl
  | succ n ih => exact (gfSum_succ n f).trans (by rw [ih, h]; rfl)

theorem polyMul_zero (a : Byte) : polyMul a 0 = 0 := gfSum_eq_zero fun i => by
  rw [if_neg (by simp)]

theorem zero_polyMul (b : Byte) : polyMul 0 b = 0 := gfSum_eq_zero fun i => by
  rw [iterate_timesX_zero, ite_self]

theorem polyMul_one (a : Byte) : polyMul a 1 = a := by
  simp [polyMul, gfSum_succ, gfAdd]

/-- The low bits of the field polynomial stand for `x^8`. -/
theorem polyMul_0x1D (a : Byte) : polyMul a 0x1D = timesX^[8] a := by
  rw [iterate_timesX_eight]
  simp [polyMul, gfSum_succ, gfAdd]

/-- A factor `x` on the right comes out of the product: the shift moves each term one power up, and the term of bit 7,
now of power 8, is what folding in 0x1D adds. -/
theorem polyMul_timesX (a b : Byte) : polyMul a (timesX b) = timesX (polyMul a b) := by
  have hshift : polyMul a (b <<< 1) = gfSum 7 (fun i => if b.getLsbD i then timesX^[i + 1] a else 0) := by
    rw [polyMul, gfSum_succ', if_neg (by simp)]
    refine BitVec.zero_xor.trans (gfSum_congr fun i hi => ?_)
    rw [BitVec.getLsbD_shiftLeft]
    simp [show i + 1 < 8 by omega]
  have hfold : polyMul a (if b.getLsbD 7 then 0x1D else 0) = if b.getLsbD 7 then timesX^[8] a else 0 := by
    rw [apply_ite (polyMul a), polyMul_0x1D, polyMul_zero]
  calc polyMul a (timesX b)
    _ = polyMul a (b <<< 1) ^^^ polyMul a (if b.getLsbD 7 then 0x1D else 0) := polyMul_xor ..
    _ = gfSum 8 (fun i => if b.getLsbD i then timesX^[i + 1] a else 0) := by rw [hshift, hfold, gfSum_succ 7, gfAdd]
    _ = timesX (polyMul a b) := by
      simp only [polyMul, timesX_gfSum, timesX_ite, Function.iterate_succ_apply']

theorem polyMul_xPow (a : Byte) (n : Nat) : polyMul a (xPow n) = timesX^[n] a := by
  induction n with
  | zero => exact polyMul_one a
  | succ n ih => rw [xPow_succ, polyMul_timesX, ih, Function.iterate_succ_apply']

/-- `gf_mul` multiplies polynomials: both sides add exponents. -/
theorem gfMul_eq_polyMul (a b : Byte) : gfMul a b = polyMul a b := by
  obtain rfl | ⟨j, -, rfl⟩ := eq_zero_or_xPow b
  · rw [gfMul_zero, polyMul_zero]
  obtain rfl | ⟨i, -, rfl⟩ := eq_zero_or_xPow a
  · rw [zero_gfMul, zero_polyMul]
  rw [gfMul_xPow, polyMul_xPow, iterate_timesX_xPow, Nat.add_comm]

/-! ### The laws of multiplication (rule R129 (c)) -/

theorem gfMul_comm (a b : Byte) : gfMul a b = gfMul b a := by
  simp only [gfMul, or_comm, Nat.add_comm]

theorem gfMul_assoc (a b c : Byte) : gfMul (gfMul a b) c = gfMul a (gfMul b c) := by
  obtain rfl | ⟨i, -, rfl⟩ := eq_zero_or_xPow a
  · rw [zero_gfMul, zero_gfMul, zero_gfMul]
  obtain rfl | ⟨j, -, rfl⟩ := eq_zero_or_xPow b
  · rw [gfMul_zero, zero_gfMul, gfMul_zero]
  obtain rfl | ⟨l, -, rfl⟩ := eq_zero_or_xPow c
  · rw [gfMul_zero, gfMul_zero, gfMul_zero]
  simp only [gfMul_xPow, Nat.add_assoc]

theorem gfMul_gfAdd (a b c : Byte) : gfMul a (gfAdd b c) = gfAdd (gfMul a b) (gfMul a c) := by
  simp only [gfMul_eq_polyMul, gfAdd, polyMul_xor]

theorem gfMul_one (a : Byte) : gfMul a 1 = a := by
  rw [gfMul_eq_polyMul, polyMul_one]

end Sys2Proof.Machine
end

section
/-! PROOFS. The statements of the field unit: the field functions and the commands that run them (rules R120 to R134). -/

namespace Sys2Proof.Machine

/-- A `raise` with the halves of the command word, as the statements write fault entry. -/
theorem raiseWord_eq_faulted (c : FaultCode) (I : Cmd) (s : State) :
    raiseWord c I s = .next (s.faulted c.code.toNat (cmdLo I) (cmdHi I)) :=
  congrArg _ (s.endFault_eq_faulted c _ _)

/-- Settles O7: GFMUL writes `gf_mul`, which is the product of polynomials. -/
theorem gfmulMultiplies : Obligations.GfmulMultiplies := fun a b _ => ⟨rfl, gfMul_eq_polyMul a b⟩

/-- Settles O8: commutative and associative by adding exponents, distributive as polynomials. -/
theorem fieldMultiplicationLaws : Obligations.FieldMultiplicationLaws := fun a b c =>
  ⟨gfMul_comm a b, gfMul_assoc a b c, gfMul_gfAdd a b c, gfMul_one a, gfMul_zero a⟩

/-- Settles O9: `EXP` holds the powers of `x`, `LOG` their exponents. -/
theorem fieldTablesInvert : Obligations.FieldTablesInvert := by
  refine ⟨fun a ha => ⟨expTab_logTab a ha, logTab_lt a ha⟩, fun i hi => ?_, ?_, ?_, ?_, expTab_succ⟩
  · rw [expTab_eq_xPow hi]
    exact ⟨xPow_ne_zero i, logTab_xPow i⟩
  · exact expTab_mod 0
  · exact (expTab_eq_xPow (by decide)).trans xPow_255
  · rw [← xPow_one]
    exact BitVec.eq_of_toNat_eq (logTab_xPow 1)

/-- Settles O10: GFPOW writes `gf_pow`, which is repeated multiplication. -/
theorem gfpowRaises : Obligations.GfpowRaises := fun a n _ =>
  ⟨rfl, gfPow_eq_iterate a n, fun ha => ⟨gfPow_255 ha, gfPow_254 ha⟩⟩

/-- Settles O11: GFINV of a nonzero byte writes `gf_inv`; of zero it faults. -/
theorem gfinvInverts : Obligations.GfinvInverts := by
  refine fun a s => ⟨fun ha => ⟨?_, ?_⟩, ?_⟩
  · rw [← gfInv_of_ne_zero ha]
    exact if_neg ha
  · rw [← gfInv_of_ne_zero ha, gfMul_gfInv ha]
  · rintro rfl
    exact raiseWord_eq_faulted .zeroOperand (encode (.gfinv 0)) s

/-- Settles O12: GFLOG of a nonzero byte writes its exponent; of zero it faults. -/
theorem gflogReadsTable : Obligations.GflogReadsTable := by
  refine fun a s => ⟨fun ha => ⟨logTab a, if_neg ha, logTab_lt a ha, expTab_logTab a ha⟩, ?_⟩
  rintro rfl
  exact raiseWord_eq_faulted .zeroOperand (encode (.gflog 0)) s

/-- Settles O13: GFEXP writes a power of `x`, and `x` is the byte 2. -/
theorem gfexpReadsTable : Obligations.GfexpReadsTable := by
  intro i s
  have hpow : (gfMul 2)^[i.toNat] 1 = xPow i.toNat := by rw [← xPow_one, iterate_gfMul_xPow, Nat.one_mul]
  have hexp : expTab i.toNat = xPow i.toNat := expTab_eq_xPow i.isLt
  rw [hpow, hexp]
  refine ⟨?_, xPow_ne_zero _, rfl, ?_⟩
  · rw [← hexp]
    rfl
  · rw [expTab_eq_xPow (by decide), xPow_255]
    rfl

end Sys2Proof.Machine
end

section
/-! PROOFS. Matrices as maps of column vectors: sums of products, the product of matrices, and the identity (rules R121,
R150, R156). -/

namespace Sys2Proof.Machine

/-! ### Sums and factors -/

theorem gfAdd_zero (a : Byte) : gfAdd a 0 = a := BitVec.xor_zero

theorem zero_gfAdd (a : Byte) : gfAdd 0 a = a := BitVec.zero_xor

theorem gfAdd_self (a : Byte) : gfAdd a a = 0 := BitVec.xor_self

theorem gfAdd_left_inj {a b : Byte} (c : Byte) : gfAdd a c = gfAdd b c ↔ a = b := BitVec.xor_left_inj c

theorem one_gfMul (a : Byte) : gfMul 1 a = a := (gfMul_comm 1 a).trans (gfMul_one a)

/-- A nonzero factor cancels. -/
theorem gfMul_left_inj {a b f : Byte} (hf : f ≠ 0) : gfMul f a = gfMul f b ↔ a = b := by
  refine ⟨fun h => ?_, congrArg _⟩
  have hunit (x : Byte) : gfMul (gfInv f) (gfMul f x) = x := by
    rw [← gfMul_assoc, gfMul_comm (gfInv f), gfMul_gfInv hf, one_gfMul]
  rw [← hunit a, h, hunit]

theorem gfMul_gfSum (a : Byte) (n : Nat) (f : Nat → Byte) : gfMul a (gfSum n f) = gfSum n (fun i => gfMul a (f i)) := by
  induction n with
  | zero => exact gfMul_zero a
  | succ n ih => rw [gfSum_succ, gfMul_gfAdd, ih, gfSum_succ]

theorem gfSum_gfAdd (n : Nat) (f g : Nat → Byte) :
    gfSum n (fun i => gfAdd (f i) (g i)) = gfAdd (gfSum n f) (gfSum n g) := gfSum_xor n f g

/-- A double sum may be taken in either order. -/
theorem gfSum_comm (m n : Nat) (f : Nat → Nat → Byte) :
    gfSum m (fun i => gfSum n (fun j => f i j)) = gfSum n (fun j => gfSum m (fun i => f i j)) := by
  induction m with
  | zero => exact (gfSum_eq_zero fun _ => rfl).symm
  | succ m ih => simp only [gfSum_succ, gfSum_gfAdd, ih]

/-- A sum with one term, at index `i`. -/
theorem gfSum_single (n i : Nat) (a : Byte) : gfSum n (fun t => if t = i then a else 0) = if i < n then a else 0 := by
  induction n with
  | zero => rfl
  | succ n ih =>
    rw [gfSum_succ, ih]
    rcases Nat.lt_trichotomy i n with h | rfl | h
    · simp [gfAdd, h, h.ne', Nat.lt_succ_of_lt h]
    · simp [gfAdd]
    · simp [gfAdd, h.ne, Nat.not_lt.mpr h.le, Nat.not_lt.mpr (Nat.succ_le_of_lt h)]

/-! ### Counts -/

@[simp] theorem matIdentity_rows (n : Nat) : (matIdentity n).rows = n := rfl
@[simp] theorem matIdentity_cols (n : Nat) : (matIdentity n).cols = n := rfl
@[simp] theorem matMul_rows (A B : Mat) : (matMul A B).rows = A.rows := rfl
@[simp] theorem matMul_cols (A B : Mat) : (matMul A B).cols = B.cols := rfl

/-! ### A matrix applied to a column vector -/

/-- Entry `i` of the matrix applied to the column vector `x`. -/
def Mat.apply (A : Mat) (x : Nat → Byte) (i : Nat) : Byte := gfSum A.cols (fun t => gfMul (A.get i t) (x t))

theorem Mat.apply_congr (A : Mat) {x y : Nat → Byte} (i : Nat) (h : ∀ t, t < A.cols → x t = y t) :
    A.apply x i = A.apply y i := gfSum_congr fun t ht => by rw [h t ht]

/-- A matrix takes the zero vector to zero. -/
theorem Mat.apply_zero (A : Mat) (i : Nat) : A.apply (fun _ => 0) i = 0 := gfSum_eq_zero fun _ => gfMul_zero _

/-- A matrix takes a unit vector to its column. -/
theorem Mat.apply_unit (A : Mat) (i : Nat) {c : Nat} (hc : c < A.cols) :
    A.apply (fun t => if t = c then 1 else 0) i = A.get i c := by
  have hterm : ∀ t, t < A.cols → gfMul (A.get i t) (if t = c then 1 else 0) = if t = c then A.get i c else 0 := by
    intro t _
    split
    · next h => rw [h, gfMul_one]
    · exact gfMul_zero _
  rw [Mat.apply, gfSum_congr hterm, gfSum_single, if_pos hc]

theorem matIdentity_get {n i c : Nat} (hi : i < n) (hc : c < n) : (matIdentity n).get i c = if i = c then 1 else 0 :=
  Mat.get_ofFn _ hi hc

theorem matIdentity_apply {n : Nat} (x : Nat → Byte) {i : Nat} (hi : i < n) : (matIdentity n).apply x i = x i := by
  have hterm : ∀ t, t < n → gfMul ((matIdentity n).get i t) (x t) = if t = i then x i else 0 := by
    intro t ht
    rw [matIdentity_get hi ht, gfMul_comm]
    by_cases h : t = i
    · rw [if_pos h.symm, if_pos h, gfMul_one, h]
    · rw [if_neg (Ne.symm h), if_neg h, gfMul_zero]
  rw [Mat.apply, matIdentity_cols, gfSum_congr hterm, gfSum_single, if_pos hi]

/-! ### The product -/

/-- A column of a product is the left factor applied to the column of the right one (rule R156). -/
theorem matMul_get (A B : Mat) {r c : Nat} (hr : r < A.rows) (hc : c < B.cols) :
    (matMul A B).get r c = A.apply (fun t => B.get t c) r := Mat.get_ofFn _ hr hc

/-- A product applies its factors one after the other. -/
theorem matMul_apply (A B : Mat) (x : Nat → Byte) {i : Nat} (hi : i < A.rows) :
    (matMul A B).apply x i = A.apply (B.apply x) i := by
  calc (matMul A B).apply x i
    _ = gfSum B.cols (fun c => gfSum A.cols (fun t => gfMul (A.get i t) (gfMul (B.get t c) (x c)))) :=
      gfSum_congr fun c hc => by
        rw [matMul_get A B hi hc, Mat.apply, gfMul_comm, gfMul_gfSum]
        exact gfSum_congr fun t _ => by rw [gfMul_comm, gfMul_assoc]
    _ = gfSum A.cols (fun t => gfSum B.cols (fun c => gfMul (A.get i t) (gfMul (B.get t c) (x c)))) := gfSum_comm ..
    _ = A.apply (B.apply x) i := gfSum_congr fun t _ => (gfMul_gfSum ..).symm

theorem matMul_assoc {A B C : Mat} (hAB : A.cols = B.rows) :
    matMul (matMul A B) C = matMul A (matMul B C) :=
  Mat.ofFn_congr fun r c hr hc => by
    change (matMul A B).apply (fun t => C.get t c) r = A.apply (fun t => (matMul B C).get t c) r
    rw [matMul_apply A B _ hr]
    exact A.apply_congr r fun t ht => (matMul_get B C (hAB ▸ ht) hc).symm

/-- The product looks at the entries of its right factor only. -/
theorem matMul_congr_right (A : Mat) {B B' : Mat} (hcols : B.cols = B'.cols)
    (h : ∀ t c, t < A.cols → c < B.cols → B.get t c = B'.get t c) : matMul A B = matMul A B' := by
  unfold matMul
  rw [← hcols]
  exact Mat.ofFn_congr fun r c _ hc => gfSum_congr fun t ht => by rw [h t c ht hc]

/-! ### Square values in the form `Mat.ofFn` builds -/

/-- The value is `n × n` and its list of rows has just those elements. -/
def Mat.IsSquare (A : Mat) (n : Nat) : Prop := A = Mat.ofFn n n A.get

theorem Mat.ofFn_get (rows cols : Nat) (f : Nat → Nat → Byte) :
    Mat.ofFn rows cols (Mat.ofFn rows cols f).get = Mat.ofFn rows cols f :=
  Mat.ofFn_congr fun _ _ hr hc => Mat.get_ofFn f hr hc

theorem Mat.isSquare_ofFn {rows cols n : Nat} (hrows : rows = n) (hcols : cols = n) (f : Nat → Nat → Byte) :
    (Mat.ofFn rows cols f).IsSquare n := by
  subst hrows hcols
  exact (Mat.ofFn_get _ _ f).symm

theorem Mat.IsSquare.rows_eq {A : Mat} {n : Nat} (h : A.IsSquare n) : A.rows = n := congrArg Mat.rows h

theorem Mat.IsSquare.cols_eq {A : Mat} {n : Nat} (h : A.IsSquare n) : A.cols = n := congrArg Mat.cols h

theorem Mat.IsSquare.ext {A B : Mat} {n : Nat} (hA : A.IsSquare n) (hB : B.IsSquare n)
    (h : ∀ i c, i < n → c < n → A.get i c = B.get i c) : A = B :=
  hA.trans ((Mat.ofFn_congr h).trans hB.symm)

theorem matIdentity_isSquare (n : Nat) : (matIdentity n).IsSquare n := Mat.isSquare_ofFn rfl rfl _

theorem matMul_isSquare {A B : Mat} {n : Nat} (hA : A.IsSquare n) (hB : B.IsSquare n) : (matMul A B).IsSquare n :=
  Mat.isSquare_ofFn hA.rows_eq hB.cols_eq _

theorem matIdentity_matMul {A : Mat} {n : Nat} (hA : A.IsSquare n) : matMul (matIdentity n) A = A :=
  (Mat.ofFn_congr fun _ _ hr _ => matIdentity_apply _ hr).trans
    ((congrArg (Mat.ofFn n · A.get) hA.cols_eq).trans hA.symm)

theorem matMul_matIdentity {A : Mat} {n : Nat} (hA : A.IsSquare n) : matMul A (matIdentity n) = A := by
  have hcol : ∀ r c, r < n → c < n → A.apply (fun t => (matIdentity n).get t c) r = A.get r c := by
    intro r c _ hc
    rw [← A.apply_unit r (hA.cols_eq ▸ hc)]
    exact A.apply_congr r fun t ht => matIdentity_get (hA.cols_eq ▸ ht) hc
  exact (congrArg (Mat.ofFn · n _) hA.rows_eq).trans ((Mat.ofFn_congr hcol).trans hA.symm)

end Sys2Proof.Machine
end

section
/-! PROOFS. `mat_invert` (rules R153, R154). The idea: a pass applies the same row operations to the working matrix `W`
and to the accumulator `R`, so it keeps the solutions `(x, y)` of the system `W x = R y`, which starts as `A x = y`.
When the working matrix ends as the identity the system reads `x = R y`, so `R` inverts `A` from both sides; when a
pivot is missing, `W` takes some nonzero vector to zero, and so does `A`. -/

namespace Sys2Proof.Machine

/-! ### Row operations on both sides of a system -/

/-- The vectors `x` and `y` solve the system `W x = R y`, row by row. -/
def Solves (W R : Mat) (x y : Nat → Byte) : Prop := ∀ i, i < W.rows → W.apply x i = R.apply y i

theorem swapRows_get (A : Mat) (i j : Nat) {k c : Nat} (hk : k < A.rows) (hc : c < A.cols) :
    (swapRows A i j).get k c = A.get (Equiv.swap i j k) c := by
  rw [Equiv.swap_apply_def]
  exact Mat.get_ofFn _ hk hc

theorem scaleRow_get (A : Mat) (r : Nat) (f : Byte) {k c : Nat} (hk : k < A.rows) (hc : c < A.cols) :
    (scaleRow A r f).get k c = if k = r then gfMul f (A.get k c) else A.get k c := Mat.get_ofFn _ hk hc

theorem eliminate_get (M A : Mat) (r : Nat) {k c : Nat} (hk : k < A.rows) (hc : c < A.cols) :
    (eliminate M A r).get k c =
      if k = r then A.get k c else gfAdd (A.get k c) (gfMul (M.get k r) (A.get r c)) := Mat.get_ofFn _ hk hc

theorem swapRows_apply (A : Mat) (i j : Nat) (x : Nat → Byte) {k : Nat} (hk : k < A.rows) :
    (swapRows A i j).apply x k = A.apply x (Equiv.swap i j k) :=
  gfSum_congr fun t ht => by rw [swapRows_get A i j hk ht]

theorem scaleRow_apply (A : Mat) (r : Nat) (f : Byte) (x : Nat → Byte) {k : Nat} (hk : k < A.rows) :
    (scaleRow A r f).apply x k = if k = r then gfMul f (A.apply x k) else A.apply x k := by
  split
  · next h =>
    rw [Mat.apply, Mat.apply, gfMul_gfSum]
    exact gfSum_congr fun t ht => by rw [scaleRow_get A r f hk ht, if_pos h, gfMul_assoc]
  · next h => exact gfSum_congr fun t ht => by rw [scaleRow_get A r f hk ht, if_neg h]

theorem eliminate_apply (M A : Mat) (r : Nat) (x : Nat → Byte) {k : Nat} (hk : k < A.rows) :
    (eliminate M A r).apply x k =
      if k = r then A.apply x k else gfAdd (A.apply x k) (gfMul (M.get k r) (A.apply x r)) := by
  split
  · next h => exact gfSum_congr fun t ht => by rw [eliminate_get M A r hk ht, if_pos h]
  · next h =>
    rw [Mat.apply, Mat.apply, Mat.apply, gfMul_gfSum, ← gfSum_gfAdd]
    exact gfSum_congr fun t ht => by
      rw [eliminate_get M A r hk ht, if_neg h, gfMul_comm, gfMul_gfAdd, gfMul_comm, gfMul_comm (x t), gfMul_assoc]

section
variable {W R : Mat} {x y : Nat → Byte} {r p : Nat}

theorem swap_lt {n k : Nat} (hr : r < n) (hp : p < n) (hk : k < n) : Equiv.swap r p k < n := by
  rw [Equiv.swap_apply_def]
  split_ifs <;> assumption

theorem solves_swapRows (hrows : R.rows = W.rows) (hr : r < W.rows) (hp : p < W.rows) :
    Solves (swapRows W r p) (swapRows R r p) x y ↔ Solves W R x y := by
  have hrow : ∀ k, k < W.rows → ((swapRows W r p).apply x k = (swapRows R r p).apply y k ↔
      W.apply x (Equiv.swap r p k) = R.apply y (Equiv.swap r p k)) := fun k hk => by
    rw [swapRows_apply W r p x hk, swapRows_apply R r p y (hrows ▸ hk)]
  constructor
  · intro h k hk
    have hk' := swap_lt hr hp hk
    simpa only [Equiv.swap_apply_self] using (hrow _ hk').mp (h _ hk')
  · exact fun h k hk => (hrow k hk).mpr (h _ (swap_lt hr hp hk))

theorem solves_scaleRow (hrows : R.rows = W.rows) {f : Byte} (hf : f ≠ 0) :
    Solves (scaleRow W r f) (scaleRow R r f) x y ↔ Solves W R x y := by
  refine forall₂_congr fun k hk => ?_
  rw [scaleRow_apply W r f x hk, scaleRow_apply R r f y (hrows ▸ hk)]
  split
  · exact gfMul_left_inj hf
  · rfl

theorem solves_eliminate (hrows : R.rows = W.rows) (hr : r < W.rows) (M : Mat) :
    Solves (eliminate M W r) (eliminate M R r) x y ↔ Solves W R x y := by
  have hrow : ∀ k, k < W.rows → W.apply x r = R.apply y r →
      ((eliminate M W r).apply x k = (eliminate M R r).apply y k ↔ W.apply x k = R.apply y k) := by
    intro k hk hpivot
    rw [eliminate_apply M W r x hk, eliminate_apply M R r y (hrows ▸ hk), hpivot]
    split
    · rfl
    · exact gfAdd_left_inj _
  constructor
  · intro h
    have hpivot := h r hr
    rw [eliminate_apply M W r x hr, eliminate_apply M R r y (hrows ▸ hr), if_pos rfl, if_pos rfl] at hpivot
    exact fun k hk => (hrow k hk hpivot).mp (h k hk)
  · exact fun h k hk => (hrow k hk (h r hr)).mpr (h k hk)

end

/-! ### One pass -/

/-- What pass `r` with pivot row `p` of the working matrix `W` does to `A` (`W` itself or the accumulator) before it
eliminates: row `p` comes to row `r`, scaled by the inverse of the pivot. -/
def placePivot (W A : Mat) (r p : Nat) : Mat := scaleRow (swapRows A r p) r (gfInv ((swapRows W r p).get r r))

/-- What pass `r` with pivot row `p` of the working matrix `W` does to `A`. -/
def pivotPass (W A : Mat) (r p : Nat) : Mat := eliminate (placePivot W W r p) (placePivot W A r p) r

theorem invertLoop_of_pivot {W : Mat} {r p : Nat} (h : pivotRow W r = some p) (rs : List Nat) (R : Mat) :
    invertLoop (r :: rs) W R = invertLoop rs (pivotPass W W r p) (pivotPass W R r p) := by
  rw [invertLoop, h]
  rfl

theorem invertLoop_of_no_pivot {W : Mat} {r : Nat} (h : pivotRow W r = none) (rs : List Nat) (R : Mat) :
    invertLoop (r :: rs) W R = .singular r W := by
  rw [invertLoop, h]

/-- The pivot row lies at `r` or below and has a nonzero entry in column `r` (rule R153). -/
theorem pivotRow_eq_some {W : Mat} {r p : Nat} (hr : r < W.rows) (h : pivotRow W r = some p) :
    r ≤ p ∧ p < W.rows ∧ W.get p r ≠ 0 := by
  unfold pivotRow at h
  split at h
  · have hmem := List.mem_range'_1.mp (List.mem_of_find?_eq_some h)
    have hne := List.find?_some h
    exact ⟨by omega, by omega, by simpa using hne⟩
  · next hdiag =>
    cases h
    exact ⟨Nat.le_refl r, hr, hdiag⟩

/-- Without a pivot, column `r` is zero from row `r` down (rule R153). -/
theorem pivotRow_eq_none {W : Mat} {r : Nat} (h : pivotRow W r = none) {j : Nat} (hrj : r ≤ j) (hj : j < W.rows) :
    W.get j r = 0 := by
  unfold pivotRow at h
  split at h
  · next hdiag =>
    obtain rfl | hlt := hrj.eq_or_lt
    · exact hdiag
    · simpa using List.find?_eq_none.mp h j (List.mem_range'_1.mpr (by omega))
  · cases h

/-- The first `r` columns are those of the identity (rule R154). -/
def Mat.Reduced (W : Mat) (n r : Nat) : Prop := ∀ j c, j < n → c < r → W.get j c = if j = c then 1 else 0

section
variable {n : Nat} {W : Mat} {r p : Nat}

theorem placePivot_isSquare {A : Mat} (hA : A.IsSquare n) (W : Mat) (r p : Nat) : (placePivot W A r p).IsSquare n :=
  Mat.isSquare_ofFn hA.rows_eq hA.cols_eq _

theorem pivotPass_isSquare {A : Mat} (hA : A.IsSquare n) (W : Mat) (r p : Nat) : (pivotPass W A r p).IsSquare n :=
  Mat.isSquare_ofFn hA.rows_eq hA.cols_eq _

/-- The pivot that a pass scales by. -/
theorem swapRows_get_pivot (hW : W.IsSquare n) (hr : r < n) : (swapRows W r p).get r r = W.get p r := by
  rw [swapRows_get W r p (hW.rows_eq ▸ hr) (hW.cols_eq ▸ hr), Equiv.swap_apply_left]

theorem placePivot_get {A : Mat} (hA : A.IsSquare n) (hW : W.IsSquare n) (hr : r < n) {k c : Nat} (hk : k < n)
    (hc : c < n) : (placePivot W A r p).get k c =
      if k = r then gfMul (gfInv (W.get p r)) (A.get p c) else A.get (Equiv.swap r p k) c := by
  have hk' : k < A.rows := hA.rows_eq ▸ hk
  have hc' : c < A.cols := hA.cols_eq ▸ hc
  rw [placePivot, swapRows_get_pivot hW hr, scaleRow_get (swapRows A r p) _ _ hk' hc', swapRows_get A r p hk' hc']
  split
  · next h => rw [h, Equiv.swap_apply_left]
  · rfl

/-- Placing a pivot keeps the reduced columns and puts 1 on the diagonal. -/
theorem placePivot_reduced (hW : W.IsSquare n) (hred : W.Reduced n r) (hr : r < n) (hrp : r ≤ p) (hp : p < n)
    (hpivot : W.get p r ≠ 0) : (placePivot W W r p).Reduced n r ∧ (placePivot W W r p).get r r = 1 := by
  refine ⟨fun k c hk hc => ?_, ?_⟩
  · rw [placePivot_get hW hW hr hk (by omega)]
    split
    · next h => rw [hred p c hp hc, if_neg (by omega), gfMul_zero, if_neg (by omega)]
    · have hfix : Equiv.swap r p k = c ↔ k = c := by
        rw [Equiv.swap_apply_eq_iff, Equiv.swap_apply_of_ne_of_ne (by omega) (by omega)]
      simp only [hred _ c (swap_lt hr hp hk) hc, hfix]
  · rw [placePivot_get hW hW hr hr hr, if_pos rfl, gfMul_comm, gfMul_gfInv hpivot]

/-- A pass reduces one more column. -/
theorem pivotPass_reduced (hW : W.IsSquare n) (hred : W.Reduced n r) (hr : r < n) (hrp : r ≤ p) (hp : p < n)
    (hpivot : W.get p r ≠ 0) : (pivotPass W W r p).Reduced n (r + 1) := by
  obtain ⟨hplaced, hone⟩ := placePivot_reduced hW hred hr hrp hp hpivot
  have hsq := placePivot_isSquare hW W r p
  intro k c hk hc
  rw [pivotPass, eliminate_get _ _ _ (hsq.rows_eq ▸ hk) (hsq.cols_eq ▸ (by omega : c < n))]
  obtain hlt | rfl := Nat.lt_succ_iff_lt_or_eq.mp hc
  · rw [hplaced r c hr hlt, if_neg hlt.ne', gfMul_zero, gfAdd_zero, ite_self, hplaced k c hk hlt]
  · rw [hone, gfMul_one, gfAdd_self]
    split
    · next h => rw [h, hone]
    · rfl

/-- A pass keeps the solutions of the system. -/
theorem solves_pivotPass {R : Mat} {x y : Nat → Byte} (hW : W.IsSquare n) (hR : R.IsSquare n) (hr : r < n) (hp : p < n)
    (hpivot : W.get p r ≠ 0) : Solves (pivotPass W W r p) (pivotPass W R r p) x y ↔ Solves W R x y := by
  have hrows : R.rows = W.rows := hR.rows_eq.trans hW.rows_eq.symm
  have hr' : r < W.rows := hW.rows_eq ▸ hr
  have hscale : gfInv ((swapRows W r p).get r r) ≠ 0 := by
    rw [swapRows_get_pivot hW hr]
    intro h
    have hone := gfMul_gfInv hpivot
    rw [h, gfMul_zero] at hone
    exact absurd hone (by decide)
  calc Solves (pivotPass W W r p) (pivotPass W R r p) x y
    _ ↔ Solves (placePivot W W r p) (placePivot W R r p) x y :=
      solves_eliminate (W := placePivot W W r p) (R := placePivot W R r p) hrows hr' _
    _ ↔ Solves (swapRows W r p) (swapRows R r p) x y :=
      solves_scaleRow (W := swapRows W r p) (R := swapRows R r p) hrows hscale
    _ ↔ Solves W R x y := solves_swapRows hrows hr' (hW.rows_eq ▸ hp)

end

/-! ### All passes -/

/-- Where an inversion of `A` stands before pass `r`: the system still has the solutions of `A x = y`, and `r` columns
are reduced. -/
structure Inverting (A : Mat) (n r : Nat) (W R : Mat) : Prop where
  working : W.IsSquare n
  accumulator : R.IsSquare n
  solutions : ∀ x y, Solves W R x y ↔ Solves A (matIdentity n) x y
  reduced : W.Reduced n r

/-- What `mat_invert` has reached when it returns: every pass made, or a pass `r` that finds no pivot. -/
def InvResult.Reached (A : Mat) (n : Nat) : InvResult → Prop
  | .ok W R => Inverting A n n W R
  | .singular r W => r < n ∧ (∀ j, r ≤ j → j < n → W.get j r = 0) ∧ ∃ R, Inverting A n r W R

theorem Inverting.pivotPass {A W R : Mat} {n r p : Nat} (h : Inverting A n r W R) (hr : r < n)
    (hp : pivotRow W r = some p) : Inverting A n (r + 1) (pivotPass W W r p) (pivotPass W R r p) := by
  obtain ⟨hW, hR, hsol, hred⟩ := h
  obtain ⟨hrp, hlt, hpivot⟩ := pivotRow_eq_some (hW.rows_eq ▸ hr) hp
  have hlt' : p < n := hW.rows_eq ▸ hlt
  exact ⟨pivotPass_isSquare hW W r p, pivotPass_isSquare hR W r p,
    fun x y => (solves_pivotPass hW hR hr hlt' hpivot).trans (hsol x y), pivotPass_reduced hW hred hr hrp hlt' hpivot⟩

theorem Inverting.reached {A : Mat} {n : Nat} (m : Nat) {r : Nat} {W R : Mat} (h : Inverting A n r W R)
    (hm : r + m = n) : (invertLoop (List.range' r m) W R).Reached A n := by
  induction m generalizing r W R with
  | zero =>
    obtain rfl : r = n := hm
    exact h
  | succ m ih =>
    rw [List.range'_succ]
    cases hp : pivotRow W r with
    | none =>
      rw [invertLoop_of_no_pivot hp]
      exact ⟨by omega, fun j hrj hj => pivotRow_eq_none hp hrj (h.working.rows_eq ▸ hj), R, h⟩
    | some p =>
      rw [invertLoop_of_pivot hp]
      exact ih (h.pivotPass (by omega) hp) (by omega)

theorem matInvert_reached {A : Mat} {n : Nat} (hA : A.IsSquare n) : (matInvert A).Reached A n := by
  rw [matInvert, hA.rows_eq, List.range_eq_range']
  exact Inverting.reached n ⟨hA, matIdentity_isSquare n, fun _ _ => Iff.rfl, fun _ _ _ hc => absurd hc (by omega)⟩
    (by omega)

/-! ### What the two results mean (rule R154) -/

section
variable {A : Mat} {n : Nat}

/-- `R` is the two-sided inverse of `A`. -/
structure Mat.IsInverse (A R : Mat) (n : Nat) : Prop where
  isSquare : R.IsSquare n
  right : matMul A R = matIdentity n
  left : matMul R A = matIdentity n

/-- A left inverse and a right inverse are the same matrix. -/
theorem eq_of_matMul_eq_identity {B C : Mat} (hA : A.IsSquare n) (hB : B.IsSquare n) (hC : C.IsSquare n)
    (hleft : matMul B A = matIdentity n) (hright : matMul A C = matIdentity n) : B = C := by
  calc B
    _ = matMul B (matMul A C) := by rw [hright, matMul_matIdentity hB]
    _ = C := by rw [← matMul_assoc (hB.cols_eq.trans hA.rows_eq.symm), hleft, matIdentity_matMul hC]

/-- With the identity as working matrix, the system reads `x = R y`. -/
theorem solves_identity_left {R : Mat} {x y : Nat → Byte} :
    Solves (matIdentity n) R x y ↔ ∀ i, i < n → x i = R.apply y i :=
  forall₂_congr fun i hi => by rw [matIdentity_apply x (n := n) hi]

/-- With the identity as accumulator, the system reads `A x = y`. -/
theorem solves_identity_right (hA : A.IsSquare n) {x y : Nat → Byte} :
    Solves A (matIdentity n) x y ↔ ∀ i, i < n → A.apply x i = y i := by
  rw [Solves, hA.rows_eq]
  exact forall₂_congr fun i hi => by rw [matIdentity_apply y hi]

/-- If `x = R y` and `A x = y` have the same solutions, the columns of `R` give one product and the unit
vectors the other. -/
theorem isInverse_of_solutions {R : Mat} (hA : A.IsSquare n) (hR : R.IsSquare n)
    (h : ∀ x y, (∀ i, i < n → x i = R.apply y i) ↔ ∀ i, i < n → A.apply x i = y i) : A.IsInverse R n := by
  refine ⟨hR, (matMul_isSquare hA hR).ext (matIdentity_isSquare n) fun i c hi hc => ?_,
    (matMul_isSquare hR hA).ext (matIdentity_isSquare n) fun i c hi hc => ?_⟩
  · rw [matMul_get A R (hA.rows_eq ▸ hi) (hR.cols_eq ▸ hc), matIdentity_get hi hc]
    exact (h _ fun t => if t = c then 1 else 0).mp (fun t _ => (R.apply_unit t (hR.cols_eq ▸ hc)).symm) i hi
  · rw [matMul_get R A (hR.rows_eq ▸ hi) (hA.cols_eq ▸ hc), matIdentity_get hi hc]
    exact ((h (fun t => if t = c then 1 else 0) _).mpr (fun t _ => A.apply_unit t (hA.cols_eq ▸ hc)) i hi).symm

/-- `Ok` comes with the identity and the two-sided inverse. -/
theorem matInvert_ok {W R : Mat} (hA : A.IsSquare n) (h : matInvert A = .ok W R) :
    W = matIdentity n ∧ A.IsInverse R n := by
  have hreached := matInvert_reached hA
  rw [h] at hreached
  obtain ⟨hW, hR, hsol, hred⟩ := hreached
  obtain rfl : W = matIdentity n :=
    hW.ext (matIdentity_isSquare n) fun j c hj hc => (hred j c hj hc).trans (matIdentity_get hj hc).symm
  exact ⟨rfl, isInverse_of_solutions hA hR fun x y =>
    solves_identity_left.symm.trans ((hsol x y).trans (solves_identity_right hA))⟩

/-- The vector that a partly reduced matrix without a pivot in column `r` takes to zero: the part of column `r` above
row `r`, then 1. -/
def kernelVector (W : Mat) (r t : Nat) : Byte := if t = r then 1 else if t < r then W.get t r else 0

theorem apply_kernelVector {W : Mat} {r : Nat} (hW : W.IsSquare n) (hred : W.Reduced n r) (hr : r < n)
    (hzero : ∀ j, r ≤ j → j < n → W.get j r = 0) {i : Nat} (hi : i < n) : W.apply (kernelVector W r) i = 0 := by
  have hterm : ∀ t, t < n → gfMul (W.get i t) (kernelVector W r t) =
      gfAdd (if t = i then (if i < r then W.get i r else 0) else 0) (if t = r then W.get i r else 0) := by
    intro t _
    rcases Nat.lt_trichotomy t r with h | rfl | h
    · rw [kernelVector, if_neg h.ne, if_pos h, if_neg h.ne, gfAdd_zero, hred i t hi h]
      by_cases hit : i = t
      · rw [if_pos hit, if_pos hit.symm, hit, if_pos h, one_gfMul]
      · rw [if_neg hit, if_neg (Ne.symm hit), zero_gfMul]
    · rw [kernelVector, if_pos rfl, gfMul_one, if_pos rfl,
        ite_eq_right_iff.mpr fun hti => if_neg (by omega), zero_gfAdd]
    · rw [kernelVector, if_neg h.ne', if_neg h.not_gt, if_neg h.ne', gfMul_zero, gfAdd_zero,
        ite_eq_right_iff.mpr fun hti => if_neg (by omega)]
  rw [Mat.apply, hW.cols_eq, gfSum_congr hterm, gfSum_gfAdd, gfSum_single, gfSum_single, if_pos hi, if_pos hr]
  split
  · exact gfAdd_self _
  · rw [hzero i (by omega) hi, gfAdd_self]

/-- `Singular` shows a nonzero vector that the matrix takes to zero: the system `W x = 0` has one. -/
theorem exists_kernel_of_singular {r : Nat} {W : Mat} (hA : A.IsSquare n) (h : matInvert A = .singular r W) :
    ∃ v : Nat → Byte, (∃ i, i < n ∧ v i ≠ 0) ∧ ∀ i, i < n → A.apply v i = 0 := by
  have hreached := matInvert_reached hA
  rw [h] at hreached
  obtain ⟨hr, hzero, R, hW, -, hsol, hred⟩ := hreached
  refine ⟨kernelVector W r, ⟨r, hr, by rw [kernelVector, if_pos rfl]; decide⟩, ?_⟩
  refine (solves_identity_right hA).mp ((hsol _ fun _ => 0).mp fun i hi => ?_)
  rw [apply_kernelVector hW hred hr hzero (hW.rows_eq ▸ hi), R.apply_zero]

/-- A vector that the right factor takes to zero, the product takes to zero: with the identity as product it is zero. -/
theorem eq_zero_of_apply_eq_zero {B : Mat} (hA : A.IsSquare n) (hAB : matMul A B = matIdentity n) {v : Nat → Byte}
    (hv : ∀ t, t < n → B.apply v t = 0) {i : Nat} (hi : i < n) : v i = 0 := by
  calc v i
    _ = (matMul A B).apply v i := by rw [hAB, matIdentity_apply v hi]
    _ = A.apply (B.apply v) i := matMul_apply A B v (hA.rows_eq ▸ hi)
    _ = A.apply (fun _ => 0) i := A.apply_congr i fun t ht => hv t (hA.cols_eq ▸ ht)
    _ = 0 := A.apply_zero i

/-- A matrix with a left inverse is inverted. -/
theorem exists_ok_of_left_inverse {B : Mat} (hB : B.IsSquare n) (hA : A.IsSquare n) (hBA : matMul B A = matIdentity n) :
    ∃ R, matInvert A = .ok (matIdentity n) R ∧ A.IsInverse R n := by
  cases hinv : matInvert A with
  | ok W R =>
    obtain ⟨rfl, hR⟩ := matInvert_ok hA hinv
    exact ⟨R, rfl, hR⟩
  | singular r W =>
    obtain ⟨v, ⟨i, hi, hne⟩, hv⟩ := exists_kernel_of_singular hA hinv
    exact absurd (eq_zero_of_apply_eq_zero hB hBA hv hi) hne

/-- A right inverse is a left inverse: as a matrix with a left inverse it is inverted itself, and by `A`. -/
theorem isInverse_of_right_inverse {B : Mat} (hA : A.IsSquare n) (hB : B.IsSquare n)
    (hAB : matMul A B = matIdentity n) : A.IsInverse B n := by
  obtain ⟨R, -, hR⟩ := exists_ok_of_left_inverse hA hB hAB
  obtain rfl : A = R := eq_of_matMul_eq_identity hB hA hR.isSquare hAB hR.right
  exact ⟨hB, hAB, hR.right⟩

/-- A matrix with a right inverse, whatever the form of its list of rows, is inverted. -/
theorem exists_ok_of_right_inverse {B : Mat} (hA : A.IsSquare n) (hcols : B.cols = n)
    (hAB : matMul A B = matIdentity n) : ∃ R, matInvert A = .ok (matIdentity n) R ∧ A.IsInverse R n := by
  have hform : matMul A (Mat.ofFn n n B.get) = matMul A B := by
    refine (matMul_congr_right A hcols.symm fun t c ht hc => ?_)
    exact Mat.get_ofFn _ (hA.cols_eq ▸ ht) hc
  have hB : (Mat.ofFn n n B.get).IsSquare n := Mat.isSquare_ofFn rfl rfl _
  exact exists_ok_of_left_inverse hB hA (isInverse_of_right_inverse hA hB (hform.trans hAB)).left

end

/-- Settles O16: solutions of the system `A x = y` are kept pass by pass, so `Ok` gives the two-sided inverse and
`Singular` a nonzero vector taken to zero, which no matrix with a right inverse has. -/
theorem matInvertCorrect : Obligations.MatInvertCorrect := by
  intro size f A
  have hA : A.IsSquare size := Mat.isSquare_ofFn rfl rfl f
  refine ⟨fun W R h => ?_, fun r W h => ?_, ?_⟩
  · obtain ⟨rfl, hR⟩ := matInvert_ok hA h
    obtain ⟨A', hok, hA'⟩ := exists_ok_of_left_inverse hA hR.isSquare hR.right
    obtain rfl : A = A' := eq_of_matMul_eq_identity hR.isSquare hA hA'.isSquare hR.right hA'.right
    exact ⟨rfl, hR.right, hR.left, _, hok⟩
  · have hreached := matInvert_reached hA
    rw [h] at hreached
    obtain ⟨hr, hzero, _, hinv⟩ := hreached
    refine ⟨hr, fun B _ hcols hAB => ?_, hinv.reduced, hzero⟩
    obtain ⟨R, hok, -⟩ := exists_ok_of_right_inverse hA hcols hAB
    rw [hok] at h
    cases h
  · rintro ⟨B, -, hcols, hAB⟩
    obtain ⟨R, hok, -⟩ := exists_ok_of_right_inverse hA hcols hAB
    exact ⟨_, R, hok⟩

end Sys2Proof.Machine
end

section
/-! PROOFS. The matrix commands: what reading and writing a matrix register gives, and how each command ends (rules R12,
R155, R158 to R162). -/

namespace Sys2Proof.Machine

/-! ### Fault ends and guards -/

/-- A `raise`, as the statements write fault entry. -/
theorem raise_eq_faulted (c : FaultCode) (info0 info1 : Word) (s : State) :
    raise c info0 info1 s = .next (s.faulted c.code.toNat info0 info1) :=
  congrArg _ (s.endFault_eq_faulted c _ _)

/-! ### A matrix register after a write -/

/-- A count of at most 256 fits the 9 bits of a count register (rule R25). -/
theorem toNat_count {n : Nat} (h : n ≤ 256) : (BitVec.ofNat 9 n).toNat = n := by
  rw [BitVec.toNat_ofNat, Nat.mod_eq_of_lt (by omega)]

/-- The buffers of two registers lie apart: `wr_mat` of legal counts leaves every other buffer (rule R62). -/
theorem State.bufByte_wrMat_of_ne (s : State) {i j : MReg} (hij : j ≠ i) {A : Mat} (hrows : A.rows ≤ 256)
    (hcols : A.cols ≤ 256) {o : Nat} (ho : o < 65536) : (s.wrMat i A).bufByte j o = s.bufByte j o := by
  have hsize := A.size_le hrows hcols
  have hne : j.val ≠ i.val := fun h => hij (Fin.ext h)
  refine sameMatBut_wrMat s i A _ fun hin => ?_
  simp only [InRun, bufAddr, Config.matBuf] at hin
  omega

/-- `wr_mat` of legal counts leaves every other register as a matrix value (rule R12). -/
theorem State.rdMat_wrMat_of_ne (s : State) {i j : MReg} (hij : j ≠ i) {A : Mat} (hrows : A.rows ≤ 256)
    (hcols : A.cols ≤ 256) (hj : (s.shape j).rows.toNat ≤ 256 ∧ (s.shape j).cols.toNat ≤ 256) :
    (s.wrMat i A).rdMat j = s.rdMat j := by
  refine State.rdMat_congr j ((s.shape_wrMat i j A).trans (if_neg hij)) fun o ho => ?_
  exact s.bufByte_wrMat_of_ne hij hrows hcols (ho.trans_le (Nat.mul_le_mul hj.1 hj.2))

/-- The counts of a register after `wr_mat` of legal counts (rule R25). -/
theorem State.counts_wrMat (s : State) (i : MReg) {A : Mat} (hrows : A.rows ≤ 256) (hcols : A.cols ≤ 256) :
    ((s.wrMat i A).shape i).rows.toNat = A.rows ∧ ((s.wrMat i A).shape i).cols.toNat = A.cols := by
  rw [State.shape_wrMat, if_pos rfl]
  exact ⟨toNat_count hrows, toNat_count hcols⟩

/-- A matrix register reads back the square value written to it (rule R12). -/
theorem State.rdMat_wrMat (s : State) (i : MReg) {A : Mat} {n : Nat} (hA : A.IsSquare n) (hn : n ≤ 256) :
    (s.wrMat i A).rdMat i = A := by
  obtain ⟨hrows, hcols⟩ := s.counts_wrMat i (hA.rows_eq.trans_le hn) (hA.cols_eq.trans_le hn)
  have hrd : (s.wrMat i A).rdMat i = Mat.ofFn n n (fun r c => (s.wrMat i A).bufByte i (r * n + c)) := by
    rw [State.rdMat, hrows, hcols, hA.rows_eq, hA.cols_eq]
  refine hrd.trans ((Mat.ofFn_congr fun r c hr hc => ?_).trans hA.symm)
  have helem := s.bufByte_wrMat_elem i A (hA.rows_eq ▸ hr) (hA.cols_eq ▸ hc)
  rwa [hA.cols_eq] at helem

theorem State.rdMat_endNormal (s : State) (i : MReg) : s.endNormal.rdMat i = s.rdMat i := rfl

theorem State.rdMat_isSquare (s : State) {i : MReg} (h : (s.shape i).cols = (s.shape i).rows) :
    (s.rdMat i).IsSquare (s.shape i).rows.toNat := Mat.isSquare_ofFn rfl (congrArg _ h) _

/-- A state that a command ends in normally with `A`, of legal counts, as its result in `md`, every byte of `MAT` beside
it as before (rules R12, R25, R240). -/
structure EndsWithMatrix (s t : State) (md : MReg) (A : Mat) : Prop where
  err : t.err = 0
  pc : t.pc = s.pc + 1
  rows : (t.shape md).rows.toNat = A.rows
  cols : (t.shape md).cols.toNat = A.cols
  elem : ∀ r c, r < A.rows → c < A.cols → t.bufByte md (r * A.cols + c) = A.get r c
  rest : SameMatBut (InRun (bufAddr md 0) (A.rows * A.cols)) s t

theorem endsWithMatrix_wrMat (s : State) (md : MReg) {A : Mat} (hrows : A.rows ≤ 256) (hcols : A.cols ≤ 256) :
    EndsWithMatrix s (s.wrMat md A).endNormal md A := by
  obtain ⟨hr, hc⟩ := s.counts_wrMat md hrows hcols
  exact ⟨rfl, rfl, hr, hc, fun _ _ hr hc => s.bufByte_wrMat_elem md A hr hc, sameMatBut_wrMat s md A⟩

/-! ### VAND (rule R158) -/

theorem exec_vand_of_legal {rows cols : Nat} (hrows : rows ≤ 256) (hcols : cols ≤ 256) (md : MReg) (s : State) :
    exec (.vand md rows cols) s = .next (s.wrMat md (matVandermonde rows cols)).endNormal :=
  if_neg (not_or.mpr ⟨Nat.not_lt.mpr hrows, Nat.not_lt.mpr hcols⟩)

theorem exec_vand_of_too_large {rows cols : Nat} (h : rows > 256 ∨ cols > 256) (md : MReg) (s : State) :
    exec (.vand md rows cols) s =
      .next (s.faulted 6 (cmdLo (encode (.vand md rows cols))) (cmdHi (encode (.vand md rows cols)))) :=
  (if_pos h).trans (raiseWord_eq_faulted ..)

/-- Settles O14: VAND writes the Vandermonde matrix, whose elements are the powers. -/
theorem vandBuildsVandermonde : Obligations.VandBuildsVandermonde := by
  refine fun md rows cols s => ⟨fun hrows hcols => ?_, fun h => exec_vand_of_too_large h md s⟩
  obtain ⟨herr, hpc, hr, hc, helem, hrest⟩ :=
    endsWithMatrix_wrMat s md (A := matVandermonde rows cols) hrows hcols
  exact ⟨_, exec_vand_of_legal hrows hcols md s, herr, hpc, hr, hc,
    fun r c hrr hcc => (helem r c hrr hcc).trans (Mat.get_ofFn _ hrr hcc), hrest⟩

/-! ### SUBM (rule R159) -/

section
variable {md ms : MReg} {xmin ymin xmax ymax : Nat} {s : State}

/-- The guards of SUBM: a legal source, and bounds inside it. -/
def State.SubmInside (s : State) (ms : MReg) (xmin ymin xmax ymax : Nat) : Prop :=
  s.legal ms = true ∧ subBounds (s.rdMat ms) xmin ymin xmax ymax = true

theorem State.submInside_iff : s.SubmInside ms xmin ymin xmax ymax ↔
    (s.shape ms).rows.toNat ≤ 256 ∧ (s.shape ms).cols.toNat ≤ 256 ∧ xmin ≤ xmax ∧ xmax ≤ (s.shape ms).cols.toNat ∧
      ymin ≤ ymax ∧ ymax ≤ (s.shape ms).rows.toNat := by
  rw [SubmInside, s.legal_eq_true_iff, subBounds_eq_true_iff, s.rdMat_rows, s.rdMat_cols]
  tauto

theorem exec_subm_of_inside (h : s.SubmInside ms xmin ymin xmax ymax) :
    exec (.subm md ms xmin ymin xmax ymax) s =
      .next (s.wrMat md (matSub (s.rdMat ms) xmin ymin xmax ymax)).endNormal :=
  (if_neg (by rw [h.1]; decide)).trans (if_neg (by rw [h.2]; decide))

theorem exec_subm_of_outside (h : ¬ s.SubmInside ms xmin ymin xmax ymax) :
    exec (.subm md ms xmin ymin xmax ymax) s =
      .next (s.faulted 6 (cmdLo (encode (.subm md ms xmin ymin xmax ymax)))
        (cmdHi (encode (.subm md ms xmin ymin xmax ymax)))) := by
  refine Eq.trans ?_ (raiseWord_eq_faulted .badParam _ s)
  by_cases hlegal : s.legal ms = true
  · have hbounds : subBounds (s.rdMat ms) xmin ymin xmax ymax = false :=
      Bool.eq_false_iff.mpr fun hb => h ⟨hlegal, hb⟩
    exact (if_neg (by rw [hlegal]; decide)).trans (if_pos hbounds)
  · exact if_pos (Bool.eq_false_iff.mpr hlegal)

end

/-- Settles O15: SUBM writes the region of the source value, which is read from the state as it was. -/
theorem submCopiesRegion : Obligations.SubmCopiesRegion := by
  intro md ms xmin ymin xmax ymax s rows cols inside
  have hiff : s.SubmInside ms xmin ymin xmax ymax ↔ inside := State.submInside_iff
  refine ⟨fun h => ?_, fun h => exec_subm_of_outside (mt hiff.mp h)⟩
  have hexec := exec_subm_of_inside (md := md) (hiff.mpr h)
  obtain ⟨hrows, hcols, hx, hxmax, hy, hymax⟩ := h
  obtain ⟨herr, hpc, hr, hc, helem, hrest⟩ :=
    endsWithMatrix_wrMat s md (A := matSub (s.rdMat ms) xmin ymin xmax ymax)
      (show ymax - ymin ≤ 256 by omega) (show xmax - xmin ≤ 256 by omega)
  exact ⟨_, hexec, herr, hpc, hr, hc, fun r c hrr hcc => (helem r c hrr hcc).trans
    ((Mat.get_ofFn _ hrr hcc).trans (s.rdMat_get ms (by omega) (by omega))), hrest⟩

/-! ### MMUL (rule R162) -/

section
variable {md ma mb : MReg} {s : State}

theorem exec_mmul_of_illegal (h : ¬ (s.legal ma = true ∧ s.legal mb = true)) :
    exec (.mmul md ma mb) s =
      .next (s.faulted 6 (cmdLo (encode (.mmul md ma mb))) (cmdHi (encode (.mmul md ma mb)))) :=
  (if_pos (by simpa only [not_and_or, Bool.not_eq_true] using h)).trans (raiseWord_eq_faulted ..)

theorem exec_mmul_of_mismatch (h : s.legal ma = true ∧ s.legal mb = true)
    (hne : (s.shape ma).cols.toNat ≠ (s.shape mb).rows.toNat) : exec (.mmul md ma mb) s =
      .next (s.faulted 3 (BitVec.ofNat 32 (s.shape ma).cols.toNat) (BitVec.ofNat 32 (s.shape mb).rows.toNat)) :=
  (if_neg (by rw [h.1, h.2]; decide)).trans ((if_pos hne).trans (raise_eq_faulted ..))

theorem exec_mmul_of_matching (h : s.legal ma = true ∧ s.legal mb = true)
    (heq : (s.shape ma).cols.toNat = (s.shape mb).rows.toNat) : exec (.mmul md ma mb) s =
      .next (s.wrMat md (matMul (s.rdMat ma) (s.rdMat mb))).endNormal :=
  (if_neg (by rw [h.1, h.2]; decide)).trans (if_neg (not_not.mpr heq))

/-- The sum of rule R156 over the buffers of the sources. -/
theorem matMul_rdMat_get (heq : (s.shape ma).cols.toNat = (s.shape mb).rows.toNat) {r c : Nat}
    (hr : r < (s.shape ma).rows.toNat) (hc : c < (s.shape mb).cols.toNat) :
    (matMul (s.rdMat ma) (s.rdMat mb)).get r c = gfSum (s.shape ma).cols.toNat (fun u =>
      gfMul (s.bufByte ma (r * (s.shape ma).cols.toNat + u)) (s.bufByte mb (u * (s.shape mb).cols.toNat + c))) :=
  (matMul_get _ _ hr hc).trans (gfSum_congr fun u hu => by
    beta_reduce
    rw [s.rdMat_get ma hr hu, s.rdMat_get mb (heq ▸ hu) hc])

end

/-- Settles O19: MMUL writes the product of the source values, which are read from the state as it was. -/
theorem mmulMultiplies : Obligations.MmulMultiplies := by
  intro md ma mb s ar ac br bc legal
  have hiff : (s.legal ma = true ∧ s.legal mb = true) ↔ legal := by
    rw [s.legal_eq_true_iff, s.legal_eq_true_iff, and_assoc]
  refine ⟨fun hlegal heq => ?_, fun h => exec_mmul_of_illegal (mt hiff.mp h),
    fun hlegal => exec_mmul_of_mismatch (hiff.mpr hlegal)⟩
  obtain ⟨herr, hpc, hr, hc, helem, hrest⟩ :=
    endsWithMatrix_wrMat s md (A := matMul (s.rdMat ma) (s.rdMat mb)) hlegal.1 hlegal.2.2.2
  exact ⟨_, exec_mmul_of_matching (hiff.mpr hlegal) heq, herr, hpc, hr, hc,
    fun r c hrr hcc => (helem r c hrr hcc).trans (matMul_rdMat_get heq hrr hcc), hrest⟩

/-! ### MINV (rule R161) -/

section
variable {md ms : MReg} {s : State}

/-- What MINV asks of its operands: two registers, and a legal and square source. -/
def State.MinvAccepts (s : State) (md ms : MReg) : Prop :=
  md ≠ ms ∧ s.legal ms = true ∧ (s.shape ms).rows = (s.shape ms).cols

theorem State.minvAccepts_iff : s.MinvAccepts md ms ↔
    md ≠ ms ∧ (s.shape ms).rows.toNat ≤ 256 ∧ (s.shape ms).cols.toNat = (s.shape ms).rows.toNat := by
  rw [State.MinvAccepts, s.legal_eq_true_iff, ← BitVec.toNat_inj]
  exact and_congr_right fun _ => by omega

theorem exec_minv_of_rejected (h : ¬ s.MinvAccepts md ms) : exec (.minv md ms) s =
    .next (s.faulted 6 (cmdLo (encode (.minv md ms))) (cmdHi (encode (.minv md ms)))) := by
  refine Eq.trans ?_ (raiseWord_eq_faulted .badParam _ s)
  by_cases hne : md = ms
  · exact if_pos hne
  · by_cases hlegal : s.legal ms = true
    · exact (if_neg hne).trans ((if_neg (by rw [hlegal]; decide)).trans (if_pos fun hsq => h ⟨hne, hlegal, hsq⟩))
    · exact (if_neg hne).trans (if_pos (Bool.eq_false_iff.mpr hlegal))

/-- How MINV past its guards ends, by the result of its inversion. -/
def State.minvEnd (s : State) (md ms : MReg) : InvResult → State
  | .ok W R => ((s.wrMat ms W).wrMat md R).endNormal
  | .singular r W =>
    (s.wrMat ms W).endFault .singularMatrix (BitVec.ofNat 32 r) (BitVec.ofNat 32 (s.shape ms).rows.toNat)

theorem exec_minv_of_accepted (h : s.MinvAccepts md ms) :
    exec (.minv md ms) s = .next (s.minvEnd md ms (matInvert (s.rdMat ms))) := by
  obtain ⟨hne, hlegal, hsq⟩ := h
  refine ((if_neg hne).trans ((if_neg (by rw [hlegal]; decide)).trans (if_neg (not_not.mpr hsq)))).trans ?_
  cases matInvert (s.rdMat ms) <;> rfl

end

/-- After MINV with result `R` both registers read back what is written to them. -/
theorem rdMat_minvEnd_ok (s : State) {md ms : MReg} (hne : md ≠ ms) {n : Nat} (hn : n ≤ 256) {W R : Mat}
    (hW : W.IsSquare n) (hR : R.IsSquare n) :
    (s.minvEnd md ms (.ok W R)).rdMat ms = W ∧ (s.minvEnd md ms (.ok W R)).rdMat md = R := by
  rw [State.minvEnd, State.rdMat_endNormal, State.rdMat_endNormal]
  refine ⟨?_, (s.wrMat ms W).rdMat_wrMat md hR hn⟩
  have hWrows := hW.rows_eq.trans_le hn
  have hWcols := hW.cols_eq.trans_le hn
  obtain ⟨hrows, hcols⟩ := s.counts_wrMat ms hWrows hWcols
  calc ((s.wrMat ms W).wrMat md R).rdMat ms
    _ = (s.wrMat ms W).rdMat ms := State.rdMat_wrMat_of_ne _ hne.symm (hR.rows_eq.trans_le hn)
        (hR.cols_eq.trans_le hn) ⟨hrows.trans_le hWrows, hcols.trans_le hWcols⟩
    _ = W := s.rdMat_wrMat ms hW hn

/-- Settles O17: a right inverse makes `mat_invert` return `Ok`, and the two registers read back what is written. -/
theorem minvInverts : Obligations.MinvInverts := by
  intro md ms s B hne hrows hsq _ hBcols hAB
  obtain ⟨R, hok, hR⟩ := exists_ok_of_right_inverse (s.rdMat_isSquare hsq) hBcols hAB
  have hexec := exec_minv_of_accepted (State.minvAccepts_iff.mpr ⟨hne, hrows, congrArg _ hsq⟩)
  rw [hok] at hexec
  obtain ⟨hsource, hdest⟩ := rdMat_minvEnd_ok s hne hrows (matIdentity_isSquare _) hR.isSquare
  refine ⟨_, hexec, rfl, rfl, hsource, ?_, ?_⟩ <;> rw [hdest]
  · exact hR.right
  · exact hR.left

/-- Settles O18: MINV past its guards stores the working matrix of a singular source into the source alone. -/
theorem minvFaults : Obligations.MinvFaults := by
  refine fun md ms s => ⟨fun h => exec_minv_of_rejected fun hacc => ?_, fun r W hne hrows hsq hinv => ?_⟩
  · obtain ⟨hne, hrows, hsq⟩ := State.minvAccepts_iff.mp hacc
    obtain h | h := h
    · exact hne h
    · omega
  · have hexec := exec_minv_of_accepted (State.minvAccepts_iff.mpr ⟨hne, hrows, hsq⟩)
    rw [hinv] at hexec
    have hsquare : (s.shape ms).rows = (s.shape ms).cols := BitVec.eq_of_toNat_eq hsq.symm
    obtain ⟨hWrows, hWcols⟩ := State.minvSingular_counts hsquare hinv
    have hshape := sameShapesBut_wrMat_of_same_counts hsquare hWrows hWcols []
    refine ⟨_, hexec, rfl, rfl, rfl, rfl, rfl, hshape ms List.not_mem_nil, fun j c hj hc => ?_,
      hshape md List.not_mem_nil, fun o ho => ?_⟩
    · have helem := s.bufByte_wrMat_elem ms W (hj.trans_eq hWrows.symm) (hc.trans_eq hWcols.symm)
      rwa [hWcols] at helem
    · exact s.bufByte_wrMat_of_ne hne (hWrows.trans_le hrows) (hWcols.trans_le hrows) ho

end Sys2Proof.Machine
end

section
/-! PROOFS. The accumulating commands: what ADDSV and ENCODE leave in each byte of the shard memory (rules R180 to R182,
R195). -/

namespace Sys2Proof.Machine

/-! ### ADDSV (rules R181, R182) -/

section
variable {s : State} (sd ss : Slot) (c : Byte)

theorem exec_addsv_of_fits (hlen : s.shlen.toNat ≤ s.lmax) :
    exec (.addsv sd ss c) s = .next (s.addScaledSlot sd.val ss.val c s.shardLen).endNormal :=
  if_neg (Bool.eq_false_iff.mp (s.shlenTooLong_eq_false_iff.mpr hlen))

theorem exec_addsv_of_too_long (hlen : s.lmax < s.shlen.toNat) : exec (.addsv sd ss c) s =
    .next (s.faulted 6 (cmdLo (encode (.addsv sd ss c))) (cmdHi (encode (.addsv sd ss c)))) :=
  (if_pos (s.shlenTooLong_eq_true_iff.mpr hlen)).trans (raiseWord_eq_faulted ..)

end

/-- Settles O20: the command is `add_scaled` on its slots, lane by lane. -/
theorem addsvAccumulates : Obligations.AddsvAccumulates := by
  refine fun sd ss c s => ⟨fun hlen => ?_, exec_addsv_of_too_long sd ss c⟩
  refine ⟨_, exec_addsv_of_fits sd ss c hlen, rfl, rfl, fun b hb => ?_, sameShdBut_addScaledSlot s _ _ c _⟩
  exact (s.slotByte_addScaledSlot _ _ _ c hlen (hb.trans_le hlen)).trans (if_pos ⟨rfl, hb⟩)

/-- Accumulating a byte's own multiple by `c` multiplies it by `c ^ 1` (rule R182). -/
theorem gfAdd_gfMul_self (c a : Byte) : gfAdd a (gfMul c a) = gfMul (c ^^^ 1) a :=
  calc gfAdd a (gfMul c a)
    _ = gfAdd (gfMul a c) (gfMul a 1) := by rw [gfMul_one, gfMul_comm c]; exact BitVec.xor_comm ..
    _ = gfMul a (gfAdd c 1) := (gfMul_gfAdd a c 1).symm
    _ = gfMul (c ^^^ 1) a := gfMul_comm ..

/-- Settles O21: O20 with one slot as source and destination, and the factor `c ^ 1` is 0 for `c = 1`, 1 for `c = 0`. -/
theorem addsvToItself : Obligations.AddsvToItself := by
  intro sl c s hlen
  obtain ⟨t, hexec, herr, -, hlane, -⟩ := (addsvAccumulates sl sl c s).1 hlen
  refine ⟨t, hexec, herr, fun b hb => ?_⟩
  have hscaled := (hlane b hb).trans (gfAdd_gfMul_self c _)
  refine ⟨hlane b hb, hscaled, ?_, ?_⟩ <;> rintro rfl
  · exact hscaled.trans (zero_gfMul _)
  · exact hscaled.trans (one_gfMul _)

/-! ### ENCODE (rule R195) -/

theorem exec_encode_of_fits {s : State} (hcfg : s.cfgv = true) (hlen : s.shlen.toNat ≤ s.lmax) :
    exec .encode s = .next s.encodeAll.endNormal :=
  (if_neg (by rw [hcfg]; decide)).trans (if_neg (Bool.eq_false_iff.mp (s.shlenTooLong_eq_false_iff.mpr hlen)))

/-- ENCODE's loops leave the model's pc (rules R22, R195). -/
theorem State.encodeAll_pc (s : State) : s.encodeAll.pc = s.pc := by rw [sameButShd_encodeAll s]

/-- Settles O27: every byte of every slot after ENCODE's loops is known, and they store to the parity slots alone. -/
theorem encodeAccumulatesParity : Obligations.EncodeAccumulatesParity := by
  intro s hcfg hlen
  refine ⟨_, exec_encode_of_fits hcfg hlen, rfl, congrArg (· + 1) s.encodeAll_pc, fun j b hj hb => ?_,
    sameShdBut_encodeAll s⟩
  exact (s.slotByte_encodeAll (s.k.toNat + j) hlen (hb.trans_le hlen)).trans (if_pos ⟨by omega, hb⟩)

end Sys2Proof.Machine
end

section
/-! PROOFS. The Vandermonde matrix (rule R151): rows of distinct points take no nonzero vector to zero. The field
functions make a ring of the bytes, so that Mathlib's theorem about Vandermonde matrices applies. -/

namespace Sys2Proof.Machine

/-! ### The bytes as a ring -/

/-- A byte as a field element: a type of its own, because `BitVec 8` already carries the arithmetic modulo 256. -/
structure FieldElem where
  byte : Byte

/-- The ring of rule R120: its addition, product and neutral elements are the model's. -/
@[reducible] def FieldElem.commRing : CommRing FieldElem :=
  letI : Add FieldElem := ⟨fun a b => ⟨gfAdd a.byte b.byte⟩⟩
  letI : Mul FieldElem := ⟨fun a b => ⟨gfMul a.byte b.byte⟩⟩
  letI : Neg FieldElem := ⟨id⟩
  letI : Zero FieldElem := ⟨⟨0⟩⟩
  letI : One FieldElem := ⟨⟨1⟩⟩
  CommRing.ofMinimalAxioms
    (fun a b c => congrArg mk (BitVec.xor_assoc a.byte b.byte c.byte))
    (fun a => congrArg mk (zero_gfAdd a.byte))
    (fun a => congrArg mk (gfAdd_self a.byte))
    (fun a b c => congrArg mk (gfMul_assoc a.byte b.byte c.byte))
    (fun a b => congrArg mk (gfMul_comm a.byte b.byte))
    (fun a => congrArg mk (one_gfMul a.byte))
    (fun a b c => congrArg mk (gfMul_gfAdd a.byte b.byte c.byte))

/-- A nonzero factor cancels, so the ring has no zero divisors. -/
theorem FieldElem.isDomain : let _ := FieldElem.commRing; IsDomain FieldElem := by
  intro _
  have : Nontrivial FieldElem := ⟨⟨⟨1⟩, ⟨0⟩, by simp⟩⟩
  have : NoZeroDivisors FieldElem := ⟨fun {a b} h => or_iff_not_imp_left.mpr fun ha => by
    have hbyte : gfMul a.byte b.byte = gfMul a.byte 0 := (congrArg byte h).trans (gfMul_zero _).symm
    exact congrArg mk ((gfMul_left_inj fun h0 => ha (congrArg mk h0)).mp hbyte)⟩
  exact NoZeroDivisors.to_isDomain FieldElem

/-- `gf_pow` is the power of the ring. -/
theorem FieldElem.mk_gfPow (a : Byte) (n : Nat) : let _ := FieldElem.commRing; mk (gfPow a n) = mk a ^ n := by
  intro _
  rw [gfPow_eq_iterate]
  induction n with
  | zero => rfl
  | succ n ih => rw [Function.iterate_succ_apply', pow_succ', ← ih]; rfl

/-- The sum of rule R121 is the sum of the ring. -/
theorem FieldElem.mk_gfSum (n : Nat) (f : Nat → Byte) :
    let _ := FieldElem.commRing; mk (gfSum n f) = ∑ i : Fin n, mk (f i) := by
  intro _
  induction n with
  | zero => rfl
  | succ n ih =>
    rw [Fin.sum_univ_castSucc, gfSum_succ]
    exact congrArg (· + mk (f n)) ih

/-! ### Rows of distinct points -/

/-- A combination of the first `k` powers that is zero at `k` distinct points has only zero coefficients. -/
theorem eq_zero_of_gfSum_gfPow_eq_zero {k : Nat} {x v : Nat → Byte}
    (hx : ∀ p q, p < k → q < k → x p = x q → p = q)
    (hv : ∀ q, q < k → gfSum k (fun u => gfMul (gfPow (x q) u) (v u)) = 0) {u : Nat} (hu : u < k) : v u = 0 := by
  let _ := FieldElem.commRing
  have := FieldElem.isDomain
  have hinj : Function.Injective fun q : Fin k => FieldElem.mk (x q) :=
    fun p q h => Fin.ext (hx p q p.isLt q.isLt (congrArg FieldElem.byte h))
  have hsum (q : Fin k) : ∑ u : Fin k, FieldElem.mk (x q) ^ (u : Nat) * FieldElem.mk (v u) = 0 := by
    simp only [← FieldElem.mk_gfPow]
    exact (FieldElem.mk_gfSum k fun u => gfMul (gfPow (x q) u) (v u)).symm.trans
      (congrArg FieldElem.mk (hv q q.isLt))
  exact congrArg FieldElem.byte
    (congrFun (Matrix.eq_zero_of_forall_index_sum_pow_mul_eq_zero hinj hsum) ⟨u, hu⟩)

end Sys2Proof.Machine
end

section
/-! PROOFS. The generator matrix (rules R191, R194). The idea: its row `r` is row `r` of the Vandermonde matrix times the
inverse `T` of the top square, so any `k` of its rows take a vector to what `k` Vandermonde rows of distinct points
make of that vector under `T`, which is zero for the zero vector only. -/

namespace Sys2Proof.Machine

/-! ### Matrices that take no nonzero vector to zero -/

/-- The matrix takes no nonzero column vector to zero. -/
def Mat.TrivialKernel (A : Mat) (n : Nat) : Prop :=
  ∀ v : Nat → Byte, (∀ i, i < n → A.apply v i = 0) → ∀ i, i < n → v i = 0

/-- Such a square matrix is inverted, for `Singular` would show a nonzero vector. -/
theorem Mat.TrivialKernel.exists_ok {A : Mat} {n : Nat} (h : A.TrivialKernel n) (hA : A.IsSquare n) :
    ∃ R, matInvert A = .ok (matIdentity n) R ∧ A.IsInverse R n := by
  cases hinv : matInvert A with
  | ok W R =>
    obtain ⟨rfl, hR⟩ := matInvert_ok hA hinv
    exact ⟨R, rfl, hR⟩
  | singular r W =>
    obtain ⟨v, ⟨i, hi, hne⟩, hv⟩ := exists_kernel_of_singular hA hinv
    exact absurd (h v hv i hi) hne

/-- The square made of the rows `pick 0`, ..., `pick (k - 1)` of a matrix with `k` columns. -/
def Mat.pickRows (A : Mat) (pick : Nat → Nat) (k : Nat) : Mat := Mat.ofFn k k (fun q c => A.get (pick q) c)

theorem Mat.pickRows_isSquare (A : Mat) (pick : Nat → Nat) (k : Nat) : (A.pickRows pick k).IsSquare k :=
  Mat.isSquare_ofFn rfl rfl _

theorem Mat.pickRows_apply {A : Mat} {k : Nat} (hA : A.cols = k) (pick : Nat → Nat) (x : Nat → Byte) {q : Nat}
    (hq : q < k) : (A.pickRows pick k).apply x q = A.apply x (pick q) := by
  rw [Mat.apply, Mat.apply, hA]
  exact gfSum_congr fun t ht => congrArg (gfMul · (x t)) (Mat.get_ofFn _ hq ht)

/-! ### Rows of the Vandermonde matrix (rule R151) -/

/-- Row `r` takes coefficients to the value of their polynomial at the point `r`. -/
theorem matVandermonde_apply {rows cols r : Nat} (hr : r < rows) (x : Nat → Byte) :
    (matVandermonde rows cols).apply x r = gfSum cols (fun u => gfMul (gfPow (BitVec.ofNat 8 r) u) (x u)) :=
  gfSum_congr fun u hu => congrArg (gfMul · (x u)) (Mat.get_ofFn _ hr hu)

/-- Any `k` distinct rows of at most 256 have distinct points. -/
theorem trivialKernel_pickRows_matVandermonde {n k : Nat} (hn : n ≤ 256) {pick : Nat → Nat}
    (hpick : ∀ q, q < k → pick q < n) (hinj : ∀ p q, p < k → q < k → pick p = pick q → p = q) :
    ((matVandermonde n k).pickRows pick k).TrivialKernel k := by
  intro v hv u hu
  have hpoint : ∀ p q, p < k → q < k → BitVec.ofNat 8 (pick p) = BitVec.ofNat 8 (pick q) → p = q := by
    intro p q hp hq h
    have hmod := congrArg BitVec.toNat h
    simp only [BitVec.toNat_ofNat] at hmod
    have hp' := hpick p hp
    have hq' := hpick q hq
    exact hinj p q hp hq (by omega)
  refine eq_zero_of_gfSum_gfPow_eq_zero (x := fun q => BitVec.ofNat 8 (pick q)) hpoint (fun q hq => ?_) hu
  rw [← matVandermonde_apply (hpick q hq), ← Mat.pickRows_apply (A := matVandermonde n k) rfl pick v hq]
  exact hv q hq

theorem matVandermonde_isSquare (k : Nat) : (matVandermonde k k).IsSquare k := Mat.isSquare_ofFn rfl rfl _

/-- The top square of the Vandermonde matrix is the Vandermonde matrix of its size. -/
theorem matSub_matVandermonde (k m : Nat) : matSub (matVandermonde (k + m) k) 0 0 k k = matVandermonde k k :=
  Mat.ofFn_congr fun r c hr hc => by
    rw [Nat.zero_add, Nat.zero_add]
    exact Mat.get_ofFn _ (by omega) hc

/-! ### The generator matrix is built (rules R191, R193) -/

/-- The Vandermonde square has an inverse `T`, the same for every number of parity shards, and the generator matrix is
the Vandermonde matrix times `T`. -/
theorem exists_buildGenerator_eq_ok {k : Nat} (hk : k ≤ 256) :
    ∃ T, (matVandermonde k k).IsInverse T k ∧ ∀ m, buildGenerator k m = .ok (matMul (matVandermonde (k + m) k) T) := by
  have hform : (matVandermonde k k).pickRows id k = matVandermonde k k := Mat.ofFn_get ..
  have hker : (matVandermonde k k).TrivialKernel k := by
    rw [← hform]
    exact trivialKernel_pickRows_matVandermonde hk (fun _ => id) fun _ _ _ _ => id
  obtain ⟨T, hok, hT⟩ := hker.exists_ok (matVandermonde_isSquare k)
  exact ⟨T, hT, fun m => by simp only [buildGenerator, matSub_matVandermonde, hok]⟩

/-! ### What the generator matrix does (rule R194) -/

section
variable {k m : Nat} {G : Mat}

/-- The generator matrix in the form `exists_buildGenerator_eq_ok` gives it. -/
theorem exists_eq_of_buildGenerator (hk : k ≤ 256) (hG : buildGenerator k m = .ok G) :
    ∃ T, (matVandermonde k k).IsInverse T k ∧ G = matMul (matVandermonde (k + m) k) T := by
  obtain ⟨T, hT, hbuild⟩ := exists_buildGenerator_eq_ok hk
  exact ⟨T, hT, Except.ok.inj (hG.symm.trans (hbuild m))⟩

/-- The generator matrix is systematic: a data row takes the data to its own entry (rule R194 (a)). -/
theorem generator_apply_data (hk : k ≤ 256) (hG : buildGenerator k m = .ok G) (x : Nat → Byte) {r : Nat} (hr : r < k) :
    G.apply x r = x r := by
  obtain ⟨T, hT, rfl⟩ := exists_eq_of_buildGenerator hk hG
  calc (matMul (matVandermonde (k + m) k) T).apply x r
    _ = (matVandermonde (k + m) k).apply (T.apply x) r := matMul_apply _ T x (show r < k + m by omega)
    _ = (matVandermonde k k).apply (T.apply x) r := by
      rw [matVandermonde_apply (by omega), matVandermonde_apply hr]
    _ = (matMul (matVandermonde k k) T).apply x r := (matMul_apply _ T x hr).symm
    _ = x r := by rw [hT.right, matIdentity_apply x hr]

/-- Any `k` distinct rows of the generator matrix take no nonzero vector to zero (rule R194 (b)). -/
theorem trivialKernel_pickRows_generator (hkm : k + m ≤ 256) (hG : buildGenerator k m = .ok G) {pick : Nat → Nat}
    (hpick : ∀ q, q < k → pick q < k + m) (hinj : ∀ p q, p < k → q < k → pick p = pick q → p = q) :
    (G.pickRows pick k).TrivialKernel k := by
  obtain ⟨T, hT, rfl⟩ := exists_eq_of_buildGenerator (by omega) hG
  intro v hv i hi
  have hzero : ∀ u, u < k → T.apply v u = 0 := by
    refine trivialKernel_pickRows_matVandermonde hkm hpick hinj (T.apply v) fun q hq => ?_
    calc ((matVandermonde (k + m) k).pickRows pick k).apply (T.apply v) q
      _ = (matVandermonde (k + m) k).apply (T.apply v) (pick q) := Mat.pickRows_apply rfl pick _ hq
      _ = (matMul (matVandermonde (k + m) k) T).apply v (pick q) := (matMul_apply _ T v (hpick q hq)).symm
      _ = ((matMul (matVandermonde (k + m) k) T).pickRows pick k).apply v q :=
        (Mat.pickRows_apply (A := matMul _ T) hT.isSquare.cols_eq pick v hq).symm
      _ = 0 := hv q hq
  exact eq_zero_of_apply_eq_zero (matVandermonde_isSquare k) hT.right hzero hi

/-- Any `k` distinct rows of the generator matrix are inverted (rule R194 (b)). -/
theorem exists_inverse_pickRows_generator (hkm : k + m ≤ 256) (hG : buildGenerator k m = .ok G) {pick : Nat → Nat}
    (hpick : ∀ q, q < k → pick q < k + m) (hinj : ∀ p q, p < k → q < k → pick p = pick q → p = q) :
    ∃ D, matInvert (G.pickRows pick k) = .ok (matIdentity k) D ∧ (G.pickRows pick k).IsInverse D k :=
  (trivialKernel_pickRows_generator hkm hG hpick hinj).exists_ok (G.pickRows_isSquare pick k)

/-- The inverse of picked rows recovers the data from the shards of those rows (rules R204, R205). -/
theorem apply_inverse_pickRows {D : Mat} (hcols : G.cols = k) {pick : Nat → Nat}
    (hD : (G.pickRows pick k).IsInverse D k) (x : Nat → Byte) {i : Nat} (hi : i < k) :
    D.apply (fun q => G.apply x (pick q)) i = x i := by
  calc D.apply (fun q => G.apply x (pick q)) i
    _ = D.apply ((G.pickRows pick k).apply x) i := D.apply_congr i fun q hq =>
      (Mat.pickRows_apply hcols pick x (hD.isSquare.cols_eq ▸ hq)).symm
    _ = (matMul D (G.pickRows pick k)).apply x i := (matMul_apply D _ x (hD.isSquare.rows_eq ▸ hi)).symm
    _ = x i := by rw [hD.left, matIdentity_apply x hi]

end

/-! ### The statements about the generator matrix (rule R194) -/

/-- Settles O25: Vandermonde rows of distinct points, times an inverse, take no nonzero vector to zero. -/
theorem generatorRowsInvertible : Obligations.GeneratorRowsInvertible := by
  intro k m G pick _ hkm hG hpick hinj
  obtain ⟨D, hok, -⟩ := exists_inverse_pickRows_generator hkm hG hpick hinj
  exact ⟨_, D, hok⟩

/-- Settles O24: a data row takes each unit vector to its own entry. -/
theorem generatorIsSystematic : Obligations.GeneratorIsSystematic := by
  intro k m G _ hkm hG
  obtain ⟨hrows, hcols⟩ := buildGenerator_counts hG
  refine ⟨hrows, hcols, fun r c hr hc => ?_⟩
  rw [← G.apply_unit r (hcols ▸ hc), generator_apply_data (by omega) hG _ hr]

/-- Settles O26: both matrices are a Vandermonde matrix times the same inverse, and row `r` of the Vandermonde matrix
depends on `r` alone. -/
theorem generatorRowsStable : Obligations.GeneratorRowsStable := by
  intro k m m' G G' _ hkm _ hG hG' r c hr hc
  obtain ⟨T, hT, hbuild⟩ := exists_buildGenerator_eq_ok (k := k) (by omega)
  obtain rfl : _ = G := Except.ok.inj ((hbuild m).symm.trans hG)
  obtain rfl : _ = G' := Except.ok.inj ((hbuild m').symm.trans hG')
  have hc' : c < T.cols := hT.isSquare.cols_eq ▸ hc
  rw [matMul_get _ T (show r < k + m by omega) hc', matMul_get _ T (show r < k + m' by omega) hc',
    matVandermonde_apply (by omega), matVandermonde_apply (by omega)]

/-! ### INIT (rule R193) -/

theorem exec_init_of_ok {k m : Nat} {G : Mat} (hk : 1 ≤ k) (hkm : k + m ≤ 256) (hG : buildGenerator k m = .ok G)
    (s : State) : exec (.init k m) s = .next ((s.setCoder k m).wrGen G).endNormal := by
  have hguard : ¬ (k = 0 ∨ k + m > Config.nslot) := by simp only [Config.nslot]; omega
  simp [exec, execInit, hguard, hG]

/-- Settles O22: the generator matrix is always built, and INIT's frame says where it is stored. -/
theorem initConstructsCoder : Obligations.InitConstructsCoder := by
  intro k m s hk hkm
  obtain ⟨T, -, hbuild⟩ := exists_buildGenerator_eq_ok (k := k) (by omega)
  obtain ⟨hrows, hcols⟩ := buildGenerator_counts (hbuild m)
  have hexec := exec_init_of_ok hk hkm (hbuild m) s
  obtain ⟨-, -, -, -, -, hstored, -⟩ := initFrame k m s _ hexec
  refine ⟨_, _, hbuild m, hexec, rfl, rfl, rfl, toNat_count (by omega), toNat_count (by omega), toNat_count hkm,
    fun r c hr hc => ?_, hstored⟩
  have helem := (s.setCoder k m).genByte_wrGen_elem _ (hrows ▸ hr) (hcols ▸ hc)
  rwa [hcols] at helem

/-- Settles O23: both conditions are INIT's guard, which comes before anything is written. -/
theorem initRejectsParameters : Obligations.InitRejectsParameters :=
  fun k m s h => (if_pos h).trans (raiseWord_eq_faulted .badParam (encode (.init k m)) s)

end Sys2Proof.Machine
end

section
/-! PROOFS. RECON (rules R200 to R209): one inversion lemma for its six ways to end, what its write-back leaves, and the
recovery of encoded data. -/

namespace Sys2Proof.Machine

/-! ### How RECON ends (rule R200) -/

/-- The six ways RECON can end, each under the guards that lead to it. -/
inductive ReconEnd (s : State) : State → Prop where
  | notConfigured (hcfg : s.cfgv = false) :
      ReconEnd s (s.endFault .notConfigured (cmdLo (encode .recon)) (cmdHi (encode .recon)))
  | tooLong (hcfg : s.cfgv = true) (hlen : s.lmax < s.shlen.toNat) :
      ReconEnd s (s.endFault .badParam (cmdLo (encode .recon)) (cmdHi (encode .recon)))
  | noneMissing (hcfg : s.cfgv = true) (hlen : s.shlen.toNat ≤ s.lmax) (hnone : s.missing = []) :
      ReconEnd s s.endNormal
  | insufficient (hcfg : s.cfgv = true) (hlen : s.shlen.toNat ≤ s.lmax) (hsome : s.missing ≠ [])
      (hfew : s.m.toNat < s.missing.length ∨ s.presentSlots.length < s.k.toNat) :
      ReconEnd s (s.endFault .insufficientShards s.shardInfo0 s.shardInfo1)
  | singular (r : Nat) (W : Mat) (hcfg : s.cfgv = true) (hlen : s.shlen.toNat ≤ s.lmax) (hsome : s.missing ≠ [])
      (henough : ¬ (s.m.toNat < s.missing.length ∨ s.presentSlots.length < s.k.toNat))
      (hinv : matInvert s.decodeSource = .singular r W) :
      ReconEnd s (s.endFault .singularMatrix (BitVec.ofNat 32 r) (BitVec.ofNat 32 s.k.toNat))
  | restored (W D : Mat) (hcfg : s.cfgv = true) (hlen : s.shlen.toNat ≤ s.lmax) (hsome : s.missing ≠ [])
      (henough : ¬ (s.m.toNat < s.missing.length ∨ s.presentSlots.length < s.k.toNat))
      (hinv : matInvert s.decodeSource = .ok W D) : ReconEnd s (s.restore D).endNormal

/-- RECON ends in one of these ways. -/
theorem exists_reconEnd (s : State) : ∃ t, exec .recon s = .next t ∧ ReconEnd s t := by
  by_cases hcfg : s.cfgv = false
  · exact ⟨_, exec_recon_of_not_configured hcfg, .notConfigured hcfg⟩
  replace hcfg : s.cfgv = true := by simpa using hcfg
  by_cases hlen : s.lmax < s.shlen.toNat
  · exact ⟨_, exec_recon_of_too_long hcfg hlen, .tooLong hcfg hlen⟩
  replace hlen : s.shlen.toNat ≤ s.lmax := Nat.not_lt.mp hlen
  by_cases hnone : s.missing = []
  · exact ⟨_, exec_recon_of_none_missing hcfg hlen hnone, .noneMissing hcfg hlen hnone⟩
  by_cases hfew : s.m.toNat < s.missing.length ∨ s.presentSlots.length < s.k.toNat
  · exact ⟨_, exec_recon_of_insufficient hcfg hlen hnone hfew, .insufficient hcfg hlen hnone hfew⟩
  cases hinv : matInvert s.decodeSource with
  | singular r W =>
    exact ⟨_, exec_recon_of_singular hcfg hlen hnone hfew hinv, .singular r W hcfg hlen hnone hfew hinv⟩
  | ok W D => exact ⟨_, exec_recon_of_ok hcfg hlen hnone hfew hinv, .restored W D hcfg hlen hnone hfew hinv⟩

theorem reconEnd_of_exec {s t : State} (h : exec .recon s = .next t) : ReconEnd s t := by
  obtain ⟨u, hu, hend⟩ := exists_reconEnd s
  cases hu.symm.trans h
  exact hend

theorem State.missing_eq_nil_iff (s : State) : s.missing = [] ↔ ∀ i, i < s.k.toNat → s.isPresent i = true := by
  simp [State.missing, List.filter_eq_nil_iff]

theorem State.missing_ne_nil_iff (s : State) : s.missing ≠ [] ↔ 1 ≤ s.numMissing := by
  rw [← s.missing_length, ← List.length_pos_iff]
  rfl

/-- Settles O30: with no data slot absent RECON ends before any other check of the shards. -/
theorem reconNothingMissing : Obligations.ReconNothingMissing :=
  fun s hcfg hlen h => exec_recon_of_none_missing hcfg hlen (s.missing_eq_nil_iff.mpr h)

/-- The context words of `INSUFFICIENT_SHARDS` as the statements write them (rule R232). -/
theorem State.shardInfo_eq (s : State) :
    s.shardInfo0 = BitVec.ofNat 32 (s.numMissing + s.m.toNat * 65536) ∧
    s.shardInfo1 = BitVec.ofNat 32 (s.numPresent + s.k.toNat * 65536) := by
  simp only [State.shardInfo0, State.shardInfo1, s.missing_length, s.presentSlots_length, Nat.shiftLeft_eq,
    Nat.reducePow, and_self]

/-- Settles O31: the guards of the one end of RECON that has code 1. -/
theorem reconInsufficientShards : Obligations.ReconInsufficientShards := by
  intro s
  rw [← s.missing_ne_nil_iff, ← s.missing_length, ← s.presentSlots_length]
  refine ⟨fun hcfg hlen hsome hfew => ?_, fun t hexec herr => ?_⟩
  · rw [exec_recon_of_insufficient hcfg hlen hsome hfew, State.endFault_eq_faulted, s.shardInfo_eq.1,
      s.shardInfo_eq.2, s.missing_length, s.presentSlots_length]
    rfl
  · cases reconEnd_of_exec hexec with
    | insufficient hcfg hlen hsome hfew => exact ⟨hsome, hfew⟩
    | _ => cases herr

/-! ### What the write-back leaves (rules R206, R207) -/

/-- A list of write-backs marks each of its slots and clears no bit. -/
theorem State.isPresent_foldl_restoreSlot (s : State) (D : Mat) {i : Nat} (hi : i < 256) (l : List Nat) {t : State}
    (h : i ∈ l ∨ t.isPresent i = true) : (l.foldl (fun t j => s.restoreSlot t D j) t).isPresent i = true := by
  induction l generalizing t with
  | nil => simpa using h
  | cons j l ih =>
    refine ih ?_
    have hslot : (s.restoreSlot t D j).isPresent i = true ↔ t.isPresent i = true ∨ i = j := by
      by_cases hij : i = j
      · subst hij
        simp [State.restoreSlot, State.isPresent_markPresent _ _ _ hi]
      · simp only [State.restoreSlot, State.isPresent_markPresent_of_ne _ hij, hij, or_false]
        rfl
    rw [hslot]
    rcases h with h | h
    · exact (List.mem_cons.mp h).elim (fun hij => .inr (.inr hij)) .inl
    · exact .inr (.inl h)

/-- The write-back marks each absent data slot (rule R206). -/
theorem State.isPresent_restore_of_missing (s : State) (D : Mat) {i : Nat} (hi : i < 256)
    (hmiss : i < s.k.toNat ∧ s.isPresent i = false) : (s.restore D).isPresent i = true :=
  s.isPresent_foldl_restoreSlot D hi s.missing (.inl ((s.mem_missing i).mpr hmiss))

/-- A data slot of a constructed coder exists (rules R31, R40). -/
theorem State.Inv.data_slot_lt {s : State} (h : s.Inv) (hcfg : s.cfgv = true) {i : Nat} (hi : i < s.k.toNat) :
    i < 256 := by
  have htotal := h.total
  have hn := (h.configured hcfg).2
  omega

/-- After the write-back no data slot is absent (rule R206). -/
theorem State.Inv.missing_restore {s : State} (h : s.Inv) (hcfg : s.cfgv = true) (D : Mat) :
    (s.restore D).missing = [] := by
  have hk : (s.restore D).k = s.k := by rw [sameButShards_restore s D]
  refine (State.missing_eq_nil_iff _).mpr fun i hi => ?_
  rw [hk] at hi
  by_cases hp : s.isPresent i = true
  · rw [s.isPresent_restore D (by simp [hp]), hp]
  · exact s.isPresent_restore_of_missing D (h.data_slot_lt hcfg hi) ⟨hi, by simpa using hp⟩

/-- The write-back leaves every byte of a slot that is no absent data slot (rule R207). -/
theorem State.slotByte_restore_of_not_missing (s : State) (D : Mat) {sl b : Nat} (hlen : s.shlen.toNat ≤ s.lmax)
    (hb : b < s.lmax) (hsl : ¬ (sl < s.k.toNat ∧ s.isPresent sl = false)) :
    (s.restore D).slotByte sl b = s.slotByte sl b :=
  (s.slotByte_restore D sl hlen hb).trans (if_neg fun h => hsl ((s.mem_missing sl).mp h.1))

/-- Byte `b` of an absent data slot after the write-back (rules R205, R206). -/
theorem State.slotByte_restore_of_missing (s : State) (D : Mat) {sl b : Nat} (hlen : s.shlen.toNat ≤ s.lmax)
    (hb : b < s.shlen.toNat) (hsl : sl < s.k.toNat ∧ s.isPresent sl = false) :
    (s.restore D).slotByte sl b =
      gfSum s.k.toNat (fun q => gfMul (D.get sl q) (s.slotByte (s.chosen.getD q 0) b)) :=
  (s.slotByte_restore D sl hlen (hb.trans_le hlen)).trans (if_pos ⟨(s.mem_missing sl).mpr hsl, hb⟩)

/-- Settles O36: of the ways RECON can end only the write-back stores, and it stores to absent data slots. -/
theorem reconDataOnly : Obligations.ReconDataOnly := by
  intro s t _ hexec
  have hnot {sl : Nat} (h : s.k.toNat ≤ sl ∨ s.isPresent sl = true) :
      ¬ (sl < s.k.toNat ∧ s.isPresent sl = false) := by
    rintro ⟨hk, hp⟩
    rcases h with h | h
    · omega
    · rw [hp] at h
      cases h
  cases reconEnd_of_exec hexec with
  | restored W D _ hlen =>
    exact ⟨fun sl b hb h => s.slotByte_restore_of_not_missing D hlen hb (hnot h),
      fun sl h => s.isPresent_restore D (hnot h)⟩
  | _ => exact ⟨fun _ _ _ _ => rfl, fun _ _ => rfl⟩

/-- Settles O35: a normal end of RECON finds or leaves no data slot absent, so the next RECON has nothing to do. -/
theorem reconThenNoOp : Obligations.ReconThenNoOp := by
  intro s t hs hexec herr
  have key : t.cfgv = true ∧ t.shlen.toNat ≤ t.lmax ∧ t.missing = [] ∧ t.k = s.k ∧
      ∀ i, ¬ (i < s.k.toNat ∧ s.isPresent i = false) → t.isPresent i = s.isPresent i := by
    cases reconEnd_of_exec hexec with
    | noneMissing hcfg hlen hnone => exact ⟨hcfg, hlen, hnone, rfl, fun _ _ => rfl⟩
    | restored W D hcfg hlen =>
      have hsame := sameButShards_restore s D
      refine ⟨?_, ?_, hs.missing_restore hcfg D, ?_, fun _ hi => s.isPresent_restore D hi⟩
      · rw [hsame]; exact hcfg
      · rw [hsame]; exact hlen
      · rw [hsame]; rfl
    | _ => cases herr
  obtain ⟨hcfg, hlen, hnone, hk, hbits⟩ := key
  refine ⟨fun i hi => ?_, hbits, exec_recon_of_none_missing hcfg hlen hnone⟩
  exact t.missing_eq_nil_iff.mp hnone i (hk ▸ hi)

/-- Settles O32: with enough shards and an inverse of the chosen rows, RECON ends with its write-back. -/
theorem reconRecovers : Obligations.ReconRecovers := by
  intro s W D hs hcfg hlen hsome hmany hfew chosen missing hinv
  have henough : ¬ (s.m.toNat < s.missing.length ∨ s.presentSlots.length < s.k.toNat) := by
    rw [s.missing_length, s.presentSlots_length]
    omega
  refine ⟨_, exec_recon_of_ok hcfg hlen (s.missing_ne_nil_iff.mpr hsome) henough hinv, rfl, ?_,
    fun i b hi hb => s.slotByte_restore_of_missing D hlen hb hi, fun a ha => ?_,
    fun i hi => s.isPresent_restore_of_missing D (hs.data_slot_lt hcfg hi.1) hi, fun i hi => s.isPresent_restore D hi⟩
  · rw [sameButShards_restore s D]
    rfl
  · exact sameShdBut_restore s D a fun ⟨i, hi, habs, hrun⟩ => ha ⟨i, ⟨hi, habs⟩, hrun⟩

end Sys2Proof.Machine
end

section
/-! PROOFS. Recovery of encoded data (rules R196, R202 to R205, R209). The idea: ENCODE into zeroed parity makes slot `sl`
hold row `sl` of the generator matrix applied to the data, and the inverse of the chosen rows undoes that. -/

namespace Sys2Proof.Machine

/-! ### ENCODE twice (rule R196) -/

/-- ENCODE's loops leave the data slots (rule R195). -/
theorem State.slotByte_encodeAll_data (s : State) {i b : Nat} (hlen : s.shlen.toNat ≤ s.lmax) (hb : b < s.shlen.toNat)
    (hi : i < s.k.toNat) : s.encodeAll.slotByte i b = s.slotByte i b :=
  (s.slotByte_encodeAll i hlen (hb.trans_le hlen)).trans (if_neg (by omega))

/-- Byte `b` of parity shard `j`: the data bytes under row `K + j` of `GEN` (rule R195). -/
def State.parity (s : State) (j b : Nat) : Byte :=
  gfSum s.k.toNat (fun i => gfMul (s.genElem (s.k.toNat + j) i) (s.slotByte i b))

/-- ENCODE's loops add the parity to the parity slots (rules R195, R196). -/
theorem State.slotByte_encodeAll_parity (s : State) {j b : Nat} (hlen : s.shlen.toNat ≤ s.lmax)
    (hb : b < s.shlen.toNat) (hj : j < s.m.toNat) :
    s.encodeAll.slotByte (s.k.toNat + j) b = gfAdd (s.slotByte (s.k.toNat + j) b) (s.parity j b) :=
  (s.slotByte_encodeAll _ hlen (hb.trans_le hlen)).trans (if_pos ⟨by omega, hb⟩)

/-- The same data and the same `GEN` have the same parity. -/
theorem State.parity_congr {s t : State} (hk : t.k = s.k) (hgen : ∀ o, t.genByte o = s.genByte o) {b : Nat}
    (hdata : ∀ i, i < s.k.toNat → t.slotByte i b = s.slotByte i b) (j : Nat) : t.parity j b = s.parity j b := by
  simp only [State.parity, State.genElem, hk, hgen]
  exact gfSum_congr fun i hi => by rw [hdata i hi]

/-- Settles O28: a second ENCODE adds the same parity again, and a byte added to itself is 0. -/
theorem encodeTwiceCancels : Obligations.EncodeTwiceCancels := by
  intro s t hcfg hlen hexec parity
  obtain ⟨hhost, hcoder, -, -, -, hmat, -⟩ := encodeFrame s t hexec
  cases (exec_encode_of_fits hcfg hlen).symm.trans hexec
  have hlen' : s.encodeAll.endNormal.shlen.toNat ≤ s.encodeAll.endNormal.lmax := by rwa [hhost.shlen, hhost.lmax]
  have hfirst : ∀ j b, j < s.m.toNat → b < s.shlen.toNat →
      s.encodeAll.endNormal.slotByte (s.k.toNat + j) b = gfAdd (s.slotByte (s.k.toNat + j) b) (parity j b) :=
    fun j b hj hb => s.slotByte_encodeAll_parity hlen hb hj
  have hsecond : ∀ j b, j < s.m.toNat → b < s.shlen.toNat →
      s.encodeAll.endNormal.encodeAll.slotByte (s.k.toNat + j) b =
        gfAdd (s.encodeAll.endNormal.slotByte (s.k.toNat + j) b) (parity j b) := by
    intro j b hj hb
    have hbyte := s.encodeAll.endNormal.slotByte_encodeAll_parity (j := j) hlen' (hhost.shlen ▸ hb) (hcoder.m ▸ hj)
    rwa [hcoder.k, State.parity_congr (s := s) hcoder.k (fun o => hmat _ id)
      (fun i hi => s.slotByte_encodeAll_data hlen hb hi)] at hbyte
  refine ⟨fun j b hj hb => ⟨hfirst j b hj hb, fun hzero => ?_⟩,
    _, exec_encode_of_fits (hcoder.cfgv.trans hcfg) hlen', rfl, fun j b hj hb => ?_⟩
  · rw [hfirst j b hj hb, hzero, zero_gfAdd]
  · refine (hsecond j b hj hb).trans ?_
    rw [hfirst j b hj hb, gfAdd, gfAdd, BitVec.xor_assoc, BitVec.xor_self, BitVec.xor_zero]

/-! ### The chosen shards (rule R202) -/

section
variable {s : State} (henough : s.k.toNat ≤ s.presentSlots.length)
include henough

/-- With enough shards the `q`-th chosen slot is the `q`-th present one. -/
theorem State.chosen_getD {q : Nat} (hq : q < s.k.toNat) :
    s.chosen.getD q 0 = s.presentSlots[q]'(hq.trans_le henough) := by
  simp [State.chosen, List.getD_eq_getElem?_getD, hq, hq.trans_le henough]

/-- Each chosen slot is a present slot of the coder. -/
theorem State.chosen_present {q : Nat} (hq : q < s.k.toNat) :
    s.chosen.getD q 0 < s.n.toNat ∧ s.isPresent (s.chosen.getD q 0) = true := by
  rw [State.chosen_getD henough hq]
  have hmem : s.presentSlots[q]'(hq.trans_le henough) ∈ s.presentSlots := List.getElem_mem _
  simpa only [State.presentSlots, List.mem_filter, List.mem_range] using hmem

/-- The chosen slots are distinct. -/
theorem State.chosen_injective (p q : Nat) (hp : p < s.k.toNat) (hq : q < s.k.toNat)
    (h : s.chosen.getD p 0 = s.chosen.getD q 0) : p = q := by
  rw [State.chosen_getD henough hp, State.chosen_getD henough hq] at h
  have hnodup : s.presentSlots.Nodup := List.nodup_range.filter _
  exact (hnodup.getElem_inj_iff).mp h

end

/-! ### The generator matrix in `GEN` (rule R40 (b)) -/

/-- `G` is the generator matrix of the coder of `s`, and `GEN` holds it. -/
structure State.HoldsGenerator (s : State) (G : Mat) : Prop where
  total : s.n.toNat = s.k.toNat + s.m.toNat
  bound : s.k.toNat + s.m.toNat ≤ 256
  built : buildGenerator s.k.toNat s.m.toNat = .ok G
  elem : ∀ r c, r < s.n.toNat → c < s.k.toNat → s.genElem r c = G.get r c

theorem State.Inv.exists_holdsGenerator {s : State} (hs : s.Inv) (hgen : s.GenOk) (hcfg : s.cfgv = true) :
    ∃ G, s.HoldsGenerator G := by
  obtain ⟨G, hG, helem⟩ := hgen hcfg
  exact ⟨G, hs.total, hs.total ▸ (hs.configured hcfg).2, hG, helem⟩

/-- The coder and the bytes of `GEN` decide what `GEN` holds. -/
theorem State.HoldsGenerator.of_same {s t : State} {G : Mat} (h : s.HoldsGenerator G) (hk : t.k = s.k) (hm : t.m = s.m)
    (hn : t.n = s.n) (hbytes : ∀ o, t.genByte o = s.genByte o) : t.HoldsGenerator G where
  total := by rw [hn, hk, hm, h.total]
  bound := by rw [hk, hm]; exact h.bound
  built := by rw [hk, hm]; exact h.built
  elem r c hr hc := by
    rw [hn] at hr
    rw [hk] at hc
    rw [State.genElem, hk, hbytes]
    exact h.elem r c hr hc

section
variable {s : State} {G : Mat} (h : s.HoldsGenerator G)
include h

/-- A row of `GEN` is that row of the generator matrix. -/
theorem State.HoldsGenerator.gfSum_eq_apply {r : Nat} (hr : r < s.n.toNat) (x : Nat → Byte) :
    gfSum s.k.toNat (fun i => gfMul (s.genElem r i) (x i)) = G.apply x r := by
  rw [Mat.apply, (buildGenerator_counts h.built).2]
  exact gfSum_congr fun i hi => by rw [h.elem r i hr hi]

/-- With enough shards the rows of the chosen slots are inverted (rules R194 (b), R204). -/
theorem State.HoldsGenerator.exists_decode (henough : s.k.toNat ≤ s.presentSlots.length) :
    ∃ D, matInvert s.decodeSource = .ok (matIdentity s.k.toNat) D ∧
      (G.pickRows (fun q => s.chosen.getD q 0) s.k.toNat).IsInverse D s.k.toNat := by
  have hsource : s.decodeSource = G.pickRows (fun q => s.chosen.getD q 0) s.k.toNat :=
    Mat.ofFn_congr fun q c hq hc => h.elem _ c (State.chosen_present henough hq).1 hc
  rw [hsource]
  exact exists_inverse_pickRows_generator h.bound h.built
    (fun q hq => h.total ▸ (State.chosen_present henough hq).1) (State.chosen_injective henough)

/-- ENCODE into zeroed parity makes each slot of the coder its row of the generator matrix applied to the data (rules
R194 (a), R196). -/
theorem State.HoldsGenerator.slotByte_encodeAll (hlen : s.shlen.toNat ≤ s.lmax) {b : Nat} (hb : b < s.shlen.toNat)
    (hzero : ∀ j, j < s.m.toNat → s.slotByte (s.k.toNat + j) b = 0) {sl : Nat} (hsl : sl < s.n.toNat) :
    s.encodeAll.slotByte sl b = G.apply (fun i => s.slotByte i b) sl := by
  have hbound := h.bound
  have htotal := h.total
  by_cases hdata : sl < s.k.toNat
  · rw [s.slotByte_encodeAll_data hlen hb hdata, generator_apply_data (by omega) h.built _ hdata]
  · obtain ⟨j, rfl⟩ := Nat.exists_eq_add_of_le (Nat.not_lt.mp hdata)
    have hj : j < s.m.toNat := by omega
    rw [s.slotByte_encodeAll_parity hlen hb hj, hzero j hj, zero_gfAdd, State.parity, h.gfSum_eq_apply hsl]

end

/-! ### RECON with the generator matrix (rules R204, R209) -/

/-- Settles O34: the chosen rows of the generator matrix are inverted. -/
theorem reconNeverSingular : Obligations.ReconNeverSingular := by
  intro s t hs hgen hexec herr
  cases reconEnd_of_exec hexec with
  | singular r W hcfg _ _ henough hinv =>
    obtain ⟨G, hG⟩ := hs.exists_holdsGenerator hgen hcfg
    obtain ⟨D, hok, -⟩ := hG.exists_decode (Nat.not_lt.mp (not_or.mp henough).2)
    cases hok.symm.trans hinv
  | _ => cases herr

/-- With at most `M` of the coder's slots absent there are enough shards (rule R203). -/
theorem State.enough_of_absent_le {s : State} (htotal : s.n.toNat = s.k.toNat + s.m.toNat)
    (habsent : (List.range s.n.toNat).countP (fun sl => !s.isPresent sl) ≤ s.m.toNat) :
    ¬ (s.m.toNat < s.missing.length ∨ s.presentSlots.length < s.k.toNat) := by
  have hmissing : s.numMissing ≤ (List.range s.n.toNat).countP (fun sl => !s.isPresent sl) :=
    (List.range_sublist.mpr (by omega)).countP_le
  have hall := List.length_eq_countP_add_countP (fun sl => s.isPresent sl) (l := List.range s.n.toNat)
  simp only [List.length_range, Bool.not_eq_true, Bool.decide_eq_false] at hall
  rw [s.missing_length, s.presentSlots_length, State.numPresent]
  omega

/-- When each present slot `sl` of the coder holds row `sl` of the generator matrix applied to some data, and at most `M`
slots are absent, RECON leaves the data slots holding that data (rules R205, R209). -/
theorem State.HoldsGenerator.exec_recon {s : State} {G : Mat} (h : s.HoldsGenerator G) (hcfg : s.cfgv = true)
    (hlen : s.shlen.toNat ≤ s.lmax)
    (habsent : (List.range s.n.toNat).countP (fun sl => !s.isPresent sl) ≤ s.m.toNat) (data : Nat → Nat → Byte)
    (hshards : ∀ sl b, sl < s.n.toNat → s.isPresent sl = true → b < s.shlen.toNat →
      s.slotByte sl b = G.apply (fun i => data i b) sl) :
    ∃ t, exec .recon s = .next t ∧ t.err = 0 ∧
      ∀ i b, i < s.k.toNat → b < s.shlen.toNat → t.slotByte i b = data i b := by
  have htotal := h.total
  have hbound := h.bound
  have hcols := (buildGenerator_counts h.built).2
  have henough := State.enough_of_absent_le htotal habsent
  have hpresent : ∀ i b, i < s.k.toNat → s.isPresent i = true → b < s.shlen.toNat → s.slotByte i b = data i b :=
    fun i b hi hp hb => (hshards i b (by omega) hp hb).trans (generator_apply_data (by omega) h.built _ hi)
  by_cases hnone : s.missing = []
  · exact ⟨_, exec_recon_of_none_missing hcfg hlen hnone, rfl,
      fun i b hi hb => hpresent i b hi (s.missing_eq_nil_iff.mp hnone i hi) hb⟩
  have hchosen : s.k.toNat ≤ s.presentSlots.length := Nat.not_lt.mp (not_or.mp henough).2
  obtain ⟨D, hok, hD⟩ := h.exists_decode hchosen
  refine ⟨_, exec_recon_of_ok hcfg hlen hnone henough hok, rfl, fun i b hi hb => ?_⟩
  by_cases hp : s.isPresent i = true
  · exact (s.slotByte_restore_of_not_missing D hlen (hb.trans_le hlen) (by simp [hp])).trans (hpresent i b hi hp hb)
  calc (s.restore D).slotByte i b
    _ = gfSum s.k.toNat (fun q => gfMul (D.get i q) (s.slotByte (s.chosen.getD q 0) b)) :=
      s.slotByte_restore_of_missing D hlen hb ⟨hi, by simpa using hp⟩
    _ = D.apply (fun q => G.apply (fun i => data i b) (s.chosen.getD q 0)) i := by
      rw [Mat.apply, hD.isSquare.cols_eq]
      refine gfSum_congr fun q hq => ?_
      obtain ⟨hlt, hpq⟩ := State.chosen_present hchosen hq
      rw [hshards _ b hlt hpq hb]
    _ = data i b := apply_inverse_pickRows hcols hD _ hi

/-- Settles O33: ENCODE leaves in slot `sl` row `sl` of the generator matrix applied to the data, the slots still present
keep that, and RECON recovers the data from them. -/
theorem reconRestoresData : Obligations.ReconRestoresData := by
  intro s e u hs hgen hcfg hlen hzero hencode ucfg uk um un ushlen ulmax ugen ubytes uabsent
  obtain ⟨ehost, ecoder, -, -, -, emat, -⟩ := encodeFrame s e hencode
  cases (exec_encode_of_fits hcfg hlen).symm.trans hencode
  obtain ⟨G, hG⟩ := hs.exists_holdsGenerator hgen hcfg
  have hk : u.k = s.k := uk.trans ecoder.k
  have hn : u.n = s.n := un.trans ecoder.n
  have hshlen : u.shlen = s.shlen := ushlen.trans ehost.shlen
  have hlmax : u.lmax = s.lmax := ulmax.trans ehost.lmax
  have hU : u.HoldsGenerator G :=
    hG.of_same hk (um.trans ecoder.m) hn fun o => (ugen o).trans (emat _ id)
  have hshards : ∀ sl b, sl < u.n.toNat → u.isPresent sl = true → b < u.shlen.toNat →
      u.slotByte sl b = G.apply (fun i => s.slotByte i b) sl := by
    intro sl b hsl hp hb
    refine (ubytes sl b (un ▸ hsl) hp (ushlen ▸ hb)).trans ?_
    rw [hshlen] at hb
    exact hG.slotByte_encodeAll hlen hb (fun j hj => hzero j b hj hb) (hn ▸ hsl)
  obtain ⟨t, hexec, herr, hdata⟩ := hU.exec_recon (ucfg.trans (ecoder.cfgv.trans hcfg))
    (by rwa [hshlen, hlmax]) (by rwa [un, um]) _ hshards
  exact ⟨t, hexec, herr, fun i b hi hb => hdata i b (by rwa [hk]) (by rwa [hshlen])⟩

/-! ### RECON does not read absent slots (rules R205, R283) -/

/-- The `PRESENT` bits after the write-back depend on those before it alone (rule R206). -/
theorem State.present_restore (s : State) (D : Mat) :
    (s.restore D).present = s.missing.foldl (fun p i => p ||| BitVec.twoPow 256 i) s.present :=
  (List.foldl_hom State.present fun _ _ => rfl).symm

/-- Settles O37: both runs end the same way, and a normal end leaves each data slot as it was present, or recovered from
chosen slots, which are present. -/
theorem reconIgnoresAbsentContent : Obligations.ReconIgnoresAbsentContent := by
  intro s t bytes u hs hbytes ht hu
  have hdata : ∀ i b, i < s.k.toNat → s.isPresent i = true → b < s.shlen.toNat →
      (s.withShd bytes).slotByte i b = s.slotByte i b := by
    have htotal := hs.total
    exact fun i b hi hp hb => hbytes i b (by omega) hp hb
  cases reconEnd_of_exec ht with
  | notConfigured hcfg =>
    cases (exec_recon_of_not_configured (s := s.withShd bytes) hcfg).symm.trans hu
    exact ⟨rfl, rfl, fun herr => by cases herr⟩
  | tooLong hcfg hlen =>
    cases (exec_recon_of_too_long (s := s.withShd bytes) hcfg hlen).symm.trans hu
    exact ⟨rfl, rfl, fun herr => by cases herr⟩
  | noneMissing hcfg hlen hnone =>
    cases (exec_recon_of_none_missing (s := s.withShd bytes) hcfg hlen hnone).symm.trans hu
    exact ⟨rfl, rfl, fun _ i b hi hb => hdata i b hi (s.missing_eq_nil_iff.mp hnone i hi) hb⟩
  | insufficient hcfg hlen hsome hfew =>
    cases (exec_recon_of_insufficient (s := s.withShd bytes) hcfg hlen hsome hfew).symm.trans hu
    exact ⟨rfl, rfl, fun herr => by cases herr⟩
  | singular r W hcfg hlen hsome henough hinv =>
    cases (exec_recon_of_singular (s := s.withShd bytes) hcfg hlen hsome henough hinv).symm.trans hu
    exact ⟨rfl, rfl, fun herr => by cases herr⟩
  | restored W D hcfg hlen hsome henough hinv =>
    cases (exec_recon_of_ok (s := s.withShd bytes) hcfg hlen hsome henough hinv).symm.trans hu
    refine ⟨?_, ?_, fun _ i b hi hb => ?_⟩
    · rfl
    · exact ((s.withShd bytes).present_restore D).trans (s.present_restore D).symm
    · by_cases hp : s.isPresent i = true
      · have hnot : ¬ (i < s.k.toNat ∧ s.isPresent i = false) := by simp [hp]
        have hb' := hb.trans_le hlen
        exact ((s.withShd bytes).slotByte_restore_of_not_missing D hlen hb' hnot).trans
          ((hdata i b hi hp hb).trans (s.slotByte_restore_of_not_missing D hlen hb' hnot).symm)
      · have hmiss : i < s.k.toNat ∧ s.isPresent i = false := ⟨hi, by simpa using hp⟩
        refine ((s.withShd bytes).slotByte_restore_of_missing D hlen hb hmiss).trans
          (.trans (gfSum_congr fun q hq => ?_) (s.slotByte_restore_of_missing D hlen hb hmiss).symm)
        obtain ⟨hlt, hpq⟩ := State.chosen_present (Nat.not_lt.mp (not_or.mp henough).2) hq
        exact congrArg (gfMul (D.get i q)) (hbytes _ b hlt hpq hb)

end Sys2Proof.Machine
end

section
/-! PROOFS. Faults and completion: the guards of the coder commands, the faults each command can raise, and that nothing
an offering host does stops the block (rules R61 to R63, R239 to R243, R290). -/

namespace Sys2Proof.Machine

/-! ### The guards of ENCODE and RECON (rules R195, R200, R239, R241) -/

theorem exec_encode_of_not_configured {s : State} (hcfg : s.cfgv = false) :
    exec .encode s = raiseWord .notConfigured (encode .encode) s := if_pos hcfg

theorem exec_encode_of_too_long {s : State} (hcfg : s.cfgv = true) (hlen : s.lmax < s.shlen.toNat) :
    exec .encode s = raiseWord .badParam (encode .encode) s :=
  (if_neg (by rw [hcfg]; decide)).trans (if_pos (s.shlenTooLong_eq_true_iff.mpr hlen))

/-- Settles O29: the two guards come in this order, before anything is written, and the words recorded are those of
ENCODE and RECON, which have no operands. -/
theorem coderGuards : Obligations.CoderGuards := fun s =>
  ⟨fun hcfg =>
    ⟨(exec_encode_of_not_configured hcfg).trans (raiseWord_eq_faulted .notConfigured (encode .encode) s),
      (exec_recon_of_not_configured hcfg).trans (raiseWord_eq_faulted .notConfigured (encode .recon) s)⟩,
  fun hcfg hlen =>
    ⟨(exec_encode_of_too_long hcfg hlen).trans (raiseWord_eq_faulted .badParam (encode .encode) s),
      (exec_recon_of_too_long hcfg hlen).trans (raiseWord_eq_faulted .badParam (encode .recon) s)⟩⟩

/-! ### The faults each command can raise (rule R242) -/

/-- Settles O48: of the ways a command can end, a fault entry has a code listed for the command, MINV's on a singular
source too, and every other end has code 0. -/
theorem faultsOfEachCommand : Obligations.FaultsOfEachCommand := by
  intro i s t hexec
  cases commandEnd_of_exec hexec with
  | fault hc => exact .inr hc
  | minvSingular => exact .inr (by simp [faultsOf, FaultCode.code])
  | _ => exact .inl rfl

/-! ### Nothing stops the block (rules R243, R290) -/

/-- A guard between two answers that are next states answers one. -/
theorem exists_next_of_ite {p : Prop} [Decidable p] {r r' : Result} (h : ∃ t, r = .next t) (h' : ∃ t, r' = .next t) :
    ∃ t, (if p then r else r') = .next t := by
  split
  · exact h
  · exact h'

theorem exists_next_exec_minv (md ms : MReg) (s : State) : ∃ t, exec (.minv md ms) s = .next t := by
  by_cases h : s.MinvAccepts md ms
  · exact ⟨_, exec_minv_of_accepted h⟩
  · exact ⟨_, exec_minv_of_rejected h⟩

theorem exists_next_exec_init (k m : Nat) (s : State) : ∃ t, exec (.init k m) s = .next t := by
  refine exists_next_of_ite ⟨_, rfl⟩ ?_
  cases buildGenerator k m with
  | error r => exact ⟨_, rfl⟩
  | ok G => exact ⟨_, rfl⟩

/-- Every command ends, past each of its guards and at each of them (rule R243). -/
theorem exists_next_exec (i : Instr) (s : State) : ∃ t, exec i s = .next t := by
  cases i with
  | gfmul | gfpow | gfexp => exact ⟨_, rfl⟩
  | gfinv | gflog | vand | addsv => exact exists_next_of_ite ⟨_, rfl⟩ ⟨_, rfl⟩
  | subm | mmul | encode => exact exists_next_of_ite ⟨_, rfl⟩ (exists_next_of_ite ⟨_, rfl⟩ ⟨_, rfl⟩)
  | minv md ms => exact exists_next_exec_minv md ms s
  | init k m => exact exists_next_exec_init k m s
  | recon => exact (exists_reconEnd s).imp fun _ h => h.1

/-- A `CMDL` write keeps the block going, whether the word it issues is a command or none (rules R97, R243). -/
theorem stepsOn_of_issues {s : State} {v : Word} {rest : List HostAccess} (h : s.Issues v rest) : s.StepsOn := by
  cases hd : decode (cmdOf s.cmdh v) with
  | ok i => exact (exists_next_exec i (s.setHost rest)).imp fun _ hexec => (step_of_command h hd).trans hexec
  | error e => exact ⟨_, step_of_illegal h hd⟩

/-- A whole register's access comes to what it asks for (rule R61). -/
theorem regStop_getD_of_aligned {off : Nat} (h : off < 0x100 ∧ off % 4 = 0) (r : Result) : (regStop off).getD r = r := by
  rw [regStop_eq_none h.1 h.2, Option.getD_none]

/-- An access that the interface offers keeps the block going (rules R61 to R63). -/
theorem HostAccess.Offered.stepsOn {s : State} {a : HostAccess} {rest : List HostAccess} (h : a.Offered s.lmax)
    (hhost : s.host = a :: rest) : s.StepsOn := by
  cases a with
  | wrReg off v =>
    by_cases hcmdl : off = 0x004
    · subst hcmdl
      exact stepsOn_of_issues hhost
    · exact ⟨_, (step_of_done hhost (State.access_wrReg _ v hcmdl)).trans (regStop_getD_of_aligned h _)⟩
  | rdReg off => exact ⟨_, (step_of_done hhost (State.access_rdReg _ off)).trans (regStop_getD_of_aligned h _)⟩
  | wrMat off b => exact ⟨_, (step_of_done hhost (State.access_wrMat _ off b)).trans (if_pos h)⟩
  | rdMat off => exact ⟨_, (step_of_done hhost (State.access_rdMat _ off)).trans (if_pos h)⟩
  | wrShd off b => exact ⟨_, (step_of_done hhost (State.access_wrShd _ off b)).trans (if_pos h)⟩
  | rdShd off => exact ⟨_, (step_of_done hhost (State.access_rdShd _ off)).trans (if_pos h)⟩

/-- Settles O46: every command answers a next state, and a step is idle or makes an access that the interface offers. -/
theorem blockNeverStops : Obligations.BlockNeverStops := by
  refine ⟨exists_next_exec, fun s hoffered => ?_⟩
  cases hhost : s.host with
  | nil => exact ⟨s, step_of_host_nil hhost⟩
  | cons a rest => exact (hoffered a rest hhost).stepsOn hhost

end Sys2Proof.Machine
end

section
/-! PROOFS. The reset values (rule R270). -/

namespace Sys2Proof.Machine

/-- Every matrix register is 0 by 0 after reset (rules R25, R26). -/
theorem State.shape_reset (i : MReg) : State.reset.shape i = ⟨0, 0⟩ :=
  Vector.getElem_replicate i.isLt

/-- Every slot is absent after reset (rule R29). -/
theorem State.isPresent_reset (i : Nat) : State.reset.isPresent i = false :=
  BitVec.getLsbD_zero

/-- Settles O55, register by register; the two composed words are computed from zero fields. -/
theorem resetValues : Obligations.ResetValues := by
  have hstatus : State.reset.statusWord = 0 := by decide
  have hsticky : State.reset.stickyWord = 0 := by decide
  exact ⟨State.shape_reset, rfl, State.isPresent_reset, rfl, rfl, rfl, rfl, rfl, rfl, hstatus, hsticky, rfl, rfl,
    Memory.get?_nil, Memory.get?_nil⟩

end Sys2Proof.Machine
end
